-- ==== Sys2Proof/Word.lean ====
section
/-! DEFINITION. The words of `FDNCORE`: the 64-bit register content, the 11-bit word address of the
register port, and `Num`, the binary64 number carried in a word (00_scope.md R10, 40_numerics.md R120,
20_memory.md R60 and R65). -/

namespace Sys2Proof

/-- `Word` of R10: the content of every register, 64 bits. -/
abbrev Word := BitVec 64

/-- `Num` of R120 (named `Num64` here, since the library has a `Num` of its own): an IEEE 754 binary64 number, held as its bit pattern (R65), so `num(w)` and
`word(v)` of R10 are both the identity. -/
abbrev Num64 := Word

/-- A word address of the register port: 11 bits, `0x000` to `0x7FF` (R60). -/
abbrev Addr := BitVec 11

/-- `nat(w)` of R10: a word read as an unsigned integer. -/
def Word.nat (w : Word) : Nat := w.toNat

/-- `wordn(n)` of R10: the word of a natural number below `2^64`. -/
def wordn (n : Nat) : Word := BitVec.ofNat 64 n

end Sys2Proof
end

