-- ==== Sys2Proof/Syntax.lean ====
section
/-! DEFINITION. The sixteen commands (30_encoding.md R92), one constructor per row of spec/opcode_table.json. The only
operand a command word carries is `idx` (R90); the operand registers are fixed per opcode. -/

namespace Sys2Proof

/-- The 16-bit unsigned index operand `w[23:8]` (R90, R91): a row, a phase index or a context. -/
abbrev Index := BitVec 16

inductive Instr
  /-- `NOP` (45_system.md R275). -/
  | nop
  /-- `UPDATE` (43_fdn_engine.md R200). -/
  | update
  /-- `READMIX` (R210). -/
  | readmix
  /-- `INJWR` (R218). -/
  | injwr
  /-- `SUSPEND` (R225). -/
  | suspend
  /-- `PRIMES` (41_primes.md R170). -/
  | primes
  /-- `CPRIME` (R172). -/
  | cprime
  /-- `PHASES k` (42_matrix_phase.md R192). -/
  | phases (k : Index)
  /-- `HROW r` (R186). -/
  | hrow (r : Index)
  /-- `PROW r` (R187). -/
  | prow (r : Index)
  /-- `QROW r` (R188). -/
  | qrow (r : Index)
  /-- `WSHAPE ctx` (44_waveshaper.md R250). -/
  | wshape (ctx : Index)
  /-- `WSRESET ctx` (R255). -/
  | wsreset (ctx : Index)
  /-- `SOFTCLIP` (R243). -/
  | softclip
  /-- `X2EXP` (R244). -/
  | x2exp
  /-- `SIGMOID` (R245). -/
  | sigmoid
deriving DecidableEq, Repr

end Sys2Proof
end

