-- ==== Sys2Proof/Decode.lean ====
section
/-! DEFINITION. The command word (30_encoding.md R90 to R95): `rsv ## idx ## op`, 40, 16 and 8 bits. `decode` is total on
all words and says why it refuses one; every refusal is `ILLEGAL_OP` (R94). The range of an index depends on the build
and is no part of the encoding: each command's meaning checks it before anything else (`BAD_INDEX`, R93). -/

namespace Sys2Proof

/-- Why a word is illegal (R94). -/
inductive DecodeError
  /-- `w[63:24] ≠ 0`. -/
  | reservedBits
  /-- `w[7:0]` is none of the sixteen opcodes. -/
  | unknownOpcode
  /-- `w[23:8] ≠ 0` on an opcode that takes no index. -/
  | strayIndex
deriving DecidableEq, Repr

/-- `w[7:0]`. -/
def opField (w : Word) : BitVec 8 := w.extractLsb' 0 8

/-- `w[23:8]`. -/
def idxField (w : Word) : Index := w.extractLsb' 8 16

/-- `w[63:24]`. -/
def rsvField (w : Word) : BitVec 40 := w.extractLsb' 24 40

/-- A command that takes no index. -/
def withoutIndex (idx : Index) (i : Instr) : Except DecodeError Instr :=
  if idx = 0#16 then .ok i else .error .strayIndex

/-- The opcode map (R92) on the fields of a word whose reserved bits are 0. -/
def decodeFields (op : BitVec 8) (idx : Index) : Except DecodeError Instr :=
  match op.toNat with
  | 0x00 => withoutIndex idx .nop
  | 0x01 => withoutIndex idx .update
  | 0x02 => withoutIndex idx .readmix
  | 0x03 => withoutIndex idx .injwr
  | 0x04 => withoutIndex idx .suspend
  | 0x10 => withoutIndex idx .primes
  | 0x11 => withoutIndex idx .cprime
  | 0x12 => .ok (.phases idx)
  | 0x13 => .ok (.hrow idx)
  | 0x14 => .ok (.prow idx)
  | 0x15 => .ok (.qrow idx)
  | 0x20 => .ok (.wshape idx)
  | 0x21 => .ok (.wsreset idx)
  | 0x22 => withoutIndex idx .softclip
  | 0x23 => withoutIndex idx .x2exp
  | 0x24 => withoutIndex idx .sigmoid
  | _ => .error .unknownOpcode

/-- The decoding of a command word (R93, less the index ranges). -/
def decode (w : Word) : Except DecodeError Instr :=
  if rsvField w = 0#40 then decodeFields (opField w) (idxField w) else .error .reservedBits

/-! ### The encoder -/

/-- The opcode column of R92. -/
def Instr.opcode : Instr → BitVec 8
  | .nop => 0x00#8
  | .update => 0x01#8
  | .readmix => 0x02#8
  | .injwr => 0x03#8
  | .suspend => 0x04#8
  | .primes => 0x10#8
  | .cprime => 0x11#8
  | .phases _ => 0x12#8
  | .hrow _ => 0x13#8
  | .prow _ => 0x14#8
  | .qrow _ => 0x15#8
  | .wshape _ => 0x20#8
  | .wsreset _ => 0x21#8
  | .softclip => 0x22#8
  | .x2exp => 0x23#8
  | .sigmoid => 0x24#8

/-- The word with the given fields and zero reserved bits (R90). -/
def cmdWord (op : BitVec 8) (idx : Index) : Word := (0#40 ++ idx ++ op : BitVec (40 + 16 + 8))

/-- The command word of a command (R92). -/
def encode : Instr → Word
  | .nop => cmdWord Instr.nop.opcode 0#16
  | .update => cmdWord Instr.update.opcode 0#16
  | .readmix => cmdWord Instr.readmix.opcode 0#16
  | .injwr => cmdWord Instr.injwr.opcode 0#16
  | .suspend => cmdWord Instr.suspend.opcode 0#16
  | .primes => cmdWord Instr.primes.opcode 0#16
  | .cprime => cmdWord Instr.cprime.opcode 0#16
  | .phases k => cmdWord (Instr.phases k).opcode k
  | .hrow r => cmdWord (Instr.hrow r).opcode r
  | .prow r => cmdWord (Instr.prow r).opcode r
  | .qrow r => cmdWord (Instr.qrow r).opcode r
  | .wshape c => cmdWord (Instr.wshape c).opcode c
  | .wsreset c => cmdWord (Instr.wsreset c).opcode c
  | .softclip => cmdWord Instr.softclip.opcode 0#16
  | .x2exp => cmdWord Instr.x2exp.opcode 0#16
  | .sigmoid => cmdWord Instr.sigmoid.opcode 0#16

/-! ### The opcode map as a table (R92) -/

/-- The mask of a row whose opcode takes no index. -/
def fullMask : Word := 0xFFFFFFFFFFFFFFFF#64

/-- The mask of a row whose opcode takes an index: all bits but `w[23:8]`. -/
def indexMask : Word := 0xFFFFFFFFFF0000FF#64

/-- The rows of R92: mnemonic, match, mask. "A word `w` selects the row when `w & mask = match`." -/
def opcodeRows : List (String × Word × Word) :=
  [("NOP", 0x00#64, fullMask), ("UPDATE", 0x01#64, fullMask), ("READMIX", 0x02#64, fullMask),
   ("INJWR", 0x03#64, fullMask), ("SUSPEND", 0x04#64, fullMask), ("PRIMES", 0x10#64, fullMask),
   ("CPRIME", 0x11#64, fullMask), ("PHASES", 0x12#64, indexMask), ("HROW", 0x13#64, indexMask),
   ("PROW", 0x14#64, indexMask), ("QROW", 0x15#64, indexMask), ("WSHAPE", 0x20#64, indexMask),
   ("WSRESET", 0x21#64, indexMask), ("SOFTCLIP", 0x22#64, fullMask), ("X2EXP", 0x23#64, fullMask),
   ("SIGMOID", 0x24#64, fullMask)]

/-- The mnemonic column of R92. -/
def Instr.mnemonic : Instr → String
  | .nop => "NOP"
  | .update => "UPDATE"
  | .readmix => "READMIX"
  | .injwr => "INJWR"
  | .suspend => "SUSPEND"
  | .primes => "PRIMES"
  | .cprime => "CPRIME"
  | .phases _ => "PHASES"
  | .hrow _ => "HROW"
  | .prow _ => "PROW"
  | .qrow _ => "QROW"
  | .wshape _ => "WSHAPE"
  | .wsreset _ => "WSRESET"
  | .softclip => "SOFTCLIP"
  | .x2exp => "X2EXP"
  | .sigmoid => "SIGMOID"

/-- The instruction the decoder reads from a table word of `nbits` bits: the command format is one 64-bit word, so a
longer instruction with a bit above 63 is none of the table's. -/
def decodeTableWord (nbits w : Nat) : Option Instr :=
  let bits := w % 2 ^ nbits
  if bits < 2 ^ 64 then
    match decode (BitVec.ofNat 64 bits) with
    | .ok i => some i
    | .error _ => none
  else none

end Sys2Proof
end

