-- ==== Sys2Proof/Machine/Numerics.lean ====
section
/-! DEFINITION. The number format `Num` (40_numerics.md R120 to R126): IEEE 754 binary64 with rounding to
nearest, ties to even, one rounding per operation, nothing fused, subnormals kept, no exception flags.

Every finite binary64 number is a whole number of units `2^-1074`, the smallest subnormal. So the exact
value of a number is an integer (`exactValue`), an operation is computed exactly on integers or on a quotient
of two integers, and ONE function, `roundMag`, makes the result a bit pattern again. -/

namespace Sys2Proof

/-! ### The parts of a bit pattern (R65) -/

/-- The magnitude bits `[62:0]`: exponent and fraction. -/
def magBits (x : Num64) : Nat := x.toNat % 2 ^ 63

/-- Bit 63: the sign. -/
def signBit (x : Num64) : Bool := x.msb

/-- The magnitude bits of an infinity: exponent all ones, fraction zero. -/
def infMag : Nat := 0x7FF0000000000000

/-- A bit pattern with the given sign and magnitude bits. -/
def packNum (neg : Bool) (mag : Nat) : Num64 := BitVec.ofNat 64 (if neg then 2 ^ 63 + mag else mag)

def isNaN (x : Num64) : Bool := decide (infMag < magBits x)

def isInf (x : Num64) : Bool := decide (magBits x = infMag)

/-- `finite(a)` of R122: neither a NaN nor an infinity. -/
def finite (x : Num64) : Bool := decide (magBits x < infMag)

def isZero (x : Num64) : Bool := decide (magBits x = 0)

def posZero : Num64 := 0#64
def negZero : Num64 := 0x8000000000000000#64
def posInf : Num64 := 0x7FF0000000000000#64
def negInf : Num64 := 0xFFF0000000000000#64

/-- The NaN that operations produce inside a command. Its sign and payload never reach a register: R126
makes the NaN that does a free draw (`Machine.State.setRes0Pure`), every other result is scrubbed (R147). -/
def quietNaN : Num64 := 0x7FF8000000000000#64

/-- R125 `ONE`. -/
def one : Num64 := 0x3FF0000000000000#64

/-- The number 2, the lower bound of `cprime` (41_primes.md R161). -/
def two : Num64 := 0x4000000000000000#64

/-- R125 `HALF`. -/
def half : Num64 := 0x3FE0000000000000#64

/-- R125 `TWO_PI`. -/
def twoPi : Num64 := 0x401921FB54442D18#64

/-- R125 `K2LN2`, the binary64 nearest to `2 / ln 2`. -/
def k2ln2 : Num64 := 0x40071547652B82FE#64

/-! ### Exact values -/

/-- How many units `2^-1074` make 1. -/
def unitsPerOne : Nat := 2 ^ 1074

/-- The value of magnitude bits below `infMag`, in units `2^-1074`: a subnormal is its own fraction, a normal
number has the hidden bit and is shifted by its exponent less one. -/
def magUnits (m : Nat) : Nat :=
  if m < 2 ^ 52 then m else (2 ^ 52 + m % 2 ^ 52) * 2 ^ (m / 2 ^ 52 - 1)

/-- The exact value of a finite number, in units `2^-1074` (R130: "A `Num` denotes the exact rational
number of its bit pattern"). -/
def exactValue (x : Num64) : Int :=
  if signBit x then -(magUnits (magBits x) : Int) else (magUnits (magBits x) : Int)

/-! ### Rounding -/

/-- The place of the highest 1 bit of `n < 2^(2^j)`, by halving the range `j` times (0 for 0). -/
def topBitBelow : Nat → Nat → Nat
  | 0, _ => 0
  | j + 1, n => if n < 2 ^ 2 ^ j then topBitBelow j n else 2 ^ j + topBitBelow j (n / 2 ^ 2 ^ j)

/-- The place of the highest 1 bit; every exact result of one operation on finite numbers is below
`2^8192` units. -/
def topBit (n : Nat) : Nat := topBitBelow 13 n

/-- `n / d`, rounded to the nearest integer, ties to even. -/
def divNearestEven (n d : Nat) : Nat :=
  if d < 2 * (n % d) ∨ (2 * (n % d) = d ∧ n / d % 2 = 1) then n / d + 1 else n / d

/-- The magnitude bits nearest to the exact value `n / d` units (R121): round to nearest, ties to even.
`k` is the exponent of the result's last place: 53 significant bits where the value has them, else the
subnormal grid. The rounded significand adds to the exponent field, so a carry out of the significand moves
the exponent by itself; past the largest finite number the result is the infinity. -/
def roundMag (n d : Nat) : Nat :=
  let k := topBit (n / d) - 52
  min (k * 2 ^ 52 + divNearestEven n (d * 2 ^ k)) infMag

/-- A signed exact value `± n / d` units, rounded. -/
def roundNum (neg : Bool) (n d : Nat) : Num64 := packNum neg (roundMag n d)

/-! ### Arithmetic (R121) -/

/-- Unary minus "flips the sign bit and never rounds". -/
def fneg (a : Num64) : Num64 := a ^^^ 0x8000000000000000#64

/-- `a + b`. An exact zero sum is `+0` unless both terms are negative zeros. -/
def fadd (a b : Num64) : Num64 :=
  if isNaN a || isNaN b then quietNaN
  else if isInf a then (if isInf b && (signBit a != signBit b) then quietNaN else a)
  else if isInf b then b
  else
    let v := exactValue a + exactValue b
    if v = 0 then (if signBit a && signBit b then negZero else posZero)
    else roundNum (decide (v < 0)) v.natAbs 1

/-- `a − b`. -/
def fsub (a b : Num64) : Num64 := fadd a (fneg b)

/-- `a * b`. -/
def fmul (a b : Num64) : Num64 :=
  if isNaN a || isNaN b then quietNaN
  else if isInf a || isInf b then
    (if isZero a || isZero b then quietNaN else packNum (signBit a != signBit b) infMag)
  else roundNum (signBit a != signBit b) (magUnits (magBits a) * magUnits (magBits b)) unitsPerOne

/-- `a / b`. -/
def fdiv (a b : Num64) : Num64 :=
  if isNaN a || isNaN b then quietNaN
  else if isInf a then (if isInf b then quietNaN else packNum (signBit a != signBit b) infMag)
  else if isInf b then packNum (signBit a != signBit b) 0
  else if isZero b then (if isZero a then quietNaN else packNum (signBit a != signBit b) infMag)
  else roundNum (signBit a != signBit b) (magUnits (magBits a) * unitsPerOne) (magUnits (magBits b))

/-- The largest magnitude bits `y ≥ base` whose square is at most `target` (in squared units), built bit by
bit: `bits` more bits below the ones already in `base`. -/
def sqrtFloorMag (target : Nat) : Nat → Nat → Nat
  | 0, base => base
  | bits + 1, base =>
    if magUnits (base + 2 ^ bits) ^ 2 ≤ target then sqrtFloorMag target bits (base + 2 ^ bits)
    else sqrtFloorMag target bits base

/-- The magnitude bits nearest to the square root of `x` units: the largest number whose square does not
exceed `x`, or the next one if the root lies above the middle between the two (ties to even). -/
def sqrtMag (x : Nat) : Nat :=
  let target := x * unitsPerOne
  let y := sqrtFloorMag target 63 0
  let middle := magUnits y + magUnits (y + 1)
  if middle ^ 2 < 4 * target ∨ (middle ^ 2 = 4 * target ∧ y % 2 = 1) then y + 1 else y

/-- `SQRT(a)` of R124, the correctly rounded square root: NaN for a NaN and for `a < 0`, a zero for a zero,
`+inf` for `+inf`. -/
def fsqrt (a : Num64) : Num64 :=
  if isNaN a then quietNaN
  else if isZero a then a
  else if signBit a then quietNaN
  else if isInf a then posInf
  else packNum false (sqrtMag (magUnits (magBits a)))

/-- `num_of_nat(n)` of R130. -/
def numOfNat (n : Nat) : Num64 := roundNum false (n * unitsPerOne) 1

/-! ### Comparison (R122) -/

/-- The place of a number in the numeric order: its magnitude bits, negated below zero. The binary64
patterns of one sign are ordered as their magnitude bits, both zeros are 0, and the infinities are the ends. -/
def orderKey (x : Num64) : Int := if signBit x then -(magBits x : Int) else (magBits x : Int)

/-- `a < b`: false when either is a NaN. -/
def flt (a b : Num64) : Bool := !isNaN a && !isNaN b && decide (orderKey a < orderKey b)

/-- `a ≤ b`: false when either is a NaN. -/
def fle (a b : Num64) : Bool := !isNaN a && !isNaN b && decide (orderKey a ≤ orderKey b)

/-- `a = b` as numbers: `−0 = +0`, and false when either is a NaN. -/
def feq (a b : Num64) : Bool := !isNaN a && !isNaN b && decide (orderKey a = orderKey b)

/-! ### The number format as a parameter (00_scope.md R8, R120, R150)

The rules' formulas use `Num` through the operations below and nothing else, so they are written once, over any format
(here and in the files of the command families). `binary64` is the format of the machine; the real numbers, in which
every operation is exact and every value finite, are the other (Machine/Reals.lean). -/

/-- A number format. -/
structure NumFormat (N : Type) where
  /-- `+0.0`. -/
  zero : N
  /-- The constants of R125, and the number 2. -/
  one : N
  two : N
  half : N
  twoPi : N
  k2ln2 : N
  /-- The operations of R121. -/
  add : N → N → N
  sub : N → N → N
  mul : N → N → N
  div : N → N → N
  neg : N → N
  /-- The comparisons and `finite` of R122. -/
  lt : N → N → Bool
  le : N → N → Bool
  finite : N → Bool
  /-- `num_of_nat(n)` (R130). -/
  ofNat : Nat → N
  /-- `floor(x)` and `ceil(x)`, for finite `x ≥ 2` (R130). -/
  floor : N → Nat
  ceil : N → Nat
  /-- `n ≤ x` for `x ≥ 2`, infinite `x` included. -/
  natLe : Nat → N → Bool
  /-- `(x − lo) ≤ (hi − x)` for finite `lo ≤ x ≤ hi`, compared on the exact values (R130). -/
  nearerBelow : N → Nat → Nat → Bool

/-- Binary64 (R120). For `x ≥ 2` the exact value is its magnitude in units `2^-1074`, and an infinity has more units than
any finite number. -/
def binary64 : NumFormat Num64 where
  zero := posZero
  one := one
  two := two
  half := half
  twoPi := twoPi
  k2ln2 := k2ln2
  add := fadd
  sub := fsub
  mul := fmul
  div := fdiv
  neg := fneg
  lt := flt
  le := fle
  finite := finite
  ofNat := numOfNat
  floor x := magUnits (magBits x) / unitsPerOne
  ceil x := (magUnits (magBits x) + unitsPerOne - 1) / unitsPerOne
  natLe n x := decide (n * unitsPerOne ≤ magUnits (magBits x))
  nearerBelow x lo hi :=
    decide (magUnits (magBits x) - lo * unitsPerOne ≤ hi * unitsPerOne - magUnits (magBits x))

section Formulas

variable {N : Type} (A : NumFormat N)

/-- A sum of `Num` terms: from `+0.0`, one term at a time in list order (R123). -/
def NumFormat.sum (terms : List N) : N := terms.foldl A.add A.zero

/-- `Σ a[i] * b[i]` in ascending order, every product rounded before it is added (R123). -/
def NumFormat.dot (a b : List N) : N := A.sum (List.zipWith A.mul a b)

/-- `scrub(v)` (R146), the value: a non-finite value becomes `+0.0`. -/
def NumFormat.scrub (v : N) : N := if A.finite v then v else A.zero

/-- `scrub(v)` (R146), the flag: whether it sets `STATUS.NONFIN`. -/
def NumFormat.scrubbed (v : N) : Bool := !A.finite v

/-- The reference instantiation of `ALPHA(fc, fs)` (R136), `ONE − EXP(−((TWO_PI * fc) / fs))`. -/
def NumFormat.alphaFormula (exp : N → N) (fc fs : N) : N :=
  A.sub A.one (exp (A.neg (A.div (A.mul A.twoPi fc) fs)))

/-- `SC0(x, min, max)`, the reference instantiation of `SOFTCLIP` (44_waveshaper.md R242). -/
def NumFormat.clipFormula (exp : N → N) (x mn mx : N) : N :=
  let c := A.mul (A.add mn mx) A.half
  let h := A.mul (A.sub mx mn) A.half
  let d := A.sub x c
  if A.le A.zero d then A.add c (A.mul h (A.sub A.one (exp (A.neg (A.div d h)))))
  else A.sub c (A.mul h (A.sub A.one (exp (A.div d h))))

end Formulas

/-! ### The NaN of R126 -/

/-- The NaN with a given sign (bit 52) and payload (bits `[51:0]`); a payload of 0, which would be an infinity, is
taken as 1. Every NaN is one of these. -/
def nanOf (draw : BitVec 53) : Num64 :=
  packNum (draw.toNat / 2 ^ 52 == 1)
    (infMag + (if draw.toNat % 2 ^ 52 = 0 then 1 else draw.toNat % 2 ^ 52))

/-! ### The order of bit patterns and of exact values, and monotone rounding

These facts are what every law about `Num` rests on; Config.lean uses them for the functions that show the
contract of R124 to be satisfiable. -/

theorem topBitBelow_eq_log2 (j : Nat) : ∀ n, n < 2 ^ 2 ^ j → topBitBelow j n = n.log2 := by
  induction j with
  | zero =>
    intro n h
    have : n = 0 ∨ n = 1 := by simp at h; omega
    rcases this with rfl | rfl <;> decide
  | succ j ih =>
    intro n h
    unfold topBitBelow
    split
    · exact ih n ‹_›
    · rename_i hn
      have hpos : 0 < 2 ^ 2 ^ j := by positivity
      have hsq : 2 ^ 2 ^ (j + 1) = 2 ^ 2 ^ j * 2 ^ 2 ^ j := by rw [← pow_add]; congr 1; ring
      have hlt : n / 2 ^ 2 ^ j < 2 ^ 2 ^ j := by
        rw [Nat.div_lt_iff_lt_mul hpos, ← hsq]; exact h
      have hge : 1 ≤ n / 2 ^ 2 ^ j := by
        rw [Nat.one_le_div_iff hpos]; omega
      rw [ih _ hlt]
      symm
      have hne : n / 2 ^ 2 ^ j ≠ 0 := by omega
      rw [Nat.log2_eq_iff (by omega)]
      obtain ⟨h1, h2⟩ := (Nat.log2_eq_iff hne).1 rfl
      have e := Nat.div_add_mod n (2 ^ 2 ^ j)
      have hm := Nat.mod_lt n hpos
      constructor
      · rw [pow_add]
        calc _ ≤ 2 ^ 2 ^ j * (n / 2 ^ 2 ^ j) := Nat.mul_le_mul_left _ h1
          _ ≤ n := by omega
      · rw [Nat.add_assoc, pow_add]
        calc n < 2 ^ 2 ^ j * (n / 2 ^ 2 ^ j + 1) := by rw [Nat.mul_add]; omega
          _ ≤ _ := Nat.mul_le_mul_left _ h2

theorem topBit_eq_log2 {n : Nat} (h : n < 2 ^ 2 ^ 13) : topBit n = n.log2 :=
  topBitBelow_eq_log2 13 n h

@[simp] theorem topBit_zero : topBit 0 = 0 := by
  rw [topBit_eq_log2 (Nat.two_pow_pos (2 ^ 13))]; simp

theorem lt_two_pow_topBit {n : Nat} (h : n < 2 ^ 2 ^ 13) : n < 2 ^ (topBit n + 1) := by
  rw [topBit_eq_log2 h]; exact Nat.lt_log2_self

theorem two_pow_topBit_le {n : Nat} (h : n < 2 ^ 2 ^ 13) (h0 : n ≠ 0) : 2 ^ topBit n ≤ n := by
  rw [topBit_eq_log2 h]; exact Nat.log2_self_le h0

theorem topBit_mono {n n' : Nat} (h : n ≤ n') (h' : n' < 2 ^ 2 ^ 13) : topBit n ≤ topBit n' := by
  by_cases h0 : n = 0
  · subst h0; simp
  · have h1 := two_pow_topBit_le (by omega) h0
    have h2 := lt_two_pow_topBit h'
    have : 2 ^ topBit n < 2 ^ (topBit n' + 1) := by omega
    have := (Nat.pow_lt_pow_iff_right (by norm_num : 1 < 2)).1 this
    omega

theorem divNearestEven_mono {n n' d : Nat} (h : n ≤ n') : divNearestEven n d ≤ divNearestEven n' d := by
  unfold divNearestEven
  have hq : n / d ≤ n' / d := Nat.div_le_div_right h
  have e := Nat.div_add_mod n d
  have e' := Nat.div_add_mod n' d
  rcases Nat.lt_or_eq_of_le hq with hlt | heq
  · split <;> split <;> omega
  · rw [heq] at e ⊢
    split <;> split <;> omega

theorem div_le_divNearestEven (n d : Nat) : n / d ≤ divNearestEven n d := by
  unfold divNearestEven; split <;> omega

theorem divNearestEven_le (n d : Nat) : divNearestEven n d ≤ n / d + 1 := by
  unfold divNearestEven; split <;> omega

/-- Rounding is monotone: over one denominator, a larger exact value never gets a smaller pattern. -/
theorem roundMag_mono {n n' d : Nat} (h : n ≤ n') (hb : n' / d < 2 ^ 2 ^ 13) :
    roundMag n d ≤ roundMag n' d := by
  have hq : n / d ≤ n' / d := Nat.div_le_div_right h
  have ht := topBit_mono hq hb
  unfold roundMag
  refine min_le_min_right _ ?_
  rcases Nat.lt_or_eq_of_le (Nat.sub_le_sub_right ht 52) with hlt | heq
  · have hlow : divNearestEven n (d * 2 ^ (topBit (n / d) - 52)) ≤ 2 ^ 53 := by
      refine le_trans (divNearestEven_le _ _) ?_
      rw [← Nat.div_div_eq_div_mul, Nat.succ_le_iff, Nat.div_lt_iff_lt_mul (by positivity), ← pow_add]
      refine lt_of_lt_of_le (lt_two_pow_topBit (by omega)) ?_
      exact Nat.pow_le_pow_right (by norm_num) (by omega)
    have hhigh : 2 ^ 52 ≤ divNearestEven n' (d * 2 ^ (topBit (n' / d) - 52)) := by
      refine le_trans ?_ (div_le_divNearestEven _ _)
      rw [← Nat.div_div_eq_div_mul, Nat.le_div_iff_mul_le (by positivity), ← pow_add]
      have h0 : n' / d ≠ 0 := by
        intro h0
        rw [h0] at hlt
        simp at hlt
      refine le_trans ?_ (two_pow_topBit_le hb h0)
      exact Nat.pow_le_pow_right (by norm_num) (by omega)
    have : (topBit (n / d) - 52 + 1) * 2 ^ 52 ≤ (topBit (n' / d) - 52) * 2 ^ 52 :=
      Nat.mul_le_mul_right _ hlt
    omega
  · rw [heq]
    exact Nat.add_le_add_left (divNearestEven_mono h) _

theorem roundMag_le (n d : Nat) : roundMag n d ≤ infMag := min_le_right _ _

theorem magUnits_mono {m m' : Nat} (h : m ≤ m') : magUnits m ≤ magUnits m' := by
  unfold magUnits
  split <;> split
  · exact h
  · have : 1 ≤ 2 ^ (m' / 2 ^ 52 - 1) := Nat.one_le_two_pow
    calc m ≤ (2 ^ 52 + m' % 2 ^ 52) * 1 := by omega
      _ ≤ _ := Nat.mul_le_mul_left _ this
  · omega
  · have hq : m / 2 ^ 52 ≤ m' / 2 ^ 52 := Nat.div_le_div_right h
    have e := Nat.div_add_mod m (2 ^ 52)
    have e' := Nat.div_add_mod m' (2 ^ 52)
    have hr := Nat.mod_lt m (by norm_num : 0 < 2 ^ 52)
    rcases Nat.lt_or_eq_of_le hq with hlt | heq
    · calc (2 ^ 52 + m % 2 ^ 52) * 2 ^ (m / 2 ^ 52 - 1)
          ≤ (2 ^ 52 * 2) * 2 ^ (m / 2 ^ 52 - 1) := Nat.mul_le_mul_right _ (by omega)
        _ = 2 ^ 52 * 2 ^ (m / 2 ^ 52 - 1 + 1) := by rw [pow_succ]; ring
        _ ≤ 2 ^ 52 * 2 ^ (m' / 2 ^ 52 - 1) :=
            Nat.mul_le_mul_left _ (Nat.pow_le_pow_right (by norm_num) (by omega))
        _ ≤ _ := Nat.mul_le_mul_right _ (by omega)
    · rw [heq]
      exact Nat.mul_le_mul_right _ (by omega)

theorem magBits_packNum (neg : Bool) {m : Nat} (h : m < 2 ^ 63) : magBits (packNum neg m) = m := by
  unfold magBits packNum
  cases neg <;> simp [BitVec.toNat_ofNat] <;> omega

theorem signBit_packNum (neg : Bool) {m : Nat} (h : m < 2 ^ 63) : signBit (packNum neg m) = neg := by
  unfold signBit packNum
  cases neg <;> simp [BitVec.msb_eq_decide, BitVec.toNat_ofNat] <;> omega

theorem orderKey_packNum_pos {m : Nat} (h : m < 2 ^ 63) : orderKey (packNum false m) = m := by
  simp [orderKey, signBit_packNum false h, magBits_packNum false h]

theorem exactValue_mono {a b : Num64} (h : orderKey a ≤ orderKey b) : exactValue a ≤ exactValue b := by
  unfold orderKey at h
  unfold exactValue
  have z : magUnits 0 = 0 := by decide
  cases ha : signBit a <;> cases hb : signBit b <;> simp only [ha, hb, if_true, if_false, Bool.false_eq_true] at h ⊢
  · exact_mod_cast magUnits_mono (by omega)
  · have h1 : magBits a = 0 := by omega
    have h2 : magBits b = 0 := by omega
    simp [h1, h2, z]
  · have := Int.natCast_nonneg (magUnits (magBits a))
    have := Int.natCast_nonneg (magUnits (magBits b))
    omega
  · have : magUnits (magBits b) ≤ magUnits (magBits a) := magUnits_mono (by omega)
    omega

theorem unitsPerOne_pos : (0 : Int) < (unitsPerOne : Int) :=
  Int.natCast_pos.2 (by unfold unitsPerOne; positivity)

end Sys2Proof
end

