-- ==== Sys2Proof/Machine/Reference.lean ====
section
/-! DEFINITION. The reference instantiation of the numeric configuration: `EXP`, `EXP2` and `POW` correctly
rounded (40_numerics.md R124), `ALPHA` (R136) and `SC0` (44_waveshaper.md R242). The spec chose them for its test
vectors only. A build names them with `FunctionSet.reference` (Config.lean); every other build leaves the
functions uninterpreted, and no statement of the model rests on a value computed here.

The functions are computed on fixed-point integers with 256 fraction bits, the results are cut to 200 fraction
bits so that exact and half-way results are met exactly, and `roundMag` rounds once. UNVERIFIED: that 200 bits
decide every rounding is not proved (notes/assumptions/5.md). -/

namespace Sys2Proof

/-- Fraction bits of the fixed-point numbers below. -/
def fixBits : Nat := 256

/-- `ln 2` with 256 fraction bits, rounded down. -/
def ln2Fix : Nat := 0xb17217f7d1cf79abc9e3b39803f2f6af40f343267298b62d8a0d175b8baafa2b

/-- The exact value of a number as a fixed-point integer, rounded down. -/
def toFix (x : Num64) : Int := exactValue x / (2 ^ (1074 - fixBits) : Nat)

/-- Horner's form of the exponential series: `1 + r/1 (1 + r/2 (… (1 + r/n)))`, `r` in fixed point. -/
def expSeries (r : Nat) : Nat → Nat → Nat
  | 0, acc => acc
  | n + 1, acc => expSeries r n (2 ^ fixBits + r * acc / 2 ^ fixBits / (n + 1))

/-- `2^k * e^r` for fixed-point `0 ≤ r < ln 2`, rounded to a number. -/
def expParts (k : Int) (r : Nat) : Num64 :=
  let e := (expSeries r 64 (2 ^ fixBits) + 2 ^ 55) / 2 ^ 56
  match k + (1074 - 200) with
  | Int.ofNat up => packNum false (roundMag (e * 2 ^ up) 1)
  | Int.negSucc down => packNum false (roundMag e (2 ^ (down + 1)))

/-- `e^a` for a fixed-point `a`; past `±800` the result has overflowed or underflowed. -/
def expFix (a : Int) : Num64 :=
  if (800 * 2 ^ fixBits : Nat) ≤ a then posInf
  else if a ≤ -(800 * 2 ^ fixBits : Nat) then posZero
  else expParts (a / ln2Fix) (a % ln2Fix).toNat

/-- `EXP(a)`, the reference instantiation of R124. -/
def refExp (a : Num64) : Num64 :=
  if isNaN a then quietNaN
  else if isInf a then (if signBit a then posZero else posInf)
  else expFix (toFix a)

/-- `EXP2(a)`, the reference instantiation of R124: the whole part of `a` is the exponent, the rest is
`e^(f ln 2)`. -/
def refExp2 (a : Num64) : Num64 :=
  if isNaN a then quietNaN
  else if isInf a then (if signBit a then posZero else posInf)
  else
    let t := toFix a
    if (1100 * 2 ^ fixBits : Nat) ≤ t then posInf
    else if t ≤ -(1100 * 2 ^ fixBits : Nat) then posZero
    else expParts (t / (2 ^ fixBits : Nat)) ((t % (2 ^ fixBits : Nat)).toNat * ln2Fix / 2 ^ fixBits)

/-- The series `z + z³/3 + z⁵/5 + …` from its `n`-th term down, in Horner's form; `z2` is `z²` in fixed
point. -/
def atanhSeries (z2 : Nat) : Nat → Nat → Nat
  | 0, acc => acc
  | n + 1, acc => atanhSeries z2 n (2 ^ fixBits / (2 * n + 1) + z2 * acc / 2 ^ fixBits)

/-- `ln b` in fixed point for a finite `b > 0`: `b = m 2^j` with `1 ≤ m < 2`, and
`ln m = 2 atanh ((m − 1)/(m + 1))`. -/
def lnFix (b : Num64) : Int :=
  let u := magUnits (magBits b)
  let m := u * 2 ^ fixBits / 2 ^ topBit u
  let z := (m - 2 ^ fixBits) * 2 ^ fixBits / (m + 2 ^ fixBits)
  ((topBit u : Int) - 1074) * ln2Fix + (2 * z * atanhSeries (z * z / 2 ^ fixBits) 90 0 / 2 ^ fixBits : Nat)

/-- `POW(b, c)` for `0 < b ≤ 1`, the reference instantiation of R124: `e^(c ln b)`. PRESUMED: R124 lists no property
for `b < 1` and a `c` that is not finite; there the reference is `+0` for `+inf`, `+inf` for `−inf` and a NaN for a NaN, as
IEEE 754 gives `pow` (notes/assumptions/19.md). -/
def refPow (b c : Num64) : Num64 :=
  if isZero c || feq b one then one
  else if isNaN c then quietNaN
  else if isInf c then (if signBit c then posInf else posZero)
  else if feq c one then b
  else expFix (exactValue c * lnFix b / (unitsPerOne : Int))

/-- `ALPHA(fc, fs)`, the reference instantiation of R136. -/
def refAlpha (fc fs : Num64) : Num64 := binary64.alphaFormula refExp fc fs

/-- `SC0(x, min, max)`, the reference instantiation of `SOFTCLIP` (R242). DESIGN CHOICE: R242 also says that `SC0` meets
S1 to S6 and is exactly `max` and `min` at the infinities, which its formula, each operation rounded, does not give for every
pair of bounds; where the two differ the formula is followed (notes/assumptions/22.md). -/
def refSoftclip (x mn mx : Num64) : Num64 := binary64.clipFormula refExp x mn mx

end Sys2Proof
end

