-- ==== Sys2Proof/Config.lean ====
section
/-! DEFINITION. What is fixed when an `FDNCORE` is built (00_scope.md R6 to R8, R14): the structural parameters
`M`, `D`, `NW`, the waveshaper constants (44_waveshaper.md R246) and the functions `SQRT`, `POW`, `EXP`, `EXP2`,
`ALPHA`, `SOFTCLIP`, of which a model "assumes of each only the properties listed" (40_numerics.md R124, R136;
44_waveshaper.md R241). The number format is a parameter of the formulas (`NumConfig`); a build, whose registers carry
words, has binary64.

The functions of a build are either the spec's reference instantiation or an UNINTERPRETED set that is known
only to have the listed properties: an opaque constant whose value no proof can see. The free NaN of R126 is
the other opaque constant. -/

namespace Sys2Proof

/-! ### The functions and the properties the spec lists -/

/-- The functions R8 leaves open, over a number format. -/
structure FunctionsOf (N : Type) where
  sqrt : N → N
  pow : N → N → N
  exp : N → N
  exp2 : N → N
  alpha : N → N → N
  softclip : N → N → N → N

/-- The functions over binary64. -/
abbrev Functions := FunctionsOf Num64

/-- The numeric configuration of R8: the number format and the functions on it. The formulas of the rules take it as
their parameter. -/
structure NumConfig (N : Type) extends NumFormat N, FunctionsOf N

/-- The numeric configuration that a set of functions gives over binary64. -/
def Functions.numeric (f : Functions) : NumConfig Num64 := ⟨binary64, f⟩

/-- The row `SQRT(a)` of R124: "the IEEE 754 correctly rounded square root". That fixes every value but the pattern of
a NaN; `fsqrt` is that root. -/
structure SqrtLaws (sqrt : Num64 → Num64) : Prop where
  rounded : ∀ a, isNaN (fsqrt a) = false → sqrt a = fsqrt a
  nan : ∀ a, isNaN (fsqrt a) = true → isNaN (sqrt a) = true

/-- The domain of the first argument of `POW`: `0 < b ≤ 1` (R124). -/
def inUnit (b : Num64) : Bool := flt posZero b && fle b one

/-- The row `POW(b, c)` of R124. DESIGN CHOICE: nothing is required of `POW(b, c)` with `b < 1` and a `c` that is not finite, which
R124 leaves open. 41_primes.md R170 says that `max ≤ 0` gives all 2 whatever `ARG0` holds; that follows of these properties for a
finite `ARG0` only, since a `POW` that is negative at such a `c` gives another length (notes/assumptions/24.md). -/
structure PowLaws (pow : Num64 → Num64 → Num64) : Prop where
  /-- `POW(b, ±0) = 1`. -/
  zero : ∀ b c, inUnit b = true → isZero c = true → pow b c = one
  /-- `POW(1, c) = 1` for every `c`, NaN included. -/
  ofOne : ∀ c, pow one c = one
  /-- `POW(b, 1) = b`. -/
  oneRight : ∀ b, inUnit b = true → pow b one = b
  /-- `POW(b, 2)` within one unit in the last place of `b * b`. DESIGN CHOICE: read as at most one bit pattern away, so
  just below a power of two the unit is the smaller of the two spacings (notes/assumptions/20.md). -/
  square : ∀ b, inUnit b = true →
    magBits (pow b two) ≤ magBits (fmul b b) + 1 ∧ magBits (fmul b b) ≤ magBits (pow b two) + 1
  /-- For finite `c` the result is positive or `+0` or `+inf`, never NaN. -/
  range : ∀ b c, inUnit b = true → finite c = true → isNaN (pow b c) = false ∧ signBit (pow b c) = false
  /-- Monotone nondecreasing in `b` for `c ≥ 0`. -/
  monoUp : ∀ b b' c, inUnit b = true → inUnit b' = true → finite c = true → fle posZero c = true →
    fle b b' = true → fle (pow b c) (pow b' c) = true
  /-- Nonincreasing in `b` for `c ≤ 0`. -/
  monoDown : ∀ b b' c, inUnit b = true → inUnit b' = true → finite c = true → fle c posZero = true →
    fle b b' = true → fle (pow b' c) (pow b c) = true

/-- The real number that a finite number denotes (R130). -/
noncomputable def realValue (a : Num64) : ℝ := (exactValue a : ℝ) / (unitsPerOne : ℝ)

/-- The row `EXP(a)` of R124, which `EXP2` shares; `exact` is the real function. DESIGN CHOICE: the result has overflowed
where the exact value is `2^1024` or more, and underflowed where it is at most the largest subnormal number; between the
largest finite number and `2^1024`, and between the largest subnormal and the smallest normal number, either reading of
the words is allowed (notes/assumptions/21.md). -/
structure ExpLaws (exact : ℝ → ℝ) (f : Num64 → Num64) : Prop where
  zero : ∀ a, isZero a = true → f a = one
  atNegInf : f negInf = posZero
  atPosInf : f posInf = posInf
  nan : ∀ a, isNaN a = true → isNaN (f a) = true
  mono : ∀ a b, fle a b = true → fle (f a) (f b) = true
  /-- The result is never below `+0`. -/
  positive : ∀ a, isNaN a = false → signBit (f a) = false
  leOne : ∀ a, fle a posZero = true → fle (f a) one = true
  /-- "overflow gives `+inf`". -/
  overflow : ∀ a, finite a = true → (2 : ℝ) ^ 1024 ≤ exact (realValue a) → f a = posInf
  /-- "underflow gives a subnormal or `+0`": no exponent bit is set. -/
  underflow : ∀ a, finite a = true → exact (realValue a) ≤ (2 : ℝ) ^ (-1022 : ℤ) - (2 : ℝ) ^ (-1074 : ℤ) →
    magBits (f a) < 2 ^ 52

/-- The base-2 exponential. -/
noncomputable def exactExp2 (x : ℝ) : ℝ := (2 : ℝ) ^ x

/-- The row `EXP2(a)` of R124. -/
structure Exp2Laws (f : Num64 → Num64) : Prop extends ExpLaws exactExp2 f where
  /-- `EXP2(n) = 2^n` exactly for integer `n` in `[−1022, 1023]`: `a` is any number whose exact value is `n`, and `2^n` has
  the exponent field `n + 1023` and no fraction. -/
  atIntegers : ∀ (a : Num64) (n : Int), finite a = true → exactValue a = n * (unitsPerOne : Int) →
    -1022 ≤ n → n ≤ 1023 → f a = packNum false ((n + 1023).toNat * 2 ^ 52)
  /-- "underflows to `+0` for large negative `x`" (44_waveshaper.md R244). DESIGN CHOICE: by `−1154` at the latest, where
  `X2EXP(−400)` lies, which V41 of 95_test_vectors.md gives as `+0.0` (notes/assumptions/21.md). -/
  vanishes : ∀ a, finite a = true → exactValue a ≤ -1154 * (unitsPerOne : Int) → f a = posZero

/-- The required properties of `ALPHA(fc, fs)` for finite `fc ≥ 0` and finite `fs > 0` (R136). -/
structure AlphaLaws (alpha : Num64 → Num64 → Num64) : Prop where
  range : ∀ fc fs, finite fc = true → fle posZero fc = true → finite fs = true → flt posZero fs = true →
    fle posZero (alpha fc fs) = true ∧ fle (alpha fc fs) one = true
  zero : ∀ fc fs, isZero fc = true → finite fs = true → flt posZero fs = true → alpha fc fs = posZero
  mono : ∀ fc fc' fs, finite fc = true → finite fc' = true → fle posZero fc = true → fle fc fc' = true →
    finite fs = true → flt posZero fs = true → fle (alpha fc fs) (alpha fc' fs) = true

/-- The properties of `SOFTCLIP(x, min, max)` for finite `min < max` (R241) that can be said of binary64: S2, S4,
S5, S6. Continuity (S1) and differentiability (S3) speak of the real line only (notes/assumptions/6.md). -/
structure SoftclipLaws (clip : Num64 → Num64 → Num64 → Num64) : Prop where
  /-- S2: monotone nondecreasing in `x`. -/
  mono : ∀ x y mn mx, finite mn = true → finite mx = true → flt mn mx = true → fle x y = true →
    fle (clip x mn mx) (clip y mn mx) = true
  /-- S4: between `min` and `max` for every non-NaN `x`. -/
  range : ∀ x mn mx, finite mn = true → finite mx = true → flt mn mx = true → isNaN x = false →
    fle mn (clip x mn mx) = true ∧ fle (clip x mn mx) mx = true
  /-- S4: the limits, which R243 gives as the values at the infinities. -/
  atPosInf : ∀ mn mx, finite mn = true → finite mx = true → flt mn mx = true →
    feq (clip posInf mn mx) mx = true
  atNegInf : ∀ mn mx, finite mn = true → finite mx = true → flt mn mx = true →
    feq (clip negInf mn mx) mn = true
  /-- S5: `SOFTCLIP(0, −1, 1) = 0`. -/
  centre : ∀ x, isZero x = true → feq (clip x (fneg one) one) posZero = true
  /-- S6: a NaN for a NaN. -/
  nan : ∀ x mn mx, finite mn = true → finite mx = true → flt mn mx = true → isNaN x = true →
    isNaN (clip x mn mx) = true

/-- Everything the spec lets a model assume of the open functions. -/
structure Functions.Meets (f : Functions) : Prop where
  sqrt : SqrtLaws f.sqrt
  pow : PowLaws f.pow
  exp : ExpLaws Real.exp f.exp
  exp2 : Exp2Laws f.exp2
  alpha : AlphaLaws f.alpha
  softclip : SoftclipLaws f.softclip

/-! ### The properties can be met

`opaque` needs the type of its constant to be inhabited. The functions below are the simplest ones that have
the listed properties; they serve as that proof and as nothing else, and no run can evaluate them. -/

def plainPow (b c : Num64) : Num64 := if c = one then b else if c = two then fmul b b else one

/-- The whole part of a number, rounded down. -/
def wholePart (a : Num64) : Int := exactValue a / (unitsPerOne : Int)

def plainExp2 (a : Num64) : Num64 :=
  if isNaN a then quietNaN
  else if 1024 ≤ wholePart a then posInf
  else if wholePart a < -1022 then posZero
  else packNum false ((wholePart a + 1023).toNat * 2 ^ 52)

def plainExp (a : Num64) : Num64 :=
  if isNaN a then quietNaN
  else if 512 ≤ wholePart a then posInf
  else if wholePart a < -511 then posZero
  else one

def plainClip (x mn mx : Num64) : Num64 :=
  if isNaN x then quietNaN else if fle x mn then mn else if fle mx x then mx else x

def plainFunctions : Functions :=
  ⟨fsqrt, plainPow, plainExp, plainExp2, fun _ _ => posZero, plainClip⟩

theorem fle_iff {a b : Num64} :
    fle a b = true ↔ isNaN a = false ∧ isNaN b = false ∧ orderKey a ≤ orderKey b := by
  simp [fle, and_assoc]

theorem flt_iff {a b : Num64} :
    flt a b = true ↔ isNaN a = false ∧ isNaN b = false ∧ orderKey a < orderKey b := by
  simp [flt, and_assoc]

theorem feq_iff {a b : Num64} :
    feq a b = true ↔ isNaN a = false ∧ isNaN b = false ∧ orderKey a = orderKey b := by
  simp [feq, and_assoc]

theorem isNaN_packNum_of_le (neg : Bool) {m : Nat} (h : m ≤ infMag) : isNaN (packNum neg m) = false := by
  have h63 : m < 2 ^ 63 := lt_of_le_of_lt h (by decide)
  simp [isNaN, magBits_packNum neg h63, h]

theorem inUnit_facts {b : Num64} (h : inUnit b = true) :
    isNaN b = false ∧ signBit b = false ∧ isInf b = false ∧ magBits b ≤ 0x3FF0000000000000 := by
  simp only [inUnit, Bool.and_eq_true, flt_iff, fle_iff] at h
  obtain ⟨⟨_, hn, hlo⟩, _, _, hhi⟩ := h
  have hz : orderKey posZero = 0 := by decide
  have h1 : orderKey one = 0x3FF0000000000000 := by decide
  rw [hz] at hlo
  rw [h1] at hhi
  have hs : signBit b = false := by
    cases hs : signBit b
    · rfl
    · simp only [orderKey, hs, if_true] at hlo; omega
  simp only [orderKey, hs, Bool.false_eq_true, if_false] at hhi
  have hm : magBits b ≤ 0x3FF0000000000000 := by omega
  exact ⟨hn, hs, decide_eq_false (by unfold infMag; omega), hm⟩

theorem square_eq {b : Num64} (h : inUnit b = true) :
    fmul b b = packNum false (roundMag (magUnits (magBits b) * magUnits (magBits b)) unitsPerOne) := by
  obtain ⟨hn, hs, hi, _⟩ := inUnit_facts h
  simp [fmul, hn, hi, hs, roundNum]

theorem plainPow_laws : PowLaws plainPow where
  zero b c _ hc := by
    have h1 : c ≠ one := by rintro rfl; revert hc; decide
    have h2 : c ≠ two := by rintro rfl; revert hc; decide
    simp [plainPow, h1, h2]
  ofOne c := by
    unfold plainPow
    split
    · rfl
    · split
      · decide +kernel
      · rfl
  oneRight b _ := by simp [plainPow]
  square b _ := by
    have h : two ≠ one := by decide
    simp [plainPow, h]
  range b c hb _ := by
    obtain ⟨hn, hs, _, _⟩ := inUnit_facts hb
    unfold plainPow
    split
    · exact ⟨hn, hs⟩
    · split
      · rw [square_eq hb]
        exact ⟨isNaN_packNum_of_le _ (roundMag_le _ _),
          signBit_packNum _ (lt_of_le_of_lt (roundMag_le _ _) (by decide))⟩
      · decide
  monoUp b b' c hb hb' _ _ hle := by
    unfold plainPow
    split
    · exact hle
    · split
      · rw [square_eq hb, square_eq hb', fle_iff]
        obtain ⟨_, hs, _, _⟩ := inUnit_facts hb
        obtain ⟨_, hs', _, hm⟩ := inUnit_facts hb'
        have hlt : ∀ n d, roundMag n d < 2 ^ 63 := fun n d => lt_of_le_of_lt (roundMag_le _ _) (by decide)
        refine ⟨isNaN_packNum_of_le _ (roundMag_le _ _), isNaN_packNum_of_le _ (roundMag_le _ _), ?_⟩
        rw [orderKey_packNum_pos (hlt _ _), orderKey_packNum_pos (hlt _ _)]
        have hk := (fle_iff.1 hle).2.2
        simp only [orderKey, hs, hs', Bool.false_eq_true, if_false] at hk
        have hu : magUnits (magBits b) ≤ magUnits (magBits b') := magUnits_mono (by omega)
        have hone : magUnits (magBits b') ≤ unitsPerOne :=
          le_trans (magUnits_mono hm) (by decide +kernel)
        have hbound : magUnits (magBits b') * magUnits (magBits b') / unitsPerOne < 2 ^ 2 ^ 13 := by
          refine lt_of_le_of_lt (Nat.div_le_div_right (Nat.mul_le_mul hone hone)) ?_
          decide +kernel
        exact_mod_cast roundMag_mono (Nat.mul_le_mul hu hu) hbound
      · decide
  monoDown b b' c hb hb' _ hc _ := by
    have h1 : c ≠ one := by rintro rfl; revert hc; decide
    have h2 : c ≠ two := by rintro rfl; revert hc; decide
    simp only [plainPow, h1, h2, if_false]
    decide

theorem wholePart_mono {a b : Num64} (h : orderKey a ≤ orderKey b) : wholePart a ≤ wholePart b :=
  Int.ediv_le_ediv unitsPerOne_pos (exactValue_mono h)

theorem wholePart_eq {a : Num64} {n : Int} (h : exactValue a = n * (unitsPerOne : Int)) : wholePart a = n := by
  unfold wholePart
  rw [h]
  exact Int.mul_ediv_cancel _ unitsPerOne_pos.ne'

/-- The whole part of a finite number is at least `n` exactly when the number is. -/
theorem le_wholePart_iff {a : Num64} {n : Int} : n ≤ wholePart a ↔ (n : ℝ) ≤ realValue a := by
  have hu : (0 : ℝ) < (unitsPerOne : ℝ) := by exact_mod_cast unitsPerOne_pos
  rw [wholePart, Int.le_ediv_iff_mul_le unitsPerOne_pos, realValue, le_div_iff₀ hu]
  norm_cast

theorem wholePart_lt_iff {a : Num64} {n : Int} : wholePart a < n ↔ realValue a < (n : ℝ) := by
  rw [← not_le, le_wholePart_iff, not_le]

/-- An exact value that is at most the largest subnormal number is below the smallest normal one. -/
theorem lt_smallest_normal {x : ℝ} (h : x ≤ (2 : ℝ) ^ (-1022 : ℤ) - (2 : ℝ) ^ (-1074 : ℤ)) :
    x < (2 : ℝ) ^ (-1022 : ℤ) := by
  have : (0 : ℝ) < (2 : ℝ) ^ (-1074 : ℤ) := by positivity
  linarith

/-- What the laws of an exponential ask of magnitude bits that follow the whole part of the argument. -/
theorem expLaws_of_mag {exact : ℝ → ℝ} {f : Num64 → Num64} {mag : Int → Nat}
    (hf : ∀ a, f a = if isNaN a then quietNaN else packNum false (mag (wholePart a)))
    (hmono : ∀ i j, i ≤ j → mag i ≤ mag j) (htop : ∀ i, 1024 ≤ i → mag i = infMag) (hle : ∀ i, mag i ≤ infMag)
    (hbot : ∀ i, i < -1022 → mag i = 0) (hzero : mag 0 = 1023 * 2 ^ 52)
    (hover : ∀ x : ℝ, (2 : ℝ) ^ 1024 ≤ exact x → ∃ n : Int, (n : ℝ) ≤ x ∧ mag n = infMag)
    (hunder : ∀ x : ℝ, exact x < (2 : ℝ) ^ (-1022 : ℤ) → ∃ n : Int, x < (n : ℝ) ∧ ∀ i < n, mag i = 0) :
    ExpLaws exact f := by
  have hlt : ∀ i, mag i < 2 ^ 63 := fun i => lt_of_le_of_lt (hle i) (by decide)
  have hnum : ∀ a, isNaN a = false → f a = packNum false (mag (wholePart a)) := fun a ha => by
    rw [hf, if_neg (by simp [ha])]
  have hkey : ∀ a, isNaN a = false → isNaN (f a) = false ∧ orderKey (f a) = mag (wholePart a) := fun a ha => by
    rw [hnum a ha]
    exact ⟨isNaN_packNum_of_le _ (hle _), orderKey_packNum_pos (hlt _)⟩
  have hone : orderKey one = 1023 * 2 ^ 52 := by decide
  have hnan : ∀ a, finite a = true → isNaN a = false := fun a h => by
    simp only [finite, isNaN, decide_eq_true_eq, decide_eq_false_iff_not] at h ⊢
    omega
  refine ⟨fun a ha => ?_, ?_, ?_, fun a ha => ?_, fun a b h => ?_, fun a ha => ?_, fun a h => ?_, fun a ha hx => ?_,
    fun a ha hx => ?_⟩
  · have hm : magBits a = 0 := by simpa [isZero] using ha
    have hz : magUnits 0 = 0 := by decide
    have hw : wholePart a = 0 := wholePart_eq (by rw [Int.zero_mul]; simp [exactValue, hm, hz])
    rw [hnum a (by simp [isNaN, hm]), hw, hzero]
    decide
  · rw [hnum _ (by decide), hbot _ (by decide +kernel)]
    decide
  · rw [hnum _ (by decide), htop _ (by decide +kernel)]
    decide
  · rw [hf, if_pos ha]
    decide
  · obtain ⟨ha, hb, hk⟩ := fle_iff.1 h
    have ea := hkey a ha
    have eb := hkey b hb
    rw [fle_iff, ea.2, eb.2]
    exact ⟨ea.1, eb.1, by exact_mod_cast hmono _ _ (wholePart_mono hk)⟩
  · rw [hnum a ha]
    exact signBit_packNum _ (hlt _)
  · obtain ⟨ha, _, hk⟩ := fle_iff.1 h
    have hz : wholePart posZero = 0 := by decide +kernel
    have hm := hmono _ _ (hz ▸ wholePart_mono hk)
    rw [fle_iff, (hkey a ha).2, hone]
    exact ⟨(hkey a ha).1, by decide, by omega⟩
  · obtain ⟨n, hn, hi⟩ := hover _ hx
    have hm := hmono _ _ (le_wholePart_iff.2 hn)
    rw [hnum a (hnan a ha), le_antisymm (hle _) (hi ▸ hm)]
    decide
  · obtain ⟨n, hn, hz⟩ := hunder _ (lt_smallest_normal hx)
    rw [hnum a (hnan a ha), hz _ (wholePart_lt_iff.2 hn)]
    decide

theorem plainExp2_laws : Exp2Laws plainExp2 where
  toExpLaws := by
    refine expLaws_of_mag (mag := fun i => if 1024 ≤ i then infMag else if i < -1022 then 0 else (i + 1023).toNat * 2 ^ 52)
      (fun a => ?_) (fun i j h => ?_) (fun i h => by simp [h]) (fun i => ?_) (fun i h => ?_) (by decide)
      (fun x h => ⟨1024, ?_, by decide⟩) (fun x h => ⟨-1022, ?_, fun i hi => ?_⟩)
    · unfold plainExp2
      have e1 : posInf = packNum false infMag := by decide
      have e0 : posZero = packNum false 0 := by decide
      rw [e1, e0]
      split <;> [rfl; (split <;> [skip; split])] <;> simp_all
    · unfold infMag
      split <;> split <;> (try split) <;> (try split) <;> omega
    · unfold infMag
      split <;> (try split) <;> omega
    · have : ¬ (1024 ≤ i) := by omega
      simp [this, h]
    · have : (2 : ℝ) ^ ((1024 : ℕ) : ℝ) ≤ (2 : ℝ) ^ x := by rw [Real.rpow_natCast]; exact h
      exact_mod_cast (Real.rpow_le_rpow_left_iff (by norm_num)).1 this
    · have : (2 : ℝ) ^ x < (2 : ℝ) ^ ((-1022 : ℤ) : ℝ) := by rw [Real.rpow_intCast]; exact h
      exact (Real.rpow_lt_rpow_left_iff (by norm_num)).1 this
    · have : ¬ (1024 ≤ i) := by omega
      simp [this, hi]
  atIntegers a n hf hv hlo hhi := by
    have hn : isNaN a = false := by
      simp only [finite, isNaN, decide_eq_true_eq, decide_eq_false_iff_not] at hf ⊢
      omega
    have h1 : ¬ (1024 ≤ n) := by omega
    have h2 : ¬ (n < -1022) := by omega
    simp [plainExp2, hn, wholePart_eq hv, h1, h2]
  vanishes a hf hv := by
    have hn : isNaN a = false := by
      simp only [finite, isNaN, decide_eq_true_eq, decide_eq_false_iff_not] at hf ⊢
      omega
    have hq : wholePart a ≤ -1154 := by
      have := Int.ediv_le_ediv unitsPerOne_pos hv
      rwa [Int.mul_ediv_cancel _ unitsPerOne_pos.ne'] at this
    have h1 : ¬ (1024 ≤ wholePart a) := by omega
    have h2 : wholePart a < -1022 := by omega
    simp [plainExp2, hn, h1, h2]

theorem plainExp_laws : ExpLaws Real.exp plainExp := by
  have h4 : Real.exp 1 < 4 := lt_trans Real.exp_one_lt_d9 (by norm_num)
  refine expLaws_of_mag (mag := fun i => if 512 ≤ i then infMag else if i < -511 then 0 else 1023 * 2 ^ 52)
    (fun a => ?_) (fun i j h => ?_) (fun i h => ?_) (fun i => ?_) (fun i h => ?_) (by decide)
    (fun x h => ⟨512, ?_, by decide⟩) (fun x h => ⟨-511, ?_, fun i hi => ?_⟩)
  · unfold plainExp
    have e1 : posInf = packNum false infMag := by decide
    have e0 : posZero = packNum false 0 := by decide
    have e2 : one = packNum false (1023 * 2 ^ 52) := by decide
    rw [e1, e0, e2]
    split <;> [rfl; (split <;> [skip; split])] <;> simp_all
  · unfold infMag
    split <;> split <;> (try split) <;> (try split) <;> omega
  · have : 512 ≤ i := by omega
    simp [this]
  · unfold infMag
    split <;> (try split) <;> omega
  · have h1 : ¬ (512 ≤ i) := by omega
    have h2 : i < -511 := by omega
    simp [h1, h2]
  · by_contra hlt
    have hlt' : x < ((512 : ℕ) : ℝ) := by
      push_cast
      rw [not_le] at hlt
      exact_mod_cast hlt
    have e1 : Real.exp x < Real.exp 1 ^ 512 := by
      rw [← Real.exp_nat_mul, mul_one]
      exact Real.exp_lt_exp.2 hlt'
    have e2 : Real.exp 1 ^ 512 ≤ (4 : ℝ) ^ 512 := pow_le_pow_left₀ (Real.exp_pos _).le h4.le _
    have e3 : (4 : ℝ) ^ 512 = 2 ^ 1024 := by
      rw [show (4 : ℝ) = 2 ^ 2 by norm_num, ← pow_mul]
    exact absurd h (not_le.2 (lt_of_lt_of_le e1 (e2.trans_eq e3)))
  · by_contra hge
    have hge' : -(511 : ℝ) ≤ x := by
      rw [not_lt] at hge
      exact_mod_cast hge
    have e1 : Real.exp (-(511 : ℝ)) ≤ Real.exp x := Real.exp_le_exp.2 hge'
    have e2 : Real.exp (-(511 : ℝ)) = (Real.exp 1 ^ 511)⁻¹ := by
      rw [Real.exp_neg, ← Real.exp_nat_mul, mul_one, Nat.cast_ofNat]
    have e3 : Real.exp 1 ^ 511 ≤ (4 : ℝ) ^ 511 := pow_le_pow_left₀ (Real.exp_pos _).le h4.le _
    have e4 : ((4 : ℝ) ^ 511)⁻¹ = (2 : ℝ) ^ (-1022 : ℤ) := by
      rw [show (4 : ℝ) = 2 ^ 2 by norm_num, ← pow_mul, show (-1022 : ℤ) = -((2 * 511 : ℕ) : ℤ) by norm_num, zpow_neg,
        zpow_natCast]
    have e5 : ((4 : ℝ) ^ 511)⁻¹ ≤ (Real.exp 1 ^ 511)⁻¹ := inv_anti₀ (pow_pos (Real.exp_pos _) _) e3
    rw [e4, ← e2] at e5
    exact absurd h (not_lt.2 (e5.trans e1))
  · have : ¬ (512 ≤ i) := by omega
    simp [this, hi]

theorem plainClip_laws : SoftclipLaws plainClip where
  mono x y mn mx hmn hmx hlt h := by
    obtain ⟨nmn, nmx, klt⟩ := flt_iff.1 hlt
    obtain ⟨nx, ny, kxy⟩ := fle_iff.1 h
    simp only [plainClip, nx, ny, Bool.false_eq_true, if_false, fle_iff, nmn, nmx, true_and]
    split <;> split <;> (try split) <;> (try split) <;> simp_all <;> omega
  range x mn mx hmn hmx hlt nx := by
    obtain ⟨nmn, nmx, klt⟩ := flt_iff.1 hlt
    simp only [plainClip, nx, Bool.false_eq_true, if_false, fle_iff, nmn, nmx, true_and]
    split <;> (try split) <;> simp_all <;> omega
  atPosInf mn mx hmn hmx hlt := by
    obtain ⟨nmn, nmx, klt⟩ := flt_iff.1 hlt
    have hi : isNaN posInf = false ∧ orderKey posInf = infMag := by decide
    have hk : orderKey mn < infMag ∧ orderKey mx < infMag := by
      simp only [finite, decide_eq_true_eq] at hmn hmx
      unfold orderKey
      constructor <;> split <;> omega
    simp only [plainClip, hi, Bool.false_eq_true, if_false, fle_iff, feq_iff, nmn, nmx, true_and]
    split <;> (try split) <;> simp_all <;> omega
  atNegInf mn mx hmn hmx hlt := by
    obtain ⟨nmn, nmx, klt⟩ := flt_iff.1 hlt
    have hi : isNaN negInf = false ∧ orderKey negInf = -infMag := by decide
    have hk : -infMag < orderKey mn := by
      simp only [finite, decide_eq_true_eq] at hmn
      unfold orderKey
      split <;> omega
    simp only [plainClip, hi, Bool.false_eq_true, if_false, fle_iff, feq_iff, nmn, nmx, true_and]
    split <;> (try split) <;> simp_all <;> omega
  centre x hx := by
    have hm : magBits x = 0 := by simpa [isZero] using hx
    have hn : isNaN x = false := by simp [isNaN, hm]
    have hk : orderKey x = 0 := by simp [orderKey, hm]
    have h1 : isNaN one = false ∧ orderKey one = 1023 * 2 ^ 52 := by decide
    have h2 : isNaN (fneg one) = false ∧ orderKey (fneg one) = -(1023 * 2 ^ 52) := by decide
    have h3 : isNaN posZero = false ∧ orderKey posZero = 0 := by decide
    have e1 : fle x (fneg one) = false := by simp [fle, hk, h2]
    have e2 : fle one x = false := by simp [fle, hk, h1]
    simp [plainClip, hn, e1, e2, feq_iff, hk, h3]
  nan x mn mx _ _ _ hx := by simp only [plainClip, hx, if_true]; decide

theorem plainFunctions_meets : plainFunctions.Meets where
  sqrt := ⟨fun _ _ => rfl, fun _ h => h⟩
  pow := plainPow_laws
  exp := plainExp_laws
  exp2 := plainExp2_laws
  alpha :=
    have range : fle posZero posZero = true ∧ fle posZero one = true := by decide
    ⟨fun _ _ _ _ _ _ => range, fun _ _ _ _ _ => rfl, fun _ _ _ _ _ _ _ _ _ => range.1⟩
  softclip := plainClip_laws

/-! ### The uninterpreted functions and the free NaN -/

/-- FREE VALUE (R124, R136, R241): the `n`-th set of functions that has the listed properties. It has no body:
nothing is known of it but `Functions.Meets`. (The argument in brackets is the proof that such functions exist.) -/
opaque openFunctions [Inhabited {f : Functions // f.Meets}] : Nat → {f : Functions // f.Meets}

/-- FREE VALUE (R126, 93_implementation_defined.md FV1): the sign and payload of the `n`-th NaN that a command
writes to `RES0` unscrubbed. -/
opaque freeNan : Nat → BitVec 53

@[reducible] def functionsExist : Inhabited {f : Functions // f.Meets} :=
  ⟨⟨plainFunctions, plainFunctions_meets⟩⟩

/-- Which functions a build holds: the spec's reference instantiation, or the `n`-th of the uninterpreted
sets. -/
inductive FunctionSet
  | reference
  | uninterpreted (n : Nat)
deriving DecidableEq, Repr

/-- The functions of a set. -/
def FunctionSet.functions : FunctionSet → Functions
  | .reference => ⟨fsqrt, refPow, refExp, refExp2, refAlpha, refSoftclip⟩
  | .uninterpreted n => (@openFunctions functionsExist n).1

theorem FunctionSet.uninterpreted_meets (n : Nat) : (FunctionSet.uninterpreted n).functions.Meets :=
  (@openFunctions functionsExist n).2

/-- Every set's `SQRT` is the correctly rounded root, so only a NaN's pattern may differ from `fsqrt`'s. -/
theorem FunctionSet.sqrt_laws : ∀ s : FunctionSet, SqrtLaws s.functions.sqrt
  | .reference => ⟨fun _ _ => rfl, fun _ h => h⟩
  | .uninterpreted n => (FunctionSet.uninterpreted_meets n).sqrt

/-! ### The build -/

/-- The waveshaper constants of R246; a list holds the entry of stage `k` at place `k`. -/
structure WsConstsOf (N : Type) where
  /-- `WS_F[0..8]`, the cutoffs in hertz. -/
  f : List N
  /-- `WS_ML[0..8]` and `WS_MH[0..8]`, the mix coefficients of the low and the high component. -/
  ml : List N
  mh : List N
  /-- `WS_GCLIP`, the clip gain. -/
  gclip : N
  /-- `WS_P`, the sigmoid blend. -/
  p : N
  /-- `WS_CMIN`, `WS_CMAX`, the bounds of the hard soft-clip. -/
  cmin : N
  cmax : N
  /-- `WS_BC[0..8]` and `WS_BL[0..8]`, the blend coefficients. -/
  bc : List N
  bl : List N
deriving DecidableEq, Repr

/-- The waveshaper constants of a build. -/
abbrev WsConsts := WsConstsOf Num64

/-- Nine finite entries, one for each stage. -/
def nineFinite (l : List Num64) : Bool := l.length == 9 && l.all finite

/-- Entry `k` of a geometric spacing from 22 to 10000: `22 · (10000/22)^(k/8)` lies between the neighbours of the entry, ends
included. The eighth powers, in units, are whole numbers, so the comparison is exact. DESIGN CHOICE: the spec gives the
spacing no tolerance for rounded entries; one unit in the last place is allowed (notes/assumptions/7.md). -/
def geometricAt (k : Nat) (f : Num64) : Bool :=
  let eighth := 22 ^ (8 - k) * 10000 ^ k * unitsPerOne ^ 8
  decide (magUnits (magBits f - 1) ^ 8 ≤ eighth ∧ eighth ≤ magUnits (magBits f + 1) ^ 8)

/-- The constraint column of R246. -/
def WsConsts.legal (w : WsConsts) : Bool :=
  nineFinite w.f && w.f.all (fle posZero) && feq (w.f.getD 0 quietNaN) 0x4036000000000000#64
    && feq (w.f.getD 8 quietNaN) 0x40C3880000000000#64
    && (List.range 9).all (fun k => geometricAt k (w.f.getD k quietNaN))
    && nineFinite w.ml && nineFinite w.mh && finite w.gclip && finite w.p && fle posZero w.p && fle w.p one
    && finite w.cmin && finite w.cmax && flt w.cmin w.cmax
    && nineFinite w.bc && nineFinite w.bl

/-- The constraints of R6 on `M = 2^L`, `D` and `NW`, and those of R246. -/
def buildLegal (L D NW : Nat) (ws : WsConsts) : Bool :=
  decide (2 ≤ L ∧ L ≤ 8) && decide (2 ≤ D ∧ D < 2 ^ 32) && decide (NW ≤ 255) && ws.legal

/-- The build parameters of one `FDNCORE`, "fixed when the hardware is built and constant afterwards" (R6). A
value carries the proof that it is legal, because "a configuration that breaks a constraint cannot be built". -/
structure Build where
  /-- `L = log2(M)`, so `M` is a power of two. -/
  L : Nat
  /-- `D`, the capacity of each delay line in samples. -/
  D : Nat
  /-- `NW`, the number of waveshaper contexts. -/
  NW : Nat
  ws : WsConsts
  fns : FunctionSet
  legal : buildLegal L D NW ws = true
deriving DecidableEq, Repr

/-- `M`, the number of delay lines. -/
def Build.M (b : Build) : Nat := 2 ^ b.L

/-- `NPH = M·M`, the number of phase-table rows. -/
def Build.NPH (b : Build) : Nat := b.M * b.M

/-- The functions of a build. -/
def Build.functions (b : Build) : Functions := b.fns.functions

/-- The numeric configuration of a build: binary64 with its functions. -/
def Build.numeric (b : Build) : NumConfig Num64 := b.functions.numeric

/-- `CFG-W0`, the reference waveshaper constants (R246). -/
def refWs : WsConsts where
  f := [0x4036000000000000#64, 0x4047A3097F19FDB9#64, 0x405965407395DB9B#64, 0x406B48F6B56A48A4#64,
    0x407D50AA4B93C764#64, 0x408F7F08B5A75260#64, 0x40A0EB793A01475F#64, 0x40B22DBF69A11941#64,
    0x40C3880000000000#64]
  ml := List.replicate 9 one
  mh := List.replicate 9 one
  gclip := one
  p := half
  cmin := 0xBFF0000000000000#64
  cmax := one
  bc := List.replicate 9 0x3FE8000000000000#64
  bl := List.replicate 9 0x3FD0000000000000#64

theorem refWs_legal : refWs.legal = true := by decide +kernel

/-- `CFG-S` of R7 with the reference numeric configuration. -/
def cfgS : Build := ⟨2, 64, 1, refWs, .reference, by decide +kernel⟩

/-- `CFG-D` of R7 with the reference numeric configuration. -/
def cfgD : Build := ⟨4, 65536, 2, refWs, .reference, by decide +kernel⟩

end Sys2Proof
end

