-- ==== Sys2Proof/Machine/State.lean ====
section
/-! DEFINITION. The state of one `FDNCORE` and of the host that drives it (10_state.md R20 to R48), the state after
reset, and the two types of stops. -/

namespace Sys2Proof.Machine

/-- The response codes of 30_encoding.md R100, the content of `RESP[7:0]`. -/
inductive RespCode
  /-- `0x00`: the command completed. -/
  | ok
  /-- `0x01`: reserved bits set, unknown opcode, or an index where none is taken. -/
  | illegalOp
  /-- `0x02`: index out of range. -/
  | badIndex
  /-- `0x03`: `READMIX` or `INJWR` while `CFGV = 0`. -/
  | notConfigured
  /-- `0x04`: the wrong phase of a frame. -/
  | seq
  /-- `0x05`: an operand register the command does not accept. -/
  | badArg
  /-- `0x06`: a staging register `UPDATE` does not accept. -/
  | badParam
deriving DecidableEq, Repr

/-- `STATUS.EST` (R25, R41); the value 3 "never occurs". -/
inductive EngineState
  /-- 0, after reset. -/
  | idle
  /-- 1, after a `READMIX`. -/
  | running
  /-- 2, after a `SUSPEND`. -/
  | suspended
deriving DecidableEq, Repr

/-- The fields of `STATUS` (R25). The word the host reads is `Status.word` (Flags.lean); its other bits read 0
and hold nothing. -/
structure Status where
  /-- `[1:0]`. -/
  est : EngineState
  /-- `[2]`, set between a `READMIX` and its `INJWR` (R42). -/
  ph : Bool
  /-- `[3]`, set once an `UPDATE` has completed. -/
  cfgv : Bool
  /-- `[8]`, sticky: a non-finite value was scrubbed. -/
  nonfin : Bool
  /-- `[9]`, sticky: a command was refused. -/
  cmderr : Bool
  /-- `[10]`, sticky: a bad host access. -/
  addrerr : Bool
deriving DecidableEq, Repr

/-- The six control values, held twice: the staging registers `P_*` (R29) and the cache registers `C_*` (R30). -/
structure Params where
  feedback : Num64
  phase : Word
  floor : Num64
  ceil : Num64
  curve : Num64
  length : Num64
deriving DecidableEq, Repr

/-- One delay line with its filter pair and its entries of the vector registers (R19), over a number format. -/
structure LineOf (N : Type) where
  /-- `XAVG[i]` (R31). -/
  xavg : N
  /-- `Z[i]` (R32). -/
  z : N
  /-- `G[i]` (R34). -/
  g : N
  /-- `PLEN[i]`, a `Nat` below `2^32` (R35). -/
  plen : Nat
  /-- `DL[i]`, newest sample first (R36). -/
  dl : List N
  /-- `FLO[i]` and `FCE[i]`, the low-pass memories of the floor and the ceiling filter (R37). -/
  flo : N
  fce : N
deriving DecidableEq, Repr

/-- A line of the bank, as the registers hold it. -/
abbrev Line := LineOf Num64

/-- A transaction of the register port (20_memory.md R60), the two labels of the step relation (00_scope.md R15). -/
inductive HostAction
  /-- `MemRead(addr, 8)`. -/
  | read (addr : Addr)
  /-- `MemWrite(addr, 8, v)`. -/
  | write (addr : Addr) (v : Word)
deriving DecidableEq, Repr

/-- The state. `build` is constant (R14); `inbox` and `replies` belong to the host agent (R13, R21); `draws` counts
the free NaN values used (R126); everything else is the tuple of R20. -/
structure State where
  /-- The build parameters; no step changes them. -/
  build : Build
  /-- `RESP` (R24). -/
  resp : RespCode
  /-- `STATUS` (R25). -/
  status : Status
  /-- `ARG0`, `ARG1`, `ARG2` (R27). -/
  arg0 : Word
  arg1 : Word
  arg2 : Word
  /-- `RES0` (R28). -/
  res0 : Word
  /-- `P_FEEDBACK` to `P_LENGTH` (R29). -/
  staged : Params
  /-- `C_FEEDBACK` to `C_LENGTH` (R30). -/
  cached : Params
  /-- The lines, `XAVG`, `Z`, `G`, `PLEN`, `DL`, `FLO`, `FCE` of line `i` at place `i`. -/
  lines : List Line
  /-- `VRES[0..M)` (R33). -/
  vres : List Word
  /-- `WS[0..NW)[0..9)` (R38). -/
  ws : List (List Num64)
  /-- The host's pending transactions, the next one first. -/
  inbox : List HostAction
  /-- What the host's reads returned, the latest first. -/
  replies : List Word
  /-- How many free NaN values the run has drawn (the model's own field). -/
  draws : Nat
deriving DecidableEq, Repr

/-- The machine's faults: NONE. "There is no fault that stops the block, no stuck state and no hang" (00_scope.md
R16), so nobody raises one. -/
inductive Fault
deriving DecidableEq, Repr

/-- The model's refusals to give an instruction a meaning. (The block's own refusals, R281, are next states with a
response code, `State.refuse`.) -/
inductive Refusal
  /-- Raised by `exec` for an instruction without a meaning, and by no other. Safe: the run stops. No arm of `exec`
  uses it. -/
  | notModelled (mnemonic : String)
deriving DecidableEq, Repr

/-- The status fields after reset: `STATUS = 0` (R45). -/
def Status.reset : Status := ⟨.idle, false, false, false, false, false⟩

/-- The control registers after reset: all zero (R45). -/
def Params.reset : Params := ⟨0#64, 0#64, 0#64, 0#64, 0#64, 0#64⟩

/-- One line after reset: zero registers, length 2, two silent samples, zero filter memories (R45, R46). -/
def Line.reset : Line := ⟨0#64, 0#64, 0#64, 2, [posZero, posZero], posZero, posZero⟩

/-- The state of a given build after reset (R45 to R48). -/
def State.resetOf (b : Build) : State where
  build := b
  resp := .ok
  status := Status.reset
  arg0 := 0#64
  arg1 := 0#64
  arg2 := 0#64
  res0 := 0#64
  staged := Params.reset
  cached := Params.reset
  lines := List.replicate b.M Line.reset
  vres := List.replicate b.M 0#64
  ws := List.replicate b.NW (List.replicate 9 posZero)
  inbox := []
  replies := []
  draws := 0

/-- The state after reset of the reference configuration `CFG-S` (00_scope.md R7). DESIGN CHOICE: which build the one
reset state of the interface has; every statement is about every build (notes/assumptions/1.md). -/
def State.reset : State := State.resetOf cfgS

end Sys2Proof.Machine
end

