-- ==== Sys2Proof/Machine/Flags.lean ====
section
/-! DEFINITION. The words of the read-only registers and the conditions the block computes: `RESP`, `STATUS` and `ID` as
the host reads them (10_state.md R24 to R26), `scrub` with its flag (40_numerics.md R146), and the operand checks of
the refusals (60_exceptions.md R285). There are no arithmetic condition codes (R43). -/

namespace Sys2Proof.Machine

/-- The code of a response (30_encoding.md R100). -/
def RespCode.code : RespCode → BitVec 8
  | .ok => 0x00#8
  | .illegalOp => 0x01#8
  | .badIndex => 0x02#8
  | .notConfigured => 0x03#8
  | .seq => 0x04#8
  | .badArg => 0x05#8
  | .badParam => 0x06#8

/-- `RESP`: the code in bits `[7:0]`, zeros above (R24). -/
def RespCode.word (c : RespCode) : Word := (0#56 ++ c.code : BitVec (56 + 8))

/-- The field `EST` (R25). -/
def EngineState.code : EngineState → BitVec 2
  | .idle => 0#2
  | .running => 1#2
  | .suspended => 2#2

/-- `STATUS` (R25): `EST` in `[1:0]`, `PH` `[2]`, `CFGV` `[3]`, zeros `[7:4]`, `NONFIN` `[8]`, `CMDERR` `[9]`, `ADDRERR`
`[10]`, zeros above. -/
def Status.word (t : Status) : Word :=
  (0#53 ++ BitVec.ofBool t.addrerr ++ BitVec.ofBool t.cmderr ++ BitVec.ofBool t.nonfin ++ 0#4
    ++ BitVec.ofBool t.cfgv ++ BitVec.ofBool t.ph ++ t.est.code : BitVec (53 + 1 + 1 + 1 + 4 + 1 + 1 + 2))

/-- `ID` (R26): `L` in `[7:0]`, `NW` in `[15:8]`, `D` in `[47:16]`, `0x0007` in `[63:48]`. -/
def idWord (b : Build) : Word :=
  (0x0007#16 ++ BitVec.ofNat 32 b.D ++ BitVec.ofNat 8 b.NW ++ BitVec.ofNat 8 b.L : BitVec (16 + 32 + 8 + 8))

/-- `scrub(v)` (R146), the value: a non-finite value becomes `+0.0`. -/
def scrub (v : Num64) : Num64 := binary64.scrub v

/-- `scrub(v)` (R146), the flag: whether it sets `STATUS.NONFIN`. -/
def scrubbed (v : Num64) : Bool := binary64.scrubbed v

/-- A sample rate that `READMIX` and `WSHAPE` accept: finite and positive (R285). -/
def rateLegal (fs : Num64) : Bool := finite fs && flt posZero fs

/-- Bounds that `SOFTCLIP` accepts: finite with `min < max` (R285). -/
def boundsLegal (mn mx : Num64) : Bool := finite mn && finite mx && flt mn mx

/-- `legal(fb, ph, fl, ce, cv, ln)` of 43_fdn_engine.md R202. -/
def paramsLegal (b : Build) (p : Params) : Bool :=
  finite p.feedback && finite p.floor && finite p.ceil && finite p.curve && finite p.length
    && decide (p.phase.nat < b.NPH) && fle posZero p.floor && fle posZero p.ceil

end Sys2Proof.Machine
end

