-- ==== Sys2Proof/Machine/Operands.lean ====
section
/-! DEFINITION. The register map (10_state.md R22): which register a word address selects, what the host reads from it,
and which registers the host may write. Commands take their operands from registers by name (30_encoding.md R91); the
only operand in the command word is the index. -/

namespace Sys2Proof.Machine

/-- The names of the register map (R22). -/
inductive Reg
  | cmd
  | resp
  | status
  | id
  | arg0
  | arg1
  | arg2
  | res0
  | pFeedback
  | pPhase
  | pFloor
  | pCeil
  | pCurve
  | pLength
  | cFeedback
  | cPhase
  | cFloor
  | cCeil
  | cCurve
  | cLength
  | xavg (i : Nat)
  | z (i : Nat)
  | vres (i : Nat)
  | g (i : Nat)
  | plen (i : Nat)
deriving DecidableEq, Repr

/-- The address column of R22. -/
def Reg.addr : Reg → Nat
  | .cmd => 0x000
  | .resp => 0x001
  | .status => 0x002
  | .id => 0x003
  | .arg0 => 0x008
  | .arg1 => 0x009
  | .arg2 => 0x00A
  | .res0 => 0x00C
  | .pFeedback => 0x010
  | .pPhase => 0x011
  | .pFloor => 0x012
  | .pCeil => 0x013
  | .pCurve => 0x014
  | .pLength => 0x015
  | .cFeedback => 0x018
  | .cPhase => 0x019
  | .cFloor => 0x01A
  | .cCeil => 0x01B
  | .cCurve => 0x01C
  | .cLength => 0x01D
  | .xavg i => 0x100 + i
  | .z i => 0x200 + i
  | .vres i => 0x300 + i
  | .g i => 0x400 + i
  | .plen i => 0x500 + i

/-- A vector register, mapped only for the lines the build has: `0x100 + i` with `M ≤ i < 256` is unmapped (R22). -/
def vectorReg (b : Build) (reg : Nat → Reg) (i : Nat) : Option Reg :=
  if i < b.M then some (reg i) else none

/-- The register at a word address; an address not listed is unmapped (R22). The upper three address bits select
the region, the lower eight the place in it. -/
def Reg.ofAddr (b : Build) (a : Addr) : Option Reg :=
  match a.toNat / 256 with
  | 0 =>
    match a.toNat % 256 with
    | 0x00 => some .cmd
    | 0x01 => some .resp
    | 0x02 => some .status
    | 0x03 => some .id
    | 0x08 => some .arg0
    | 0x09 => some .arg1
    | 0x0A => some .arg2
    | 0x0C => some .res0
    | 0x10 => some .pFeedback
    | 0x11 => some .pPhase
    | 0x12 => some .pFloor
    | 0x13 => some .pCeil
    | 0x14 => some .pCurve
    | 0x15 => some .pLength
    | 0x18 => some .cFeedback
    | 0x19 => some .cPhase
    | 0x1A => some .cFloor
    | 0x1B => some .cCeil
    | 0x1C => some .cCurve
    | 0x1D => some .cLength
    | _ => none
  | 1 => vectorReg b .xavg (a.toNat % 256)
  | 2 => vectorReg b .z (a.toNat % 256)
  | 3 => vectorReg b .vres (a.toNat % 256)
  | 4 => vectorReg b .g (a.toNat % 256)
  | 5 => vectorReg b .plen (a.toNat % 256)
  | _ => none

/-- The "host access" column of R22: the registers a host write stores to (20_memory.md R63). `CMD` is not among them:
a write to it executes a command. -/
def Reg.hostWritable : Reg → Bool
  | .arg0 | .arg1 | .arg2 | .pFeedback | .pPhase | .pFloor | .pCeil | .pCurve | .pLength | .xavg _ => true
  | .cmd | .resp | .status | .id | .res0 | .cFeedback | .cPhase | .cFloor | .cCeil | .cCurve | .cLength
  | .z _ | .vres _ | .g _ | .plen _ => false

/-- Line `i` of the bank. A run's states have every line the build has; past them the reset line stands in. -/
def State.line (s : State) (i : Nat) : Line := s.lines.getD i Line.reset

/-- `X[a]` of 00_scope.md R11: the word a register reads as. `CMD` "holds nothing" and reads 0 (R23); `RESP`, `STATUS`
and `ID` are composed from their fields; `PLEN[i]` is `wordn` of the length. -/
def State.readReg (s : State) : Reg → Word
  | .cmd => 0#64
  | .resp => s.resp.word
  | .status => s.status.word
  | .id => idWord s.build
  | .arg0 => s.arg0
  | .arg1 => s.arg1
  | .arg2 => s.arg2
  | .res0 => s.res0
  | .pFeedback => s.staged.feedback
  | .pPhase => s.staged.phase
  | .pFloor => s.staged.floor
  | .pCeil => s.staged.ceil
  | .pCurve => s.staged.curve
  | .pLength => s.staged.length
  | .cFeedback => s.cached.feedback
  | .cPhase => s.cached.phase
  | .cFloor => s.cached.floor
  | .cCeil => s.cached.ceil
  | .cCurve => s.cached.curve
  | .cLength => s.cached.length
  | .xavg i => (s.line i).xavg
  | .z i => (s.line i).z
  | .vres i => s.vres.getD i 0#64
  | .g i => (s.line i).g
  | .plen i => wordn (s.line i).plen

end Sys2Proof.Machine
end

