-- ==== Sys2Proof/Machine/Ops.lean ====
section
/-! DEFINITION. The shared operations: how a command ends (45_system.md R270), the writes a command makes, the
delay-line primitives (40_numerics.md R140 to R144) and the one-pole filter (R135) over any number format, and the host's accesses to the
register map (20_memory.md R62 to R64).

A refusal is what a processor would treat as an exception (60_exceptions.md R281): `State.refuse` is the one operation
that takes it. There is no return from it: "the block is ready for the next host action exactly as after a
completed command". -/

namespace Sys2Proof

namespace Machine

/-- The outcome of a command. -/
abbrev Result := Host.Outcome State Fault Refusal

/-! ### Writing one part of the state -/

def State.withResp (s : State) (c : RespCode) : State := { s with resp := c }
def State.withStatus (s : State) (t : Status) : State := { s with status := t }
def State.withRes0 (s : State) (v : Word) : State := { s with res0 := v }
def State.withVres (s : State) (v : List Word) : State := { s with vres := v }
def State.withLines (s : State) (l : List Line) : State := { s with lines := l }
def State.withWs (s : State) (w : List (List Num64)) : State := { s with ws := w }
def State.withStaged (s : State) (p : Params) : State := { s with staged := p }
def State.withCached (s : State) (p : Params) : State := { s with cached := p }
def State.withArg0 (s : State) (v : Word) : State := { s with arg0 := v }
def State.withArg1 (s : State) (v : Word) : State := { s with arg1 := v }
def State.withArg2 (s : State) (v : Word) : State := { s with arg2 := v }
def State.withInbox (s : State) (h : List HostAction) : State := { s with inbox := h }
def State.withReplies (s : State) (r : List Word) : State := { s with replies := r }
def State.withDraws (s : State) (n : Nat) : State := { s with draws := n }

/-! ### How a command ends (R270) -/

/-- Completion: `RESP <- OK`. -/
def State.complete (s : State) : State := s.withResp .ok

/-- Refusal with a code (R281): `RESP <- <Code>`, `STATUS.CMDERR <- 1`, "and nothing else changes". -/
def State.refuse (s : State) (c : RespCode) : State :=
  (s.withResp c).withStatus { s.status with cmderr := true }

/-- A command that is refused when a check fails: the checks of a rule stand before its first state change. -/
def refuseIf (bad : Bool) (c : RespCode) (s : State) (rest : Result) : Result :=
  if bad then .next (s.refuse c) else rest

/-! ### Writes of a command -/

/-- `STATUS.NONFIN <- 1` if a scrub of the command replaced a value; the bit is sticky (R293). -/
def State.noteNonfin (s : State) (some : Bool) : State :=
  s.withStatus { s.status with nonfin := s.status.nonfin || some }

/-- The write of `RES0` by a command that does not scrub (R126): a NaN is written as SOME NaN, its sign and payload
the next free draw; any other result as it is. -/
def State.setRes0Pure (s : State) (v : Num64) : State :=
  if isNaN v then (s.withRes0 (nanOf (freeNan s.draws))).withDraws (s.draws + 1) else s.withRes0 v

/-! ### Delay lines (R140 to R144) -/

/-- `dl_delay(i, v)`, the new sequence `[v, s[0], …, s[p−2]]`; the popped sample is `dl_out(i)`. -/
def LineOf.push {N : Type} (l : LineOf N) (v : N) : LineOf N := { l with dl := v :: l.dl.take (l.plen - 1) }

/-- `dl_fill(i, v)`: every sample becomes `v`, the length stays. -/
def LineOf.fill {N : Type} (l : LineOf N) (v : N) : LineOf N := { l with dl := List.replicate l.plen v }

end Machine

section Formulas

open Machine

variable {N : Type}

/-- `dl_out(i)`: the oldest sample `s[p−1]`. -/
def NumFormat.lineOut (A : NumFormat N) (l : LineOf N) : N := l.dl.getD (l.plen - 1) A.zero

/-- `dl_stretch(i, n)`: shrinking discards the oldest samples, growing appends `+0.0` at the old end. -/
def NumFormat.stretch (A : NumFormat N) (l : LineOf N) (n : Nat) : LineOf N :=
  { l with
    plen := n
    dl := if n < l.plen then l.dl.take n
          else if l.plen < n then l.dl ++ List.replicate (n - l.plen) A.zero
          else l.dl }

/-! ### The one-pole filter (R135) -/

/-- What one call leaves and returns: the stored state, the unscrubbed low and high components, and whether the
state was scrubbed. -/
structure OnePole (N : Type) where
  st : N
  lo : N
  hi : N
  nonfin : Bool
deriving DecidableEq, Repr

/-- `onepole(st, fc, fs, x)`: `lo = st + a * (x − st)`, `hi = x − lo`, `st <- scrub(lo)` with `a = ALPHA(fc, fs)`,
computed at every call (R136). -/
def NumConfig.onepole (f : NumConfig N) (st fc fs x : N) : OnePole N :=
  let lo := f.add st (f.mul (f.alpha fc fs) (f.sub x st))
  { st := f.scrub lo, lo := lo, hi := f.sub x lo, nonfin := f.scrubbed lo }

end Formulas

namespace Machine

/-- `dl_out(i)` of a line of the bank. -/
def LineOf.out (l : Line) : Num64 := binary64.lineOut l

/-- `dl_stretch(i, n)` of a line of the bank. -/
def LineOf.stretch (l : Line) (n : Nat) : Line := binary64.stretch l n

/-! ### The host's accesses (R62 to R64) -/

/-- `STATUS.ADDRERR <- 1`, and nothing else (R64). -/
def State.addrError (s : State) : State := s.withStatus { s.status with addrerr := true }

/-- Replace one line's `XAVG` entry. -/
def State.setXavg (s : State) (i : Nat) (v : Num64) : State :=
  s.withLines (s.lines.modify i (fun l => { l with xavg := v }))

/-- `X[a] <- v` for a host-writable register: "stores all 64 bits unchanged" (R63). -/
def State.writeReg (s : State) (v : Word) : Reg → State
  | .arg0 => s.withArg0 v
  | .arg1 => s.withArg1 v
  | .arg2 => s.withArg2 v
  | .pFeedback => s.withStaged { s.staged with feedback := v }
  | .pPhase => s.withStaged { s.staged with phase := v }
  | .pFloor => s.withStaged { s.staged with floor := v }
  | .pCeil => s.withStaged { s.staged with ceil := v }
  | .pCurve => s.withStaged { s.staged with curve := v }
  | .pLength => s.withStaged { s.staged with length := v }
  | .xavg i => s.setXavg i v
  | .cmd | .resp | .status | .id | .res0 | .cFeedback | .cPhase | .cFloor | .cCeil | .cCurve | .cLength
  | .z _ | .vres _ | .g _ | .plen _ => s

/-- `MemRead(addr, 8)` (R62): the word goes to the host's replies. A read of a mapped register changes nothing else;
a read of an unmapped address returns 0 and sets `ADDRERR`. -/
def State.hostRead (s : State) (a : Addr) : State :=
  match Reg.ofAddr s.build a with
  | some r => s.withReplies (s.readReg r :: s.replies)
  | none => s.addrError.withReplies (0#64 :: s.replies)

/-- `MemWrite(addr, 8, v)` to an address other than `CMD` (R63). -/
def State.hostStore (s : State) (a : Addr) (v : Word) : State :=
  match Reg.ofAddr s.build a with
  | some r => if r.hostWritable then s.writeReg v r else s.addrError
  | none => s.addrError

end Machine

end Sys2Proof
end

