-- ==== Sys2Proof/Machine/Matrix.lean ====
section
/-! DEFINITION. The Hadamard matrix generator and the phase table (42_matrix_phase.md R180 to R192): `HROW`, `PROW`,
`QROW`, `PHASES`. The tables are constants of the build (10_state.md R39). -/

namespace Sys2Proof

namespace Machine

/-- The kernel `[[1, 1], [−1, 1]]`, row first (R181). -/
def kernel (a b : Nat) : Int := if a = 1 ∧ b = 0 then -1 else 1

/-- The product of the kernel entries that the bits of the row and the column index select (R181). -/
def hSign (b : Build) (r c : Nat) : Int :=
  ((List.range b.L).map fun bit => kernel (r / 2 ^ bit % 2) (c / 2 ^ bit % 2)).prod

/-- The sign of `P[r][c]`, 0 where the entry is `+0.0` (R183): rows `i` and `M − 1 − i` are populated at columns `i`
and `M − 1 − i`, with the signs of the kernel. -/
def pSign (b : Build) (r c : Nat) : Int :=
  if c = r then 1
  else if c = b.M - 1 - r then (if r < b.M / 2 then 1 else -1)
  else 0

end Machine

section Formulas

open Machine

variable {N : Type} (f : NumConfig N) (b : Build)

/-- `HMAG = SQRT(1 / M)` (40_numerics.md R125). -/
def NumConfig.hmag : N := f.sqrt (f.div f.one (f.ofNat b.M))

/-- `PMAG = SQRT(0.5)`. -/
def NumConfig.pmag : N := f.sqrt f.half

/-- A number with a sign: `+v` for 1, `−v` for −1. -/
def NumFormat.signed (A : NumFormat N) (sign : Int) (v : N) : N := if sign < 0 then A.neg v else v

/-- `H[r][c]` (R181). -/
def NumConfig.hEntry (r c : Nat) : N := f.signed (hSign b r c) (f.hmag b)

/-- `P[r][c]` (R183). -/
def NumConfig.pEntry (r c : Nat) : N := if pSign b r c = 0 then f.zero else f.signed (pSign b r c) f.pmag

/-- Row `r` of `H`. -/
def NumConfig.hRow (r : Nat) : List N := (List.range b.M).map (f.hEntry b r)

/-- Row `r` of `P`. -/
def NumConfig.pRow (r : Nat) : List N := (List.range b.M).map (f.pEntry b r)

/-- Column `c` of `H`. -/
def NumConfig.hCol (c : Nat) : List N := (List.range b.M).map fun k => f.hEntry b k c

/-- `Q[r][c]`, the dense product of row `r` of `P` and column `c` of `H` (R184). -/
def NumConfig.qEntry (r c : Nat) : N := f.dot (f.pRow b r) (f.hCol b c)

/-- Row `r` of `Q`. -/
def NumConfig.qRow (r : Nat) : List N := (List.range b.M).map (f.qEntry b r)

/-- `phase(k)[i]` (R190): `+1.0` if bit `i` of `k` is 0, else `−1.0`. -/
def NumFormat.phaseEntry (A : NumFormat N) (k i : Nat) : N := if k / 2 ^ i % 2 = 0 then A.one else A.neg A.one

end Formulas

namespace Machine

/-- `QMAG = 2 * (PMAG * HMAG)` of a build (R180). -/
def qmag (b : Build) : Num64 := fmul two (fmul b.numeric.pmag (b.numeric.hmag b))

/-- `H`, `P` and `Q` of a build: their rows, and the entries of `Q`. -/
def hRow (b : Build) (r : Nat) : List Num64 := b.numeric.hRow b r
def pRow (b : Build) (r : Nat) : List Num64 := b.numeric.pRow b r
def qRow (b : Build) (r : Nat) : List Num64 := b.numeric.qRow b r
def qEntry (b : Build) (r c : Nat) : Num64 := b.numeric.qEntry b r c

/-- `phase(k)[i]` as a word. -/
def phaseEntry (k i : Nat) : Num64 := binary64.phaseEntry k i

/-- Row `k` of the phase table. -/
def phaseRow (b : Build) (k : Nat) : List Num64 := (List.range b.M).map (phaseEntry k)

/-- `PHASES k` (R192). -/
def execPhases (k : Index) (s : State) : Result :=
  refuseIf (decide (s.build.NPH ≤ k.toNat)) .badIndex s
    (.next (s.withVres (phaseRow s.build k.toNat)).complete)

/-- `HROW r` (R186). -/
def execHrow (r : Index) (s : State) : Result :=
  refuseIf (decide (s.build.M ≤ r.toNat)) .badIndex s
    (.next (s.withVres (hRow s.build r.toNat)).complete)

/-- `PROW r` (R187). -/
def execProw (r : Index) (s : State) : Result :=
  refuseIf (decide (s.build.M ≤ r.toNat)) .badIndex s
    (.next (s.withVres (pRow s.build r.toNat)).complete)

/-- `QROW r` (R188). -/
def execQrow (r : Index) (s : State) : Result :=
  refuseIf (decide (s.build.M ≤ r.toNat)) .badIndex s
    (.next (s.withVres (qRow s.build r.toNat)).complete)

end Machine

end Sys2Proof
end

