-- ==== Sys2Proof/Machine/Primes.lean ====
section
/-! DEFINITION. The prime-distribution calculator (41_primes.md R160 to R172): `PRIMES`, `CPRIME`. -/

namespace Sys2Proof.Machine

/-! ### Primality (40_numerics.md R129) -/

/-- No divisor of `n` among `d, d + 1, …` with square at most `n`; `fuel` bounds the search. -/
def noDivisorFrom (n : Nat) : Nat → Nat → Bool
  | 0, _ => true
  | fuel + 1, d =>
    if n < d * d then true else if n % d = 0 then false else noDivisorFrom n fuel (d + 1)

/-- `is_prime(n)`: `n ≥ 2` and no `d` with `2 ≤ d` and `d·d ≤ n` divides `n`. -/
def isPrime (n : Nat) : Bool := decide (2 ≤ n) && noDivisorFrom n n 2

/-- The largest prime at most `n`; 2 where there is none. -/
def primeAtMost : Nat → Nat
  | 0 => 2
  | n + 1 => if isPrime (n + 1) then n + 1 else primeAtMost n

/-- The smallest prime at least `n`, looked for among `fuel` numbers. -/
def primeAtLeast : Nat → Nat → Nat
  | 0, n => n
  | fuel + 1, n => if isPrime n then n else primeAtLeast fuel (n + 1)

end Sys2Proof.Machine

namespace Sys2Proof

/-- `PMAX`, the largest prime `≤ D` (00_scope.md R6). -/
def Build.pmax (b : Build) : Nat := Machine.primeAtMost b.D

end Sys2Proof

namespace Sys2Proof

section Formulas

open Machine

variable {N : Type}

/-! ### The nearest prime (R161) -/

/-- `cprime(x)`, with `PMAX`. The distances are compared on the exact values (40_numerics.md R130). -/
def NumFormat.cprime (A : NumFormat N) (pmax : Nat) (x : N) : Nat :=
  if !A.le A.two x then 2
  else if A.natLe pmax x then pmax
  else
    let lo := primeAtMost (A.floor x)
    let hi := primeAtLeast pmax (A.ceil x)
    if A.nearerBelow x lo hi then lo else hi

/-! ### The distribution (R164 to R166) -/

/-- The targets before normalisation, `x[i] = POW((i+1)/M, c)` (R164). -/
def NumConfig.rawTargets (f : NumConfig N) (M : Nat) (c : N) : List N :=
  (List.range M).map fun i => f.pow (f.div (f.ofNat (i + 1)) (f.ofNat M)) c

/-- The Euclidean norm, the squares summed in ascending order (R165). -/
def NumConfig.norm (f : NumConfig N) (xs : List N) : N := f.sqrt (f.sum (xs.map fun x => f.mul x x))

/-- The scaled targets, `t[i] = x[i] * (max / norm)` (R165). -/
def NumConfig.targets (f : NumConfig N) (M : Nat) (c max : N) : List N :=
  let xs := f.rawTargets M c
  let scale := f.div max (f.norm xs)
  xs.map fun x => f.mul x scale

end Formulas

end Sys2Proof

namespace Sys2Proof.Machine

/-- `cprime(x)` of a build. -/
def cprime (b : Build) (x : Num64) : Nat := binary64.cprime b.pmax x

/-- `primes_dist(c, max)` of a build (R166). -/
def primesDist (b : Build) (c max : Num64) : List Nat := (b.numeric.targets b.M c max).map (cprime b)

/-! ### The commands -/

/-- `PRIMES` (R170): curve in `ARG0`, maximum in `ARG1`, the M lengths to `VRES`. -/
def execPrimes (s : State) : Result :=
  .next (s.withVres ((primesDist s.build s.arg0 s.arg1).map wordn)).complete

/-- `CPRIME` (R172): `x` in `ARG0`, the nearest prime, a `Nat`, to `RES0`. -/
def execCprime (s : State) : Result :=
  .next (s.withRes0 (wordn (cprime s.build s.arg0))).complete

end Sys2Proof.Machine
end

