-- ==== Sys2Proof/Machine/Engine.lean ====
section
/-! DEFINITION. The FDN engine (43_fdn_engine.md R200 to R225): `UPDATE`, `READMIX`, `INJWR`, `SUSPEND`. -/

namespace Sys2Proof

/-! ### The formulas, over any number format -/

section Formulas

open Machine

variable {N : Type} (f : NumConfig N)

/-- `G[i] = phase(k)[i] * fb` (R204). -/
def NumFormat.gain (A : NumFormat N) (k : Nat) (fb : N) (i : Nat) : N := A.mul (A.phaseEntry k i) fb

/-- What the first half of `READMIX` does to one line: the line with its filters advanced, its damped sample `y[i]`,
and whether a filter state was scrubbed. -/
structure Damped (N : Type) where
  line : LineOf N
  y : N
  nonfin : Bool
deriving DecidableEq, Repr

/-- Read and damp one line (R210 to R212). The floor filter is fed the line output; if `fl ≤ ce` its high component
goes through the ceiling filter, otherwise its low component does and the high one is added. DESIGN CHOICE: R213 says, naming no
branch, that with both coefficients 0 and zero state `y[i] = 0`; that is so of the first branch, while by R212 the second gives
`y[i] = 0 + s`, and R212 is followed (notes/assumptions/25.md). -/
def NumConfig.dampLine (fl ce fs : N) (l : LineOf N) : Damped N :=
  let lower := f.onepole l.flo fl fs (f.lineOut l)
  if f.le fl ce then
    let upper := f.onepole l.fce ce fs lower.hi
    { line := { l with flo := lower.st, fce := upper.st }
      y := upper.lo
      nonfin := lower.nonfin || upper.nonfin }
  else
    let upper := f.onepole l.fce ce fs lower.lo
    { line := { l with flo := lower.st, fce := upper.st }
      y := f.add upper.lo lower.hi
      nonfin := lower.nonfin || upper.nonfin }

/-- The mixed vector before the scrub, `Q · y` (R214). -/
def NumConfig.mix (b : Build) (y : List N) : List N := (List.range b.M).map fun r => f.dot (f.qRow b r) y

/-- The lines as `READMIX` leaves them, given the damped lines: filters advanced, `Z[r] <- scrub(acc)`, delay lines
untouched. -/
def NumConfig.mixedLines (b : Build) (damped : List (Damped N)) : List (LineOf N) :=
  List.zipWith (fun m (d : Damped N) => { d.line with z := f.scrub m }) (f.mix b (damped.map (·.y))) damped

/-- The value pushed into a line by `INJWR`, before the scrub (R219): `b = (Z[i] * sep + XAVG[i]) * G[i] + raw`. -/
def NumConfig.injected (raw sep : N) (l : LineOf N) : N :=
  f.add (f.mul (f.add (f.mul l.z sep) l.xavg) l.g) raw

/-- The output sum of the popped samples, before the scrub (R220). DESIGN CHOICE: 70_reset_and_hazards.md R316 says that the first
`PLEN[0]` frames after start-up return `+0.0`; by this rule the first frames do as long as the shortest line is silent, which is
line 0 only where no line is shorter. R231, by which an impulse comes out of line `i` at frame `PLEN[i]`, and R222 say the same as
R220, and they are followed (notes/assumptions/23.md). -/
def NumConfig.poppedSum (lines : List (LineOf N)) : N := f.sum (lines.map f.lineOut)

/-- The lines as `INJWR` leaves them: every line pops its oldest sample and receives the scrubbed injection. -/
def NumConfig.injectedLines (raw sep : N) (lines : List (LineOf N)) : List (LineOf N) :=
  lines.map fun l => l.push (f.scrub (f.injected raw sep l))

/-- One line silenced by `SUSPEND` (R225): content, filter memories and `Z[i]` are `+0.0`; length, gain and `XAVG[i]`
stay. -/
def NumFormat.silence (A : NumFormat N) (l : LineOf N) : LineOf N :=
  { l.fill A.zero with flo := A.zero, fce := A.zero, z := A.zero }

end Formulas

namespace Machine

/-! ### UPDATE -/

/-- The gain vector on the lines, `G[i] <- phase(ph)[i] * fb` (R204). -/
def gainLines (b : Build) (p : Params) (lines : List Line) : List Line :=
  List.zipWith (fun i (l : Line) => { l with g := binary64.gain p.phase.nat p.feedback i }) (List.range b.M) lines

/-- The lengths on the lines, `dl_stretch(i, p[i])` with `p = primes_dist(cv, ln)` (R206). -/
def resizeLines (b : Build) (p : Params) (lines : List Line) : List Line :=
  List.zipWith (fun n l => l.stretch n) (primesDist b p.curve p.length) lines

/-- Whether the gain vector must be computed: the first `UPDATE`, or feedback or phase changed, as words (R203). -/
def gainChanged (s : State) : Bool :=
  !s.status.cfgv || s.staged.feedback != s.cached.feedback || s.staged.phase != s.cached.phase

/-- Whether the lengths must be computed: the first `UPDATE`, or curve or length changed, as words (R203). -/
def lengthChanged (s : State) : Bool :=
  !s.status.cfgv || s.staged.curve != s.cached.curve || s.staged.length != s.cached.length

/-- The lines after an accepted `UPDATE`. -/
def updatedLines (s : State) : List Line :=
  let gained := if gainChanged s then gainLines s.build s.staged s.lines else s.lines
  if lengthChanged s then resizeLines s.build s.staged gained else gained

/-- `UPDATE` (R200). The snapshot is the six staging words; copying them to the cache registers is the cutoff update
too (R205). -/
def execUpdate (s : State) : Result :=
  refuseIf s.status.ph .seq s <|
  refuseIf (!paramsLegal s.build s.staged) .badParam s <|
  .next (((s.withLines (updatedLines s)).withCached s.staged).withStatus
    { s.status with cfgv := true }).complete

/-! ### READMIX -/

/-- All lines, read and damped with the cutoffs `C_FLOOR`, `C_CEIL` and the sample rate `ARG0`. -/
def dampedLines (s : State) : List (Damped Num64) :=
  s.lines.map (s.build.numeric.dampLine s.cached.floor s.cached.ceil s.arg0)

/-- The mixed vector of a state before the scrub. -/
def mixed (s : State) : List Num64 := s.build.numeric.mix s.build ((dampedLines s).map (·.y))

/-- Whether `READMIX` scrubs a filter state or an element of `Z`. -/
def readmixScrubs (s : State) : Bool := (dampedLines s).any (·.nonfin) || (mixed s).any scrubbed

/-- The lines after `READMIX`. -/
def readmixLines (s : State) : List Line := s.build.numeric.mixedLines s.build (dampedLines s)

/-- `READMIX` (R210): sample rate in `ARG0`. -/
def execReadmix (s : State) : Result :=
  refuseIf (!s.status.cfgv) .notConfigured s <|
  refuseIf s.status.ph .seq s <|
  refuseIf (!rateLegal s.arg0) .badArg s <|
  .next ((s.withLines (readmixLines s)).withStatus
    { s.status with nonfin := s.status.nonfin || readmixScrubs s, ph := true, est := .running }).complete

/-! ### INJWR -/

/-- The value pushed into a line, before the scrub, with `raw` in `ARG0` and `sep` in `ARG1`. -/
def injected (s : State) (l : Line) : Num64 := s.build.numeric.injected s.arg0 s.arg1 l

/-- The output of a state before the scrub. -/
def poppedSum (s : State) : Num64 := s.build.numeric.poppedSum s.lines

/-- Whether `INJWR` scrubs a pushed value or the output. -/
def injwrScrubs (s : State) : Bool :=
  (s.lines.any fun l => scrubbed (injected s l)) || scrubbed (poppedSum s)

/-- The lines after `INJWR`. -/
def injwrLines (s : State) : List Line := s.build.numeric.injectedLines s.arg0 s.arg1 s.lines

/-- `INJWR` (R218): raw input in `ARG0`, stereo separation in `ARG1`, `XAVG` and `Z` on the lines. -/
def execInjwr (s : State) : Result :=
  refuseIf (!s.status.cfgv) .notConfigured s <|
  refuseIf (!s.status.ph) .seq s <|
  .next (((s.withLines (injwrLines s)).withRes0 (scrub (poppedSum s))).withStatus
    { s.status with nonfin := s.status.nonfin || injwrScrubs s, ph := false }).complete

/-! ### SUSPEND -/

/-- One line of the bank silenced. -/
def LineOf.silence (l : Line) : Line := binary64.silence l

/-- `SUSPEND` (R225), accepted in every state. -/
def execSuspend (s : State) : Result :=
  .next ((s.withLines (s.lines.map LineOf.silence)).withStatus
    { s.status with ph := false, est := .suspended }).complete

end Machine

end Sys2Proof
end

