-- ==== Sys2Proof/Machine/System.lean ====
section
/-! DEFINITION. The system command `NOP` (45_system.md R275). -/

namespace Sys2Proof.Machine

/-- `NOP`: `RESP <- OK`. -/
def execNop (s : State) : Result := .next s.complete

end Sys2Proof.Machine
end

