-- ==== Sys2Proof/Machine/Waveshaper.lean ====
section
/-! DEFINITION. The cascaded nonlinear waveshaper (44_waveshaper.md R240 to R255): `SOFTCLIP`, `X2EXP`, `SIGMOID`, `WSHAPE`,
`WSRESET`. -/

namespace Sys2Proof

section Formulas

variable {N : Type} (f : NumConfig N) (w : WsConstsOf N)

/-! ### The pure functions -/

/-- `x2exp(x) = EXP2(x * K2LN2)` (R244). -/
def NumConfig.x2exp (x : N) : N := f.exp2 (f.mul x f.k2ln2)

/-- `sigmoid(x) = WS_P * ((e − 1) / (e + 1)) + (1 − WS_P) * x` with `e = x2exp(x)` (R245). -/
def NumConfig.sigmoid (p x : N) : N :=
  let e := f.x2exp x
  f.add (f.mul p (f.div (f.sub e f.one) (f.add e f.one))) (f.mul (f.sub f.one p) x)

/-! ### The cascade -/

/-- The hard soft-clip with the build's fixed bounds. -/
def NumConfig.hardClip (x : N) : N := f.softclip x w.cmin w.cmax

/-- The signal on its way through the cascade: its value, the memories of the stages passed, and whether one of them
was scrubbed. -/
structure Signal (N : Type) where
  u : N
  mems : List N
  nonfin : Bool
deriving DecidableEq, Repr

/-- One stage (R247): split, recombine, sigmoid of the signal times the clip gain, hard soft-clip, blend with the low
component. `mem` is `WS[ctx][k]`. -/
def NumConfig.stage (fs : N) (sig : Signal N) (k : Nat) (mem : N) : Signal N :=
  let split := f.onepole mem (w.f.getD k f.zero) fs sig.u
  let v := f.add (f.mul (w.ml.getD k f.zero) split.lo) (f.mul (w.mh.getD k f.zero) split.hi)
  let s := f.hardClip w (f.sigmoid w.p (f.mul w.gclip v))
  { u := f.add (f.mul (w.bc.getD k f.zero) s) (f.mul (w.bl.getD k f.zero) split.lo)
    mems := sig.mems ++ [split.st]
    nonfin := sig.nonfin || split.nonfin }

/-- The nine stages in ascending order (R248). -/
def NumConfig.stages (fs x : N) (ctx : List N) : Signal N :=
  (List.range 9).foldl (fun sig k => f.stage w fs sig k (ctx.getD k f.zero)) ⟨x, [], false⟩

/-- The cascade's output: a final sigmoid and hard soft-clip after the stages (R248). -/
def NumConfig.finalClip (u : N) : N := f.hardClip w (f.sigmoid w.p (f.mul w.gclip u))

end Formulas

end Sys2Proof

namespace Sys2Proof.Machine

/-! ### The commands -/

/-- `x2exp` and `sigmoid` of a build. -/
def x2exp (b : Build) (x : Num64) : Num64 := b.numeric.x2exp x
def sigmoid (b : Build) (x : Num64) : Num64 := b.numeric.sigmoid b.ws.p x

/-- `SOFTCLIP` (R243): `x`, `min`, `max` in `ARG0`, `ARG1`, `ARG2`. -/
def execSoftclip (s : State) : Result :=
  refuseIf (!boundsLegal s.arg1 s.arg2) .badArg s <|
  .next (s.setRes0Pure (s.build.functions.softclip s.arg0 s.arg1 s.arg2)).complete

/-- `X2EXP` (R244): `x` in `ARG0`. -/
def execX2exp (s : State) : Result :=
  .next (s.setRes0Pure (x2exp s.build s.arg0)).complete

/-- `SIGMOID` (R245): `x` in `ARG0`. -/
def execSigmoid (s : State) : Result :=
  .next (s.setRes0Pure (sigmoid s.build s.arg0)).complete

/-- The memories of one context. -/
def State.context (s : State) (ctx : Nat) : List Num64 := s.ws.getD ctx []

/-- `WSHAPE ctx` (R250): sample rate in `ARG0`, input sample in `ARG1`. -/
def execWshape (ctx : Index) (s : State) : Result :=
  refuseIf (decide (s.build.NW ≤ ctx.toNat)) .badIndex s <|
  refuseIf (!rateLegal s.arg0) .badArg s <|
  let sig := s.build.numeric.stages s.build.ws s.arg0 s.arg1 (s.context ctx.toNat)
  let y := s.build.numeric.finalClip s.build.ws sig.u
  .next (((s.withWs (s.ws.set ctx.toNat sig.mems)).withRes0 (scrub y)).noteNonfin
    (sig.nonfin || scrubbed y)).complete

/-- `WSRESET ctx` (R255): the nine memories of one context become `+0.0`. -/
def execWsreset (ctx : Index) (s : State) : Result :=
  refuseIf (decide (s.build.NW ≤ ctx.toNat)) .badIndex s <|
  .next (s.withWs (s.ws.set ctx.toNat (List.replicate 9 posZero))).complete

end Sys2Proof.Machine
end

