-- ==== Sys2Proof/Machine/Dispatch.lean ====
section
/-! DEFINITION. The dispatch: one arm per command, each one call of its meaning. -/

namespace Sys2Proof.Machine

def exec (i : Instr) (s : State) : Host.Outcome State Fault Refusal :=
  match i with
  | .nop => Sys2Proof.Machine.execNop s
  | .update => Sys2Proof.Machine.execUpdate s
  | .readmix => Sys2Proof.Machine.execReadmix s
  | .injwr => Sys2Proof.Machine.execInjwr s
  | .suspend => Sys2Proof.Machine.execSuspend s
  | .primes => Sys2Proof.Machine.execPrimes s
  | .cprime => Sys2Proof.Machine.execCprime s
  | .phases k => Sys2Proof.Machine.execPhases k s
  | .hrow r => Sys2Proof.Machine.execHrow r s
  | .prow r => Sys2Proof.Machine.execProw r s
  | .qrow r => Sys2Proof.Machine.execQrow r s
  | .wshape ctx => Sys2Proof.Machine.execWshape ctx s
  | .wsreset ctx => Sys2Proof.Machine.execWsreset ctx s
  | .softclip => Sys2Proof.Machine.execSoftclip s
  | .x2exp => Sys2Proof.Machine.execX2exp s
  | .sigmoid => Sys2Proof.Machine.execSigmoid s

end Sys2Proof.Machine
end

