-- ==== Sys2Proof/Machine/Port.lean ====
section
/-! DEFINITION. The register port (20_memory.md R60 to R64, 45_system.md R270): one host transaction as one atomic
transition. There is no fetch (10_state.md R21): a command comes from the host's write to `CMD`. -/

namespace Sys2Proof.Machine

/-- The address of `CMD`. -/
def cmdAddr : Addr := 0x000#11

/-- `execute(w)` (R270): decode the word, run the command's rule; an undecodable word is refused with `ILLEGAL_OP`
(30_encoding.md R93, R94). -/
def command (w : Word) (s : State) : Result :=
  match decode w with
  | .ok i => exec i s
  | .error _ => .next (s.refuse .illegalOp)

/-- One host transaction (R62, R63). -/
def transact (a : HostAction) (s : State) : Result :=
  match a with
  | .read addr => .next (s.hostRead addr)
  | .write addr v => if addr = cmdAddr then command v s else .next (s.hostStore addr v)

/-- The next pending transaction of the host, if it has one. "The block never acts on its own: with no host action,
no state changes" (00_scope.md R15). -/
def takeAction (s : State) : Result :=
  match s.inbox with
  | [] => .next s
  | a :: rest => transact a (s.withInbox rest)

/-- The state whose next transaction is the host's write of a command word to `CMD`. -/
def State.stageCommand (s : State) (w : Word) : State := s.withInbox (.write cmdAddr w :: s.inbox)

end Sys2Proof.Machine
end

