-- ==== Sys2Proof/Machine/Step.lean ====
section
/-! DEFINITION. One step: the host's next transaction, whole. -/

namespace Sys2Proof.Machine

/-- One step of the machine. -/
def step (s : State) : Host.Outcome State Fault Refusal := takeAction s

/-- The state whose next step runs the instruction with the given bits: the host is about to write that word to `CMD`
(notes/assumptions/2.md). -/
def State.withFetchWord (s : State) (nbits w : Nat) : State := s.stageCommand (BitVec.ofNat 64 (w % 2 ^ nbits))

end Sys2Proof.Machine
end

