-- ==== Sys2Proof/Machine/Reals.lean ====
section
/-! DEFINITION. The real numbers as the second instance of the number format (40_numerics.md R120, R148, R150): every
operation is exact, every value is finite. The formulas of the command families, taken at this instance, are the
real-number reading in which the spec states its laws (00_scope.md R8). It cannot be executed and no step uses it. -/

namespace Sys2Proof

open Classical in
/-- The real numbers as a number format. -/
noncomputable def realFormat : NumFormat ℝ where
  zero := 0
  one := 1
  two := 2
  half := 1 / 2
  twoPi := 2 * Real.pi
  k2ln2 := 2 / Real.log 2
  add x y := x + y
  sub x y := x - y
  mul x y := x * y
  div x y := x / y
  neg x := -x
  lt x y := decide (x < y)
  le x y := decide (x ≤ y)
  finite _ := true
  ofNat n := n
  floor x := ⌊x⌋₊
  ceil x := ⌈x⌉₊
  natLe n x := decide ((n : ℝ) ≤ x)
  nearerBelow x lo hi := decide (x - lo ≤ hi - x)

/-- The numeric configuration that a set of real functions gives. -/
noncomputable def FunctionsOf.overReals (f : FunctionsOf ℝ) : NumConfig ℝ := ⟨realFormat, f⟩

/-- The reference instantiation over the reals: the exact functions, and the formulas of R136 and 44_waveshaper.md R242. -/
noncomputable def realFunctions : FunctionsOf ℝ where
  sqrt := Real.sqrt
  pow b c := b ^ c
  exp := Real.exp
  exp2 := exactExp2
  alpha := realFormat.alphaFormula Real.exp
  softclip := realFormat.clipFormula Real.exp

/-- The contract of `SOFTCLIP(x, min, max)` (44_waveshaper.md R241) over the reals, S1 to S5; S6 speaks of NaN, which the
reals do not have. -/
structure RealClipLaws (clip : ℝ → ℝ → ℝ → ℝ) : Prop where
  /-- S1 and S3: continuous and continuously differentiable in `x`. -/
  smooth : ∀ mn mx, mn < mx → ContDiff ℝ 1 fun x => clip x mn mx
  /-- S2: monotone nondecreasing in `x`. -/
  mono : ∀ mn mx, mn < mx → Monotone fun x => clip x mn mx
  /-- S4: between `min` and `max`, and these are the limits. -/
  range : ∀ x mn mx, mn < mx → mn ≤ clip x mn mx ∧ clip x mn mx ≤ mx
  atTop : ∀ mn mx, mn < mx → Filter.Tendsto (fun x => clip x mn mx) Filter.atTop (nhds mx)
  atBot : ∀ mn mx, mn < mx → Filter.Tendsto (fun x => clip x mn mx) Filter.atBot (nhds mn)
  /-- S5: `SOFTCLIP(0, −1, 1) = 0`. -/
  centre : clip 0 (-1) 1 = 0

end Sys2Proof
end

