-- ==== Sys2Proof/Machine/RingBuffer.lean ====
section
/-! DEFINITION. The ring-buffer realisation of one delay line (20_memory.md R70). It is informative: the machine holds the
abstract sequence of 10_state.md R36, and the ring buffer is stated to realise it. -/

namespace Sys2Proof.Machine

/-- `D` slots, a write index and the active length. -/
structure RingBuffer where
  buf : List Num64
  w : Nat
  p : Nat
deriving DecidableEq, Repr

/-- The number of slots. -/
def RingBuffer.D (r : RingBuffer) : Nat := r.buf.length

/-- A legal ring: `w` in `[0, D)` and `1 ≤ p ≤ D`. -/
def RingBuffer.wf (r : RingBuffer) : Bool := decide (r.w < r.D ∧ 1 ≤ r.p ∧ r.p ≤ r.D)

/-- The slot of the abstract element `s[j]`: `(w − 1 − j) mod D`. -/
def RingBuffer.slot (r : RingBuffer) (j : Nat) : Nat := (r.w + r.D - 1 - j) % r.D

/-- The abstract sequence, newest first. -/
def RingBuffer.samples (r : RingBuffer) : List Num64 := (List.range r.p).map fun j => r.buf.getD (r.slot j) posZero

/-- `dl_out`: slot `(w − p) mod D`. -/
def RingBuffer.out (r : RingBuffer) : Num64 := r.buf.getD ((r.w + r.D - r.p) % r.D) posZero

/-- `dl_delay`: write at `w`, then `w <- (w + 1) mod D`. -/
def RingBuffer.push (r : RingBuffer) (v : Num64) : RingBuffer := { r with buf := r.buf.set r.w v, w := (r.w + 1) % r.D }

/-- Write `v` to the slots of `s[j]` for `j` from `first`, `count` of them. -/
def RingBuffer.writeFrom (r : RingBuffer) (v : Num64) (first : Nat) : Nat → RingBuffer
  | 0 => r
  | count + 1 =>
    let before := r.writeFrom v first count
    { before with buf := before.buf.set (r.slot (first + count)) v }

/-- `dl_stretch`: growth first writes `+0.0` to the newly exposed slots. -/
def RingBuffer.stretch (r : RingBuffer) (n : Nat) : RingBuffer :=
  if r.p < n then { r.writeFrom posZero r.p (n - r.p) with p := n } else { r with p := n }

/-- `dl_fill`: write `v` to the active slots. -/
def RingBuffer.fill (r : RingBuffer) (v : Num64) : RingBuffer := r.writeFrom v 0 r.p

end Sys2Proof.Machine
end

