-- ==== Sys2Proof/Safety.lean ====
section
/-! DEFINITION. What counts as a good state and a safe run: the invariants of 10_state.md R44 and R41, the table of refusals
of 60_exceptions.md R285 and R288 written out from the spec's own conditions, and the terms the statements share. -/

namespace Sys2Proof.Machine

/-! ### The invariants of R44 -/

/-- The register files have one entry for each line and the contexts nine memories each (R20). -/
def State.Shaped (s : State) : Prop :=
  s.lines.length = s.build.M ∧ s.vres.length = s.build.M ∧ s.ws.length = s.build.NW ∧
    ∀ c ∈ s.ws, c.length = 9

/-- R44 (a): every element of every `DL[i]`, every `FLO[i]`, `FCE[i]`, `WS[ctx][k]` and `Z[i]` is finite. -/
def State.FiniteContent (s : State) : Prop :=
  (∀ l ∈ s.lines, finite l.flo = true ∧ finite l.fce = true ∧ finite l.z = true ∧ ∀ x ∈ l.dl, finite x = true) ∧
    ∀ c ∈ s.ws, ∀ x ∈ c, finite x = true

/-- R44 (b): `PLEN[i]` is prime, `2 ≤ PLEN[i] ≤ PMAX`, and `DL[i]` has exactly `PLEN[i]` elements. -/
def State.LegalLengths (s : State) : Prop :=
  ∀ l ∈ s.lines, Nat.Prime l.plen ∧ 2 ≤ l.plen ∧ l.plen ≤ s.build.pmax ∧ l.dl.length = l.plen

/-- R44 (c): `PH = 1` implies `CFGV = 1` and `EST = 1`. -/
def State.FrameConsistent (s : State) : Prop :=
  s.status.ph = true → s.status.cfgv = true ∧ s.status.est = .running

/-- R44 (d): once configured, `G` and `PLEN` are what the cache registers give, and the cache is legal. -/
def State.ConfiguredConsistent (s : State) : Prop :=
  s.status.cfgv = true →
    s.lines.map (·.g) = (List.range s.build.M).map (fun i => fmul (phaseEntry s.cached.phase.nat i) s.cached.feedback) ∧
    s.lines.map (·.plen) = primesDist s.build s.cached.curve s.cached.length ∧
    s.cached.phase.nat < s.build.M * s.build.M ∧
    finite s.cached.feedback = true ∧ finite s.cached.floor = true ∧ finite s.cached.ceil = true ∧
    finite s.cached.curve = true ∧ finite s.cached.length = true ∧
    fle posZero s.cached.floor = true ∧ fle posZero s.cached.ceil = true

/-- R44 (e): before the first `UPDATE`, the placeholders of reset stand. -/
def State.UnconfiguredConsistent (s : State) : Prop :=
  s.status.cfgv = false →
    (∀ l ∈ s.lines, l.g = posZero ∧ l.plen = 2 ∧ l.dl = [posZero, posZero]) ∧
    s.status.ph = false ∧ s.status.est ≠ .running

/-- The invariant of R44 (a) to (e), with the shape of the register files. R44 (f) holds of every state, because
`RESP` and `STATUS` are composed from their fields. -/
structure State.Inv (s : State) : Prop where
  shaped : s.Shaped
  content : s.FiniteContent
  lengths : s.LegalLengths
  frame : s.FrameConsistent
  configured : s.ConfiguredConsistent
  unconfigured : s.UnconfiguredConsistent

/-- R41: in Idle and in Suspended every `DL[i]` element, every `FLO[i]`, `FCE[i]` and `Z[i]` is `+0.0` and
`PH = 0`. -/
def State.QuietUnlessRunning (s : State) : Prop :=
  s.status.est ≠ .running →
    (∀ l ∈ s.lines, l.flo = posZero ∧ l.fce = posZero ∧ l.z = posZero ∧ ∀ x ∈ l.dl, x = posZero) ∧
    s.status.ph = false

/-- Silence up to the sign of a zero (43_fdn_engine.md R230): every delay-line element and every damping memory is
`±0.0`. -/
def State.Silent (s : State) : Prop :=
  ∀ l ∈ s.lines, isZero l.flo = true ∧ isZero l.fce = true ∧ ∀ x ∈ l.dl, isZero x = true

/-- The outputs of whole frames `FRAME fs, raw, sep` (30_encoding.md R111), one for each: `READMIX` with `fs` in `ARG0`, then
`INJWR` with `raw` in `ARG0` and `sep` in `ARG1`, then `RES0`. -/
def State.frameOutputs (s : State) : List (Num64 × Num64 × Num64) → List Num64
  | [] => []
  | (fs, raw, sep) :: rest =>
    match exec .readmix { s with arg0 := fs } with
    | .next t =>
      match exec .injwr { t with arg0 := raw, arg1 := sep } with
      | .next v => v.res0 :: v.frameOutputs rest
      | _ => []
    | _ => []

/-! ### The refusals, from the spec's table -/

/-- The sixteen opcodes of 30_encoding.md R93. -/
def opcodes : List (BitVec 8) :=
  [0x00, 0x01, 0x02, 0x03, 0x04, 0x10, 0x11, 0x12, 0x13, 0x14, 0x15, 0x20, 0x21, 0x22, 0x23, 0x24]

/-- The opcodes that take no index. -/
def opcodesWithoutIndex : List (BitVec 8) := [0x00, 0x01, 0x02, 0x03, 0x04, 0x10, 0x11, 0x22, 0x23, 0x24]

/-- "a NaN, an infinity, zero or negative" (R285). -/
def badRate (fs : Num64) : Bool := isNaN fs || isInf fs || isZero fs || signBit fs

/-- "`num(ARG1)` or `num(ARG2)` not finite, or `num(ARG1) ≥ num(ARG2)`" (R285). -/
def badBounds (mn mx : Num64) : Bool := !finite mn || !finite mx || fle mx mn

/-- "a non-finite `P_FEEDBACK`, `P_FLOOR`, `P_CEIL`, `P_CURVE` or `P_LENGTH`; `nat(P_PHASE) ≥ M·M`;
`num(P_FLOOR) < 0`; `num(P_CEIL) < 0`" (R285). -/
def badParams (b : Build) (p : Params) : Bool :=
  !finite p.feedback || !finite p.floor || !finite p.ceil || !finite p.curve || !finite p.length
    || decide (b.M * b.M ≤ p.phase.nat) || flt p.floor posZero || flt p.ceil posZero

/-- The code with which a command word is refused in a state, by the causes of R285 in the order of R288; `none` where
the command completes. -/
def refusalOf (s : State) (w : Word) : Option RespCode :=
  let op := opField w
  let idx := (idxField w).toNat
  if rsvField w ≠ 0#40 ∨ op ∉ opcodes ∨ (op ∈ opcodesWithoutIndex ∧ idx ≠ 0) then some .illegalOp
  else if (op = 0x12#8 ∧ s.build.M * s.build.M ≤ idx) ∨ (op ∈ [0x13#8, 0x14#8, 0x15#8] ∧ s.build.M ≤ idx) ∨
      (op ∈ [0x20#8, 0x21#8] ∧ s.build.NW ≤ idx) then some .badIndex
  else if op ∈ [0x02#8, 0x03#8] ∧ s.status.cfgv = false then some .notConfigured
  else if (op ∈ [0x01#8, 0x02#8] ∧ s.status.ph = true) ∨ (op = 0x03#8 ∧ s.status.ph = false) then some .seq
  else if (op ∈ [0x02#8, 0x20#8] ∧ badRate s.arg0 = true) ∨ (op = 0x22#8 ∧ badBounds s.arg1 s.arg2 = true) then
    some .badArg
  else if op = 0x01#8 ∧ badParams s.build s.staged = true then some .badParam
  else none

/-! ### Terms the statements share -/

/-- The reset value column of 10_state.md R22. -/
def resetValue (b : Build) : Reg → Word
  | .id => idWord b
  | .plen _ => 2#64
  | _ => 0#64

/-- The register map of 10_state.md R22 as the host reads it, written out: each mapped address with the content of its
register. `RESP`, `STATUS` and `ID` are composed words. -/
def registerWords (s : State) : List (Nat × Word) :=
  [(0x000, 0#64), (0x001, s.readReg .resp), (0x002, s.readReg .status), (0x003, s.readReg .id),
   (0x008, s.arg0), (0x009, s.arg1), (0x00A, s.arg2), (0x00C, s.res0),
   (0x010, s.staged.feedback), (0x011, s.staged.phase), (0x012, s.staged.floor), (0x013, s.staged.ceil),
   (0x014, s.staged.curve), (0x015, s.staged.length),
   (0x018, s.cached.feedback), (0x019, s.cached.phase), (0x01A, s.cached.floor), (0x01B, s.cached.ceil),
   (0x01C, s.cached.curve), (0x01D, s.cached.length)] ++
  (List.range s.build.M).flatMap fun i =>
    let l := s.lines.getD i Line.reset
    [(0x100 + i, l.xavg), (0x200 + i, l.z), (0x300 + i, s.vres.getD i 0#64), (0x400 + i, l.g),
     (0x500 + i, BitVec.ofNat 64 l.plen)]

/-- The host-writable registers of 20_memory.md R63 (`ARG0..ARG2`, `P_FEEDBACK..P_LENGTH`, `XAVG[i]` with `i < M`), written
out: each address with the state after the store of `v` there. -/
def hostStores (s : State) (v : Word) : List (Nat × State) :=
  [(0x008, { s with arg0 := v }), (0x009, { s with arg1 := v }), (0x00A, { s with arg2 := v }),
   (0x010, { s with staged := { s.staged with feedback := v } }), (0x011, { s with staged := { s.staged with phase := v } }),
   (0x012, { s with staged := { s.staged with floor := v } }), (0x013, { s with staged := { s.staged with ceil := v } }),
   (0x014, { s with staged := { s.staged with curve := v } }),
   (0x015, { s with staged := { s.staged with length := v } })] ++
  (List.range s.build.M).map fun i =>
    (0x100 + i, { s with lines := s.lines.modify i fun l => { l with xavg := v } })

/-- What is left of a state when the fields that no rule reads are blanked: `EST` and the three sticky bits (R41,
R293). -/
def State.withoutReports (s : State) : State :=
  s.withStatus { s.status with est := .idle, nonfin := false, cmderr := false, addrerr := false }

/-- The sign of `Q[r][c]` times 2, the product of the sign matrices of `P` and `H` (42_matrix_phase.md R184): 2, 0 or
−2, in units of half of `QMAG`. -/
def qSign (b : Build) (r c : Nat) : Int := ((List.range b.M).map fun k => pSign b r k * hSign b k c).sum

/-- Half a unit in the last place above the largest finite number, in units `2^-1074`: from here on an exact value rounds to
the infinity (40_numerics.md R121). -/
def overflowUnits : Int := 2 ^ 2098 - 2 ^ 2044

/-- `popcount(n)` of 00_scope.md R9, for `n < M`. -/
def popcount (b : Build) (n : Nat) : Nat := (List.range b.L).countP fun i => n.testBit i

/-- `~_L(n)` of 00_scope.md R9: `M − 1 − n`. -/
def complement (b : Build) (n : Nat) : Nat := b.M - 1 - n

end Sys2Proof.Machine
end

