-- ==== Sys2Proof/WellFormed.lean ====
section
/-! DEFINITION. The index ranges of 30_encoding.md R93: a command is well formed for a build when its index selects a
row, a phase or a context that the build has. An ill-formed command is a legal encoding that the block refuses
with `BAD_INDEX`. -/

namespace Sys2Proof

/-- The bound below which the index of a command must lie (R93), for the commands that take one. -/
def Instr.indexBound (b : Build) : Instr → Option Nat
  | .phases _ => some b.NPH
  | .hrow _ | .prow _ | .qrow _ => some b.M
  | .wshape _ | .wsreset _ => some b.NW
  | .nop | .update | .readmix | .injwr | .suspend | .primes | .cprime | .softclip | .x2exp | .sigmoid => none

/-- The index of a command, 0 where it takes none. -/
def Instr.index : Instr → Index
  | .phases i | .hrow i | .prow i | .qrow i | .wshape i | .wsreset i => i
  | .nop | .update | .readmix | .injwr | .suspend | .primes | .cprime | .softclip | .x2exp | .sigmoid => 0#16

/-- The index is in range (R93). -/
def Instr.wellFormed (b : Build) (i : Instr) : Bool :=
  match i.indexBound b with
  | some bound => decide (i.index.toNat < bound)
  | none => true

end Sys2Proof
end

