-- ==== Sys2Proof/Certificates/Slice0/Obligations.lean ====
section
/-! DEFINITION. The statements about the model, for the provers. `inbox`, `replies` and `draws` are the model's own fields
(notes/assumptions/2.md and 4.md): a statement that mentions one says so. -/

open Sys2Proof Sys2Proof.Machine

/-! ### Reset -/

/-- 10_state.md R45: every mapped register of every build reads its reset value: zero, but `PLEN[i] = 2` and `ID`. -/
def Obligations.ResetRegistersReadResetValues : Prop :=
  ∀ (b : Build) (a : Addr) (r : Reg), Reg.ofAddr b a = some r →
    (State.resetOf b).readReg r = resetValue b r

/-- R46: the internal memory of every build is silent after reset, with the length that `cprime` returns below 2. -/
def Obligations.ResetMemoryIsSilent : Prop :=
  ∀ b : Build,
    (State.resetOf b).lines.length = b.M ∧
    (∀ l ∈ (State.resetOf b).lines, l.plen = 2 ∧ l.dl = [posZero, posZero] ∧ l.flo = posZero ∧ l.fce = posZero) ∧
    (State.resetOf b).ws.length = b.NW ∧
    (∀ c ∈ (State.resetOf b).ws, c = List.replicate 9 posZero) ∧
    (∀ x, flt x two = true → cprime b x = 2) ∧
    (State.resetOf b).LegalLengths

/-- The invariants of R44 (a) to (e) and of R41 hold after reset of every build. -/
def Obligations.ResetMeetsInvariants : Prop :=
  ∀ b : Build, (State.resetOf b).Inv ∧ (State.resetOf b).QuietUnlessRunning

/-! ### The step -/

/-- A step runs the decoded command: when the host's next transaction writes a word to `CMD` (address 0), the step is
`exec` of the decoded command at the state with that transaction taken, and an undecodable word is refused with
`ILLEGAL_OP` (45_system.md R270); with no host action, no state changes (00_scope.md R15). `inbox` is the model's own field
(notes/assumptions/2.md). -/
def Obligations.StepRunsTheCommandWritten : Prop :=
  (∀ (s : State) (w : Word) (rest : List HostAction), s.inbox = .write 0#11 w :: rest →
    (∀ i, decode w = .ok i → step s = exec i { s with inbox := rest }) ∧
    (∀ e, decode w = .error e →
      step s = .next { s with inbox := rest, resp := .illegalOp, status := { s.status with cmderr := true } })) ∧
  (∀ s : State, s.inbox = [] → step s = .next s)

/-- R16: every step answers a next state; a command either completes with `OK` or changes `RESP` and `CMDERR` only; and
the build parameters are constant (R6, R14). -/
def Obligations.EveryStepHasANextState : Prop :=
  (∀ s : State, ∃ t, step s = .next t ∧ t.build = s.build) ∧
  (∀ (s : State) (w : Word), ∃ t, command w s = .next t ∧
    (t.resp = .ok ∨ (t.resp ≠ .ok ∧ t = { s with resp := t.resp, status := { s.status with cmderr := true } })))

/-- 20_memory.md R62 with the map of 10_state.md R22, written out in `registerWords`: a read of a mapped address returns the
content of the register there (0 for `CMD`) and changes nothing; a read of an unmapped address returns 0 and sets `ADDRERR`. The
last clause ties the model's own map and reading function to the table. `inbox` and `replies`, the host's pending transactions
and what its reads returned, are the model's own fields (notes/assumptions/2.md). -/
def Obligations.HostReadFollowsTheMap : Prop :=
  ∀ (s : State) (a : Addr) (rest : List HostAction), s.inbox = .read a :: rest →
    (∀ w, (a.toNat, w) ∈ registerWords s → step s = .next { s with inbox := rest, replies := w :: s.replies }) ∧
    (a.toNat ∉ (registerWords s).map (·.1) →
      step s = .next { s with
        inbox := rest, replies := 0#64 :: s.replies, status := { s.status with addrerr := true } }) ∧
    match Reg.ofAddr s.build a with
    | some r => (a.toNat, s.readReg r) ∈ registerWords s
    | none => a.toNat ∉ (registerWords s).map (·.1)

/-- R63: a write to `CMD` executes the command; a write to one of the registers R63 lists, written out with their addresses and
fields in `hostStores`, stores all 64 bits there and changes nothing else; any other write only sets `ADDRERR`. The last two
clauses say the same through the model's own map and reading function. `inbox`, `replies` and `draws` are the model's own fields
(notes/assumptions/2.md, 4.md). -/
def Obligations.HostWriteFollowsTheMap : Prop :=
  ∀ (s : State) (a : Addr) (v : Word) (rest : List HostAction), s.inbox = .write a v :: rest →
    (a = 0#11 → step s = command v { s with inbox := rest }) ∧
    (∀ t, (a.toNat, t) ∈ hostStores { s with inbox := rest } v → step s = .next t) ∧
    (a ≠ 0#11 → a.toNat ∉ (hostStores s v).map (·.1) →
      step s = .next { s with inbox := rest, status := { s.status with addrerr := true } }) ∧
    (∀ r, Reg.ofAddr s.build a = some r → (r.hostWritable = true ↔ a.toNat ∈ (hostStores s v).map (·.1))) ∧
    (∀ r, s.lines.length = s.build.M → Reg.ofAddr s.build a = some r → r.hostWritable = true →
      ∃ t, step s = .next t ∧ t.readReg r = v ∧
        (∀ a' r', Reg.ofAddr s.build a' = some r' → r' ≠ r → t.readReg r' = s.readReg r') ∧
        t.lines.map (fun l => (l.dl, l.flo, l.fce)) = s.lines.map (fun l => (l.dl, l.flo, l.fce)) ∧
        t.ws = s.ws ∧ t.build = s.build ∧ t.inbox = rest ∧ t.replies = s.replies ∧ t.draws = s.draws)

/-! ### The registers the host reads -/

/-- The address column of 10_state.md R22: each register is found at the address the rule gives it and nowhere else, the
vector registers exist exactly below `M`, and everything from `0x600` up is unmapped. -/
def Obligations.RegisterMapMatchesAddresses : Prop :=
  ∀ b : Build,
    (∀ a r, Reg.ofAddr b a = some r → r.addr = a.toNat) ∧
    (∀ e ∈ [(Reg.cmd, 0x000), (.resp, 0x001), (.status, 0x002), (.id, 0x003), (.arg0, 0x008), (.arg1, 0x009),
        (.arg2, 0x00A), (.res0, 0x00C), (.pFeedback, 0x010), (.pPhase, 0x011), (.pFloor, 0x012), (.pCeil, 0x013),
        (.pCurve, 0x014), (.pLength, 0x015), (.cFeedback, 0x018), (.cPhase, 0x019), (.cFloor, 0x01A), (.cCeil, 0x01B),
        (.cCurve, 0x01C), (.cLength, 0x01D)],
      e.1.addr = e.2 ∧ Reg.ofAddr b (BitVec.ofNat 11 e.2) = some e.1) ∧
    (∀ e ∈ [(Reg.xavg, 0x100), (.z, 0x200), (.vres, 0x300), (.g, 0x400), (.plen, 0x500)], ∀ i < 256,
      (e.1 i).addr = e.2 + i ∧ Reg.ofAddr b (BitVec.ofNat 11 (e.2 + i)) = if i < b.M then some (e.1 i) else none) ∧
    (∀ a : Addr, 0x600 ≤ a.toNat → Reg.ofAddr b a = none)

/-- The layout of `STATUS` (R25) and of `RESP` (R24): the fields at their bits, every other bit 0, so R44 (f) holds of
every state. -/
def Obligations.StatusAndRespLayout : Prop :=
  ∀ s : State,
    (s.readReg .status).toNat =
      (match s.status.est with | .idle => 0 | .running => 1 | .suspended => 2) + (if s.status.ph then 4 else 0) +
      (if s.status.cfgv then 8 else 0) + (if s.status.nonfin then 256 else 0) + (if s.status.cmderr then 512 else 0) +
      (if s.status.addrerr then 1024 else 0) ∧
    (s.readReg .resp).toNat =
      (match s.resp with
        | .ok => 0 | .illegalOp => 1 | .badIndex => 2 | .notConfigured => 3 | .seq => 4 | .badArg => 5 | .badParam => 6)

/-- R26: the fields of `ID`. -/
def Obligations.IdFields : Prop :=
  ∀ s : State,
    (s.readReg .id).toNat % 2 ^ 8 = s.build.L ∧ 2 ^ s.build.L = s.build.M ∧
    (s.readReg .id).toNat / 2 ^ 8 % 2 ^ 8 = s.build.NW ∧
    (s.readReg .id).toNat / 2 ^ 16 % 2 ^ 32 = s.build.D ∧
    (s.readReg .id).toNat / 2 ^ 48 = 0x0007

/-! ### The command word -/

/-- Command words of 95_test_vectors.md V60, written out from R90 and R92. -/
def Obligations.SpecWordsDecode : Prop :=
  decode 0x0000000000000000#64 = .ok .nop ∧ decode 0x0000000000000002#64 = .ok .readmix ∧
  decode 0x0000000000000313#64 = .ok (.hrow 3#16) ∧ decode 0x0000000000001012#64 = .ok (.phases 16#16) ∧
  decode 0x0000000000000120#64 = .ok (.wshape 1#16) ∧ decode 0x0000000000000024#64 = .ok .sigmoid ∧
  decode 0x0000000000000100#64 = .error .strayIndex ∧ decode 0x0000000000000005#64 = .error .unknownOpcode ∧
  decode 0x0000000001000013#64 = .error .reservedBits

/-- Decoding the encoding of a command gives the command back, for every command and every index. -/
def Obligations.DecodeOfEncode : Prop := ∀ i : Instr, decode (encode i) = .ok i

/-- Every accepted word is the encoding of the command it decodes to, so no two words mean the same command. -/
def Obligations.AcceptedWordsAreEncodings : Prop := ∀ (w : Word) (i : Instr), decode w = .ok i → encode i = w

/-- The opcode map of R92: a word decodes to a command of a row exactly when the row's mask and match select it, with
`w[23:8]` as the index. -/
def Obligations.DecodingFollowsTheOpcodeMap : Prop :=
  ∀ w : Word,
    (∀ i, decode w = .ok i →
      ∃ row ∈ opcodeRows, row.1 = i.mnemonic ∧ w &&& row.2.2 = row.2.1) ∧
    (∀ row ∈ opcodeRows, w &&& row.2.2 = row.2.1 →
      ∃ i, decode w = .ok i ∧ i.mnemonic = row.1 ∧ i.index = idxField w)

/-- R94: a word is illegal exactly for a non-zero reserved field, an opcode outside the sixteen, or an index on an opcode
that takes none; it is then refused with `ILLEGAL_OP`, changing nothing else, and a word that decodes is never answered with that
code. The zero word is `NOP`. -/
def Obligations.IllegalWordsAreRefused : Prop :=
  (∀ w : Word,
    ((∃ e, decode w = .error e) ↔
      (rsvField w ≠ 0#40 ∨ opField w ∉ opcodes ∨ (opField w ∈ opcodesWithoutIndex ∧ idxField w ≠ 0#16))) ∧
    ((∃ e, decode w = .error e) → ∀ s : State,
      command w s = .next { s with resp := .illegalOp, status := { s.status with cmderr := true } }) ∧
    (∀ i, decode w = .ok i → ∀ s : State, ∃ t, command w s = .next t ∧ t.resp ≠ .illegalOp)) ∧
  decode 0#64 = .ok .nop

/-- 60_exceptions.md R281, R285 and R288: every command word on every state is refused with exactly the code of the cause
table, first cause in the priority order, and then nothing but `RESP` and `CMDERR` changes; with no cause it completes. -/
def Obligations.RefusalsFollowTheCauseTable : Prop :=
  ∀ (s : State) (w : Word),
    match refusalOf s w with
    | some c => command w s = .next { s with resp := c, status := { s.status with cmderr := true } }
    | none => ∃ t, command w s = .next t ∧ t.resp = .ok ∧ t.status.cmderr = s.status.cmderr

/-! ### NOP and SUSPEND -/

/-- 45_system.md R275: `NOP` writes `RESP` and nothing else in every state; its only word is the zero word. -/
def Obligations.NopOnlyAcknowledges : Prop :=
  (∀ s : State, exec .nop s = .next { s with resp := .ok }) ∧ decode 0#64 = .ok .nop ∧
  (∀ (s : State) (w : Word), opField w = 0#8 → w ≠ 0#64 →
    command w s = .next { s with resp := .illegalOp, status := { s.status with cmderr := true } })

/-- 43_fdn_engine.md R225: `SUSPEND` is accepted in every state, silences lines, filters and `Z`, clears `PH`, sets `EST`
to Suspended and changes nothing else. -/
def Obligations.SuspendSilences : Prop :=
  (∀ s : State, exec .suspend s = .next { s with
    resp := .ok
    status := { s.status with ph := false, est := .suspended }
    lines := s.lines.map fun l =>
      { l with dl := List.replicate l.plen posZero, flo := posZero, fce := posZero, z := posZero } }) ∧
  decode 0x04#64 = .ok .suspend

/-! ### The calculators and the tables -/

/-- 41_primes.md R172: `CPRIME` writes the nearest prime of `ARG0` to `RES0`: 2 below 2 and for a NaN, `PMAX` from `PMAX`
up, the smaller of two neighbouring primes at a tie, and itself for a prime. -/
def Obligations.CprimeWritesNearestPrime : Prop :=
  ∀ s : State,
    exec .cprime s = .next { s with resp := .ok, res0 := wordn (cprime s.build s.arg0) } ∧
    decode 0x11#64 = .ok .cprime ∧
    (fle two s.arg0 = false → cprime s.build s.arg0 = 2) ∧
    (fle two s.arg0 = true → (s.build.pmax * unitsPerOne : Int) ≤ exactValue s.arg0 →
      cprime s.build s.arg0 = s.build.pmax) ∧
    (∀ p q, Nat.Prime p → Nat.Prime q → p < q → q ≤ s.build.pmax → (∀ n, p < n → n < q → ¬ Nat.Prime n) →
      fle two s.arg0 = true → 2 * exactValue s.arg0 = ((p + q) * unitsPerOne : Nat) → cprime s.build s.arg0 = p) ∧
    (∀ p, Nat.Prime p → p ≤ s.build.pmax → fle two s.arg0 = true → exactValue s.arg0 = p * unitsPerOne →
      cprime s.build s.arg0 = p)

/-- R162 (a) to (e): the result is a prime in `[2, PMAX]`; for `2 ≤ x ≤ PMAX` no prime is closer and ties go to the
smaller; above `PMAX` it is `PMAX`, and a closer prime then lies above `D`; it is monotone; it is 2 up to 2.5. Distances
are exact, in units `2^-1074`. -/
def Obligations.CprimeIsTheNearestPrime : Prop :=
  ∀ (b : Build) (x : Word),
    (Nat.Prime (cprime b x) ∧ 2 ≤ cprime b x ∧ cprime b x ≤ b.pmax ∧ b.pmax ≤ b.D) ∧
    (fle two x = true → exactValue x ≤ (b.pmax * unitsPerOne : Int) → ∀ q, Nat.Prime q →
      |exactValue x - (cprime b x * unitsPerOne : Int)| ≤ |exactValue x - (q * unitsPerOne : Int)| ∧
      (|exactValue x - (cprime b x * unitsPerOne : Int)| = |exactValue x - (q * unitsPerOne : Int)| →
        cprime b x ≤ q)) ∧
    (finite x = true → (b.pmax * unitsPerOne : Int) < exactValue x →
      cprime b x = b.pmax ∧
      ((∃ q, Nat.Prime q ∧
          |exactValue x - (q * unitsPerOne : Int)| < |exactValue x - (b.pmax * unitsPerOne : Int)|) ↔
        ∃ q, Nat.Prime q ∧ b.D < q ∧
          |exactValue x - (q * unitsPerOne : Int)| < |exactValue x - (b.pmax * unitsPerOne : Int)|)) ∧
    (∀ y, fle x y = true → cprime b x ≤ cprime b y) ∧
    (fle x 0x4004000000000000#64 = true → cprime b x = 2)

/-- R170 with R164 to R166 and R162: `PRIMES` writes the M lengths of `primes_dist` to `VRES` and changes nothing else: the
nearest primes of the targets `((i+1)/M)^c`, scaled to the norm `max`; each is a prime that a delay line can take; `max ≤ 0` gives
all 2, said of a finite `c` only (notes/assumptions/24.md). -/
def Obligations.PrimesWritesLegalLengths : Prop :=
  ∀ s : State,
    exec .primes s = .next { s with
      resp := .ok, vres := (primesDist s.build s.arg0 s.arg1).map wordn } ∧
    decode 0x10#64 = .ok .primes ∧
    (let x := fun i => s.build.functions.pow (fdiv (numOfNat (i + 1)) (numOfNat s.build.M)) s.arg0
     let squares := (List.range s.build.M).foldl (fun a i => fadd a (fmul (x i) (x i))) posZero
     primesDist s.build s.arg0 s.arg1 =
       (List.range s.build.M).map fun i => cprime s.build (fmul (x i) (fdiv s.arg1 (s.build.functions.sqrt squares)))) ∧
    (∀ p ∈ primesDist s.build s.arg0 s.arg1, Nat.Prime p ∧ 2 ≤ p ∧ p ≤ s.build.D) ∧
    (PowLaws s.build.functions.pow → finite s.arg0 = true → fle s.arg1 posZero = true →
      ∀ p ∈ primesDist s.build s.arg0 s.arg1, p = 2)

/-- R167: the lengths are nondecreasing for `c ≥ 0` and every finite `max`, whatever functions a build holds that have the
properties the spec lists. -/
def Obligations.PrimesDistIsMonotone : Prop :=
  ∀ (b : Build) (c mx : Word), PowLaws b.functions.pow → finite c = true → fle posZero c = true →
    finite mx = true → (primesDist b c mx).Pairwise (· ≤ ·)

/-- 42_matrix_phase.md R192 and R190: `PHASES k` writes the sign pattern of the bits of `k`. -/
def Obligations.PhasesWritesBitSigns : Prop :=
  ∀ (s : State) (k : Index),
    decode (cmdWord 0x12#8 k) = .ok (.phases k) ∧
    (k.toNat < s.build.M * s.build.M → exec (.phases k) s = .next { s with
      resp := .ok
      vres := (List.range s.build.M).map fun i =>
        if k.toNat.testBit i then 0xBFF0000000000000#64 else 0x3FF0000000000000#64 }) ∧
    (s.build.M * s.build.M ≤ k.toNat → exec (.phases k) s = .next { s with
      resp := .badIndex, status := { s.status with cmderr := true } })

/-- R186 with the closed form of R182: `HROW r` writes `(−1)^popcount(r & ~c) * HMAG`, `HMAG = SQRT(1 / M)`. -/
def Obligations.HrowWritesHadamardSigns : Prop :=
  ∀ (s : State) (r : Index),
    decode (cmdWord 0x13#8 r) = .ok (.hrow r) ∧
    (r.toNat < s.build.M → exec (.hrow r) s = .next { s with
      resp := .ok
      vres := (List.range s.build.M).map fun c =>
        if popcount s.build (r.toNat &&& complement s.build c) % 2 = 0 then fsqrt (fdiv one (numOfNat s.build.M))
        else fneg (fsqrt (fdiv one (numOfNat s.build.M))) }) ∧
    (s.build.M ≤ r.toNat → exec (.hrow r) s = .next { s with
      resp := .badIndex, status := { s.status with cmderr := true } })

/-- R187 and R183: `PROW r` writes `±PMAG` at the columns `r` and `M − 1 − r` and `+0.0` elsewhere. -/
def Obligations.ProwWritesRotationRow : Prop :=
  ∀ (s : State) (r : Index),
    decode (cmdWord 0x14#8 r) = .ok (.prow r) ∧
    (r.toNat < s.build.M → exec (.prow r) s = .next { s with
      resp := .ok
      vres := (List.range s.build.M).map fun c =>
        if c = r.toNat then 0x3FE6A09E667F3BCD#64
        else if c = s.build.M - 1 - r.toNat then
          (if r.toNat < s.build.M / 2 then 0x3FE6A09E667F3BCD#64 else 0xBFE6A09E667F3BCD#64)
        else 0#64 }) ∧
    (s.build.M ≤ r.toNat → exec (.prow r) s = .next { s with
      resp := .badIndex, status := { s.status with cmderr := true } })

/-- R188 with the closed form of R185, bit for bit, for every `M`: the dense product `P × H` has `±QMAG` where the parity
of `~c` matches the half of the row, with the sign of `H`, and `+0.0` elsewhere. -/
def Obligations.QrowMatchesClosedForm : Prop :=
  ∀ (s : State) (r : Index),
    decode (cmdWord 0x15#8 r) = .ok (.qrow r) ∧
    (r.toNat < s.build.M → exec (.qrow r) s = .next { s with
      resp := .ok
      vres := (List.range s.build.M).map fun c =>
        if (r.toNat < s.build.M / 2 ↔ popcount s.build (complement s.build c) % 2 = 0) then
          (if popcount s.build (r.toNat &&& complement s.build c) % 2 = 0 then qmag s.build
           else fneg (qmag s.build))
        else posZero }) ∧
    (s.build.M ≤ r.toNat → exec (.qrow r) s = .next { s with
      resp := .badIndex, status := { s.status with cmderr := true } })

/-- R185 over the real numbers (R150): the entries of `Q`, by the formulas of R181, R183 and R184 with exact arithmetic and the
exact square root, have `Qᵗ·Q = Q·Qᵗ = I`, so mixing, by the formula of R214, keeps the energy of every vector. The real
numbers are the second instance of the number format (notes/assumptions/9.md). The last clause says the same of the unscaled
integer matrix of the signs of `P × H`, whose factor is `2 M`. -/
def Obligations.MixingIsLossless : Prop :=
  ∀ (b : Build) (f : FunctionsOf ℝ), f.sqrt = Real.sqrt →
    let Q := f.overReals.qEntry b
    (∀ i < b.M, ∀ j < b.M,
      ((List.range b.M).map fun r => Q r i * Q r j).sum = (if i = j then 1 else 0) ∧
      ((List.range b.M).map fun c => Q i c * Q j c).sum = (if i = j then 1 else 0)) ∧
    (∀ y : List ℝ, y.length = b.M →
      ((f.overReals.mix b y).map fun z => z ^ 2).sum = (y.map fun v => v ^ 2).sum) ∧
    (∀ y : Nat → ℝ,
      ((List.range b.M).map fun r => (((List.range b.M).map fun c => (qSign b r c : ℝ) * y c).sum) ^ 2).sum =
        2 * (b.M : ℝ) * ((List.range b.M).map fun c => y c ^ 2).sum)

/-! ### UPDATE -/

/-- 43_fdn_engine.md R207: on a state of the invariant an accepted `UPDATE` gives the state of an unconditional
recomputation of the gains, the cutoffs and the lengths from the snapshot; everything else is unchanged. -/
def Obligations.UpdateEqualsFullRecomputation : Prop :=
  ∀ s : State, s.Inv → s.status.ph = false → badParams s.build s.staged = false →
    decode 0x01#64 = .ok .update ∧
    exec .update s = .next { s with
      resp := .ok
      status := { s.status with cfgv := true }
      cached := s.staged
      lines := List.zipWith
        (fun i (l : Line) =>
          { l.stretch ((primesDist s.build s.staged.curve s.staged.length).getD i 2) with
            g := fmul (phaseEntry s.staged.phase.nat i) s.staged.feedback })
        (List.range s.build.M) s.lines }

/-- R200 and R203: an accepted `UPDATE` with no staging word changed writes `RESP` and changes nothing. -/
def Obligations.UpdateWithoutChangeIsIdle : Prop :=
  ∀ s : State, s.status.ph = false → badParams s.build s.staged = false → s.status.cfgv = true →
    s.cached = s.staged → exec .update s = .next { s with resp := .ok }

/-- R204: after an accepted `UPDATE` on a state of the invariant, `G[i]` is exactly `+fb` or `−fb`, by bit `i` of the phase
index. -/
def Obligations.GainIsSignedFeedback : Prop :=
  ∀ s : State, s.Inv → s.status.ph = false → badParams s.build s.staged = false →
    ∃ t, exec .update s = .next t ∧ ∀ i < s.build.M,
      (t.line i).g = if s.staged.phase.toNat.testBit i then fneg s.staged.feedback else s.staged.feedback

/-! ### READMIX and INJWR -/

/-- R210, R211, R212 and R214: the refusals of `READMIX` in order, and its whole effect: every line read and damped (band-pass
when `fl ≤ ce`, complementary split otherwise), mixed by `Q` in ascending order from `+0.0`, every stored value scrubbed. -/
def Obligations.ReadmixDampsAndMixes : Prop :=
  ∀ s : State, s.lines.length = s.build.M →
    decode 0x02#64 = .ok .readmix ∧
    (s.status.cfgv = false → exec .readmix s = .next { s with
      resp := .notConfigured, status := { s.status with cmderr := true } }) ∧
    (s.status.cfgv = true → s.status.ph = true → exec .readmix s = .next { s with
      resp := .seq, status := { s.status with cmderr := true } }) ∧
    (s.status.cfgv = true → s.status.ph = false → badRate s.arg0 = true → exec .readmix s = .next { s with
      resp := .badArg, status := { s.status with cmderr := true } }) ∧
    (s.status.cfgv = true → s.status.ph = false → badRate s.arg0 = false →
      let fl := s.cached.floor
      let ce := s.cached.ceil
      let x := fun i => (s.line i).dl.getD ((s.line i).plen - 1) posZero
      let lf := fun i => fadd (s.line i).flo
        (fmul (s.build.functions.alpha fl s.arg0) (fsub (x i) (s.line i).flo))
      let hf := fun i => fsub (x i) (lf i)
      let u := fun i => if fle fl ce then hf i else lf i
      let lc := fun i => fadd (s.line i).fce
        (fmul (s.build.functions.alpha ce s.arg0) (fsub (u i) (s.line i).fce))
      let y := fun i => if fle fl ce then lc i else fadd (lc i) (hf i)
      let acc := fun r =>
        (List.range s.build.M).foldl (fun a c => fadd a (fmul (qEntry s.build r c) (y c))) posZero
      exec .readmix s = .next { s with
        resp := .ok
        status := { s.status with
          ph := true
          est := .running
          nonfin := s.status.nonfin ||
            (List.range s.build.M).any fun i => !finite (lf i) || !finite (lc i) || !finite (acc i) }
        lines := (List.range s.build.M).map fun i =>
          { s.line i with flo := scrub (lf i), fce := scrub (lc i), z := scrub (acc i) } })

/-- R218, R219 and R220: the refusals of `INJWR` in order, and its whole effect: per line push the scrubbed
`(Z * sep + XAVG) * G + raw`, pop the oldest sample, and write the scrubbed sum of the popped samples to `RES0`. -/
def Obligations.InjwrInjectsAndSums : Prop :=
  ∀ s : State,
    decode 0x03#64 = .ok .injwr ∧
    (s.status.cfgv = false → exec .injwr s = .next { s with
      resp := .notConfigured, status := { s.status with cmderr := true } }) ∧
    (s.status.cfgv = true → s.status.ph = false → exec .injwr s = .next { s with
      resp := .seq, status := { s.status with cmderr := true } }) ∧
    (s.status.cfgv = true → s.status.ph = true →
      let b := fun (l : Line) => fadd (fmul (fadd (fmul l.z s.arg1) l.xavg) l.g) s.arg0
      let out := s.lines.foldl (fun o l => fadd o (l.dl.getD (l.plen - 1) posZero)) posZero
      exec .injwr s = .next { s with
        resp := .ok
        res0 := scrub out
        status := { s.status with
          ph := false
          nonfin := s.status.nonfin || ((s.lines.any fun l => !finite (b l)) || !finite out) }
        lines := s.lines.map fun l => { l with dl := scrub (b l) :: l.dl.take (l.plen - 1) } })

/-- R222: the sample `INJWR` pops is the sample `READMIX` read. `READMIX` leaves every line's oldest sample in place; no step
that leaves the frame open changes any delay line; and `INJWR`, in any state that still has the lines that a completed
`READMIX` left, writes the scrubbed sum of the samples `s` that `READMIX` read. -/
def Obligations.OpenFrameKeepsTheLines : Prop :=
  (∀ s t : State, exec .readmix s = .next t → ∀ i < s.build.M,
    (t.line i).dl = (s.line i).dl ∧ (t.line i).plen = (s.line i).plen) ∧
  (∀ s t : State, s.status.ph = true → step s = .next t → t.status.ph = true → ∀ i,
    (t.line i).dl = (s.line i).dl ∧ (t.line i).plen = (s.line i).plen) ∧
  (∀ s t u : State, s.lines.length = s.build.M → exec .readmix s = .next t → t.resp = .ok →
    u.status.cfgv = true → u.status.ph = true →
    u.lines.map (fun l => (l.dl, l.plen)) = t.lines.map (fun l => (l.dl, l.plen)) →
    ∃ v, exec .injwr u = .next v ∧ v.resp = .ok ∧
      v.res0 = scrub (s.lines.foldl (fun o l => fadd o (l.dl.getD (l.plen - 1) posZero)) posZero))

/-- R230: silence is a fixed point of a frame, for every build whose `ALPHA` has the properties of 40_numerics.md R136. The
stored zeros may carry either sign; `Z` and `RES0` are `+0.0`. -/
def Obligations.SilenceIsAFixedPoint : Prop :=
  ∀ (s : State) (raw sep : Word), s.Inv → AlphaLaws s.build.functions.alpha → s.Silent →
    (∀ l ∈ s.lines, isZero l.xavg = true) → s.status.cfgv = true → s.status.ph = false →
    badRate s.arg0 = false → isZero raw = true → finite sep = true →
    ∃ t v, exec .readmix s = .next t ∧ (∀ l ∈ t.lines, l.z = posZero) ∧
      exec .injwr { t with arg0 := raw, arg1 := sep } = .next v ∧ v.res0 = posZero ∧ v.Silent ∧
      (∀ l ∈ v.lines, l.z = posZero)

/-- 70_reset_and_hazards.md R316 as far as it follows from R211, R218 and R220: after an `UPDATE` on a state whose delay lines are
silent (as after reset), `RES0` is `+0.0` in every frame until the first line is warmed up, whatever the frames' sample rates, raw
inputs and separations. R316 says `PLEN[0]` frames; that is the least length where no line is shorter than line 0, for a curve
`c ≥ 0` by 41_primes.md R167, and for a negative curve the command rules are followed (notes/assumptions/23.md). -/
def Obligations.StartUpIsSilentUntilALineIsWarm : Prop :=
  ∀ s : State, s.Inv → s.status.ph = false → badParams s.build s.staged = false →
    (∀ l ∈ s.lines, ∀ x ∈ l.dl, x = posZero) →
    ∃ t, exec .update s = .next t ∧ t.resp = .ok ∧ t.status.cfgv = true ∧ (∀ l ∈ t.lines, 2 ≤ l.plen) ∧
      ∀ frames : List (Num64 × Num64 × Num64), (∀ f ∈ frames, badRate f.1 = false) →
        (∀ l ∈ t.lines, frames.length ≤ l.plen) → t.frameOutputs frames = List.replicate frames.length posZero

/-- R231, one frame of it: with gains `±0.0`, finite raw input and a finite cross-fed sample, `INJWR` pushes the raw input into
every line (a zero up to its sign): the rest of a line is the old samples without the oldest, and what was pushed is the line's
output again when `PLEN[i] − 1` further samples have been pushed. -/
def Obligations.ZeroGainPushesTheRawInput : Prop :=
  ∀ s : State, s.status.cfgv = true → s.status.ph = true → finite s.arg0 = true →
    (∀ l ∈ s.lines, isZero l.g = true ∧ finite (fadd (fmul l.z s.arg1) l.xavg) = true) →
    ∃ t, exec .injwr s = .next t ∧ t.lines.length = s.lines.length ∧ ∀ i < s.lines.length, ∃ v,
      (v = s.arg0 ∨ (isZero s.arg0 = true ∧ isZero v = true)) ∧
      (t.line i).dl = v :: (s.line i).dl.take ((s.line i).plen - 1) ∧ (t.line i).plen = (s.line i).plen ∧
      ((s.line i).dl.length = (s.line i).plen → 1 ≤ (s.line i).plen →
        ∀ vs : List Word, vs.length = (s.line i).plen - 1 → (vs.foldl LineOf.push (t.line i)).out = v)

/-! ### The delay line -/

/-- 40_numerics.md R142: a push pops the oldest sample, puts the new one first, and what is pushed comes out at the `p`-th
following push. -/
def Obligations.PushedSampleComesOutAfterLength : Prop :=
  ∀ (l : Line) (v : Word), l.dl.length = l.plen → 1 ≤ l.plen →
    l.dl.getLast? = some l.out ∧ (l.push v).dl = v :: l.dl.dropLast ∧ (l.push v).plen = l.plen ∧
    ∀ vs : List Word, vs.length = l.plen - 1 → (vs.foldl LineOf.push (l.push v)).out = v

/-- R143: a stretch keeps the newest samples, appends silence at the old end, and so delays what was in the line by the
growth. -/
def Obligations.StretchKeepsTheNewest : Prop :=
  ∀ (l : Line) (n : Nat), l.dl.length = l.plen → 2 ≤ l.plen → 2 ≤ n →
    (l.stretch n).plen = n ∧ (l.stretch n).dl.length = n ∧
    (n < l.plen → (l.stretch n).dl = l.dl.take n) ∧
    (l.plen < n → (l.stretch n).dl = l.dl ++ List.replicate (n - l.plen) posZero) ∧
    (n = l.plen → l.stretch n = l) ∧
    (∀ vs : List Word, vs.length < n - l.plen → (vs.foldl LineOf.push (l.stretch n)).out = posZero) ∧
    (∀ us vs : List Word, l.plen < n → vs.length < l.plen → us.length = vs.length + (n - l.plen) →
      (us.foldl LineOf.push (l.stretch n)).out = (vs.foldl LineOf.push l).out)

/-- 20_memory.md R70: the ring buffer realises the abstract line: each of its four operations gives the abstract operation's
samples and keeps the ring legal. -/
def Obligations.RingBufferRealisesTheLine : Prop :=
  ∀ (r : RingBuffer) (l : Line), r.wf = true → l.dl = r.samples → l.plen = r.p →
    l.out = r.out ∧
    (∀ v, (l.push v).dl = (r.push v).samples ∧ (r.push v).p = l.plen ∧ (r.push v).wf = true) ∧
    (∀ n, 1 ≤ n → n ≤ r.D →
      (l.stretch n).dl = (r.stretch n).samples ∧ (r.stretch n).p = n ∧ (r.stretch n).wf = true) ∧
    (∀ v, (l.fill v).dl = (r.fill v).samples ∧ (r.fill v).p = l.plen ∧ (r.fill v).wf = true)

/-! ### The waveshaper -/

/-- 44_waveshaper.md R243: `SOFTCLIP` refuses bad bounds and otherwise writes `SOFTCLIP(x, min, max)` to `RES0`; a NaN is
written as some NaN (40_numerics.md R126; `draws` is the model's own count of free NaN values, notes/assumptions/4.md). In a
build whose function has the properties of R241 (notes/assumptions/6.md; the reference formula is not said to have them, 22.md)
the result lies between the bounds, is `max` and `min` at the infinities, and is a NaN for a NaN. -/
def Obligations.SoftclipWritesTheClip : Prop :=
  ∀ s : State,
    decode 0x22#64 = .ok .softclip ∧
    (badBounds s.arg1 s.arg2 = true → exec .softclip s = .next { s with
      resp := .badArg, status := { s.status with cmderr := true } }) ∧
    (badBounds s.arg1 s.arg2 = false →
      let r := s.build.functions.softclip s.arg0 s.arg1 s.arg2
      ∃ v d, exec .softclip s = .next { s with resp := .ok, res0 := v, draws := d } ∧
        (isNaN r = true → isNaN v = true) ∧ (isNaN r = false → v = r ∧ d = s.draws) ∧
        (SoftclipLaws s.build.functions.softclip →
          (isNaN s.arg0 = true → isNaN v = true) ∧
          (isNaN s.arg0 = false → fle s.arg1 v = true ∧ fle v s.arg2 = true) ∧
          (s.arg0 = posInf → feq v s.arg2 = true) ∧ (s.arg0 = negInf → feq v s.arg1 = true)))

/-- R244: `X2EXP` writes `EXP2(x * K2LN2)`; a NaN is written as some NaN. With the properties of 40_numerics.md R124 and R244 it
is 1 at zero, a NaN for a NaN, `+inf` from 355 up, and `+0` from −400 down; −400, the example of V41, is the model's choice for
where "large negative" has begun (notes/assumptions/21.md). -/
def Obligations.X2expWritesTheExponential : Prop :=
  ∀ s : State,
    let r := s.build.functions.exp2 (fmul s.arg0 0x40071547652B82FE#64)
    decode 0x23#64 = .ok .x2exp ∧
    ∃ v d, exec .x2exp s = .next { s with resp := .ok, res0 := v, draws := d } ∧
      (isNaN r = true → isNaN v = true) ∧ (isNaN r = false → v = r ∧ d = s.draws) ∧
      (Exp2Laws s.build.functions.exp2 →
        (isZero s.arg0 = true → v = one) ∧ (isNaN s.arg0 = true → isNaN v = true) ∧
        (fle 0x4076300000000000#64 s.arg0 = true → v = posInf) ∧
        (fle s.arg0 0xC079000000000000#64 = true → v = posZero))

/-- R245: `SIGMOID` writes `p * ((e − 1)/(e + 1)) + (1 − p) * x` with `e = x2exp(x)`; a NaN is written as some NaN. With the
properties of 40_numerics.md R124 and R244 it is zero at zero, a NaN from 355 up, where `e` overflows, and `−p + (1 − p) * x`
for finite `x` from −400 down, where `e` is `+0`; −400, an example of R245, is the model's choice for where "large negative" has
begun (notes/assumptions/21.md). -/
def Obligations.SigmoidWritesTheBlend : Prop :=
  ∀ s : State,
    let e := s.build.functions.exp2 (fmul s.arg0 0x40071547652B82FE#64)
    let p := s.build.ws.p
    let r := fadd (fmul p (fdiv (fsub e one) (fadd e one))) (fmul (fsub one p) s.arg0)
    decode 0x24#64 = .ok .sigmoid ∧
    ∃ v d, exec .sigmoid s = .next { s with resp := .ok, res0 := v, draws := d } ∧
      (isNaN r = true → isNaN v = true) ∧ (isNaN r = false → v = r ∧ d = s.draws) ∧
      (Exp2Laws s.build.functions.exp2 →
        (isZero s.arg0 = true → isZero v = true) ∧ (fle 0x4076300000000000#64 s.arg0 = true → isNaN v = true) ∧
        (finite s.arg0 = true → fle s.arg0 0xC079000000000000#64 = true →
          v = fadd (fneg p) (fmul (fsub one p) s.arg0)))

/-- R244 and R245 over the reals: `x2exp(x) = e^(2x)`, and the sigmoid is `p·tanh(x) + (1 − p)·x`: odd, 0 and of slope 1 at 0,
monotone for `0 ≤ p ≤ 1`, unbounded for `p < 1`. -/
def Obligations.SigmoidOverTheReals : Prop :=
  ∀ f : FunctionsOf ℝ, f.exp2 = exactExp2 → ∀ p : ℝ,
    (∀ x, f.overReals.x2exp x = Real.exp (2 * x) ∧
      f.overReals.sigmoid p x = p * Real.tanh x + (1 - p) * x ∧
      f.overReals.sigmoid p (-x) = -f.overReals.sigmoid p x) ∧
    f.overReals.sigmoid p 0 = 0 ∧ HasDerivAt (f.overReals.sigmoid p) 1 0 ∧
    (0 ≤ p → p ≤ 1 → StrictMono (f.overReals.sigmoid p)) ∧
    (p < 1 → ∀ C, ∃ x, C < f.overReals.sigmoid p x)

/-- R247, R248 and R250: the refusals of `WSHAPE` in order, and its whole effect: nine stages in ascending order, each storing
its scrubbed low component, a final sigmoid and clip, and the scrubbed output in `RES0`. -/
def Obligations.WshapeRunsNineStages : Prop :=
  ∀ (s : State) (ctx : Index),
    decode (cmdWord 0x20#8 ctx) = .ok (.wshape ctx) ∧
    (s.build.NW ≤ ctx.toNat → exec (.wshape ctx) s = .next { s with
      resp := .badIndex, status := { s.status with cmderr := true } }) ∧
    (ctx.toNat < s.build.NW → badRate s.arg0 = true → exec (.wshape ctx) s = .next { s with
      resp := .badArg, status := { s.status with cmderr := true } }) ∧
    (ctx.toNat < s.build.NW → badRate s.arg0 = false →
      let f := s.build.functions
      let w := s.build.ws
      let m := fun k => (s.ws.getD ctx.toNat []).getD k posZero
      ∃ u lo : Nat → Word, u 0 = s.arg1 ∧
        (∀ k < 9,
          lo k = fadd (m k) (fmul (f.alpha (w.f.getD k posZero) s.arg0) (fsub (u k) (m k))) ∧
          u (k + 1) = fadd
            (fmul (w.bc.getD k posZero)
              (f.softclip (sigmoid s.build (fmul w.gclip
                (fadd (fmul (w.ml.getD k posZero) (lo k)) (fmul (w.mh.getD k posZero) (fsub (u k) (lo k))))))
                w.cmin w.cmax))
            (fmul (w.bl.getD k posZero) (lo k))) ∧
        exec (.wshape ctx) s = .next { s with
          resp := .ok
          res0 := scrub (f.softclip (sigmoid s.build (fmul w.gclip (u 9))) w.cmin w.cmax)
          ws := s.ws.set ctx.toNat ((List.range 9).map fun k => scrub (lo k))
          status := { s.status with
            nonfin := s.status.nonfin || (((List.range 9).any fun k => !finite (lo k)) ||
              !finite (f.softclip (sigmoid s.build (fmul w.gclip (u 9))) w.cmin w.cmax)) } })

/-- R255: `WSRESET ctx` zeroes the nine memories of one context and touches nothing else. -/
def Obligations.WsresetZeroesOneContext : Prop :=
  ∀ (s : State) (ctx : Index),
    decode (cmdWord 0x21#8 ctx) = .ok (.wsreset ctx) ∧
    (ctx.toNat < s.build.NW → exec (.wsreset ctx) s = .next { s with
      resp := .ok, ws := s.ws.set ctx.toNat (List.replicate 9 posZero) }) ∧
    (s.build.NW ≤ ctx.toNat → exec (.wsreset ctx) s = .next { s with
      resp := .badIndex, status := { s.status with cmderr := true } })

/-- R249 (a) and (c): the output of a completed `WSHAPE` lies between the bounds of the hard clip, or is the silence that
replaces a NaN. -/
def Obligations.WshapeOutputIsBounded : Prop :=
  ∀ (s t : State) (ctx : Index), SoftclipLaws s.build.functions.softclip → exec (.wshape ctx) s = .next t →
    t.resp = .ok →
    (fle s.build.ws.cmin t.res0 = true ∧ fle t.res0 s.build.ws.cmax = true) ∨
      (t.res0 = posZero ∧ t.status.nonfin = true)

/-- R250: `WSHAPE` neither reads nor changes any engine state: states that agree on the build, the operands and the contexts
give the same response, contexts and output, and the engine's parts stay as they were. -/
def Obligations.WshapeIgnoresTheEngine : Prop :=
  ∀ (s s' : State) (ctx : Index), s.build = s'.build → s.arg0 = s'.arg0 → s.arg1 = s'.arg1 → s.ws = s'.ws →
    ∃ t t', exec (.wshape ctx) s = .next t ∧ exec (.wshape ctx) s' = .next t' ∧
      t.resp = t'.resp ∧ t.ws = t'.ws ∧ (t.resp = .ok → t.res0 = t'.res0) ∧
      t.lines = s.lines ∧ t.cached = s.cached ∧ t.staged = s.staged ∧ t.vres = s.vres ∧
      t.status.est = s.status.est ∧ t.status.ph = s.status.ph ∧ t.status.cfgv = s.status.cfgv

/-! ### Rules over all commands -/

/-- 10_state.md R27, R29 and R31: no command writes `ARG0..2`, a staging register or `XAVG`. (`inbox` and `replies`, the
host's own, are not the block's to write either.) -/
def Obligations.CommandsNeverWriteOperands : Prop :=
  ∀ (i : Instr) (s t : State), s.Shaped → exec i s = .next t →
    t.arg0 = s.arg0 ∧ t.arg1 = s.arg1 ∧ t.arg2 = s.arg2 ∧ t.staged = s.staged ∧
    t.lines.map (·.xavg) = s.lines.map (·.xavg) ∧ t.inbox = s.inbox ∧ t.replies = s.replies

/-- R28 and R33: `RES0` and `VRES` change only by the commands named there, and only when those complete with `OK`. -/
def Obligations.ResultRegisterWriters : Prop :=
  ∀ (i : Instr) (s t : State), exec i s = .next t →
    (t.res0 ≠ s.res0 → t.resp = .ok ∧
      i.mnemonic ∈ ["INJWR", "CPRIME", "WSHAPE", "SOFTCLIP", "X2EXP", "SIGMOID"]) ∧
    (t.vres ≠ s.vres → t.resp = .ok ∧ i.mnemonic ∈ ["PRIMES", "PHASES", "HROW", "PROW", "QROW"])

/-- R30, R34, R35, R38: only `UPDATE` changes `C_*`, `G`, `PLEN` and `CFGV`, and only `WSHAPE` and `WSRESET` change a
waveshaper context. -/
def Obligations.ConfigurationAndContextWriters : Prop :=
  ∀ (i : Instr) (s t : State), s.Shaped → exec i s = .next t →
    (i ≠ .update → t.cached = s.cached ∧ t.lines.map (·.g) = s.lines.map (·.g) ∧
      t.lines.map (·.plen) = s.lines.map (·.plen) ∧ t.status.cfgv = s.status.cfgv) ∧
    (t.ws ≠ s.ws → t.resp = .ok ∧ i.mnemonic ∈ ["WSHAPE", "WSRESET"])

/-- R41 and R42: the transitions of `EST` and `PH`. -/
def Obligations.EngineStateTransitions : Prop :=
  ∀ (i : Instr) (s t : State), exec i s = .next t →
    t.status.est = (if i = .readmix ∧ t.resp = .ok then .running
      else if i = .suspend then .suspended else s.status.est) ∧
    t.status.ph = (if i = .readmix ∧ t.resp = .ok then true
      else if i = .suspend ∨ (i = .injwr ∧ t.resp = .ok) then false else s.status.ph)

/-- 60_exceptions.md R293: the sticky bits are never cleared by a step; `CMDERR` is set exactly by a refusal, `NONFIN` only by
a completed `READMIX`, `INJWR` or `WSHAPE`, `ADDRERR` by no command. -/
def Obligations.StickyFlagsOnlySet : Prop :=
  (∀ s t : State, step s = .next t →
    (s.status.nonfin = true → t.status.nonfin = true) ∧ (s.status.cmderr = true → t.status.cmderr = true) ∧
    (s.status.addrerr = true → t.status.addrerr = true)) ∧
  (∀ (i : Instr) (s t : State), exec i s = .next t →
    t.status.cmderr = (s.status.cmderr || decide (t.resp ≠ .ok)) ∧ t.status.addrerr = s.status.addrerr ∧
    (t.status.nonfin ≠ s.status.nonfin → t.resp = .ok ∧ i.mnemonic ∈ ["READMIX", "INJWR", "WSHAPE"]))

/-- R41 and R293: no rule reads `EST` or a sticky bit: states that differ only in them behave alike. -/
def Obligations.ReportsAreNeverRead : Prop :=
  ∀ (i : Instr) (s s' : State), s.withoutReports = s'.withoutReports →
    ∃ t t', exec i s = .next t ∧ exec i s' = .next t' ∧ t.withoutReports = t'.withoutReports

/-! ### Invariants -/

/-- R44 (a) to (e): every step keeps the invariant. -/
def Obligations.EveryStepKeepsTheInvariant : Prop :=
  ∀ s t : State, s.Inv → step s = .next t → t.Inv

/-- R41: every step keeps an engine that is not Running silent and outside a frame. -/
def Obligations.IdleAndSuspendedStaySilent : Prop :=
  ∀ s t : State, s.QuietUnlessRunning → step s = .next t → t.QuietUnlessRunning

/-! ### The number format -/

/-- 40_numerics.md R121: a finite sum, product or quotient of finite numbers is the number nearest to the exact value, and
where another number is as near its last bit is 0. It is finite exactly while the exact value stays below the point half a
unit in the last place above the largest finite number, and the infinity with the sign of the exact value from there on. A
difference is the sum with the sign bit flipped. Exact values are in units `2^-1074`. -/
def Obligations.ArithmeticRoundsToNearestEven : Prop :=
  ∀ a b : Word, finite a = true → finite b = true →
    (∀ c, finite c = true →
      (finite (fadd a b) = true →
        |exactValue a + exactValue b - exactValue (fadd a b)| ≤ |exactValue a + exactValue b - exactValue c| ∧
        (|exactValue a + exactValue b - exactValue (fadd a b)| = |exactValue a + exactValue b - exactValue c| →
          exactValue c = exactValue (fadd a b) ∨ magBits (fadd a b) % 2 = 0)) ∧
      (finite (fmul a b) = true →
        |exactValue a * exactValue b - exactValue (fmul a b) * unitsPerOne| ≤
          |exactValue a * exactValue b - exactValue c * unitsPerOne| ∧
        (|exactValue a * exactValue b - exactValue (fmul a b) * unitsPerOne| =
            |exactValue a * exactValue b - exactValue c * unitsPerOne| →
          exactValue c = exactValue (fmul a b) ∨ magBits (fmul a b) % 2 = 0)) ∧
      (isZero b = false → finite (fdiv a b) = true →
        |exactValue a * unitsPerOne - exactValue (fdiv a b) * exactValue b| ≤
          |exactValue a * unitsPerOne - exactValue c * exactValue b| ∧
        (|exactValue a * unitsPerOne - exactValue (fdiv a b) * exactValue b| =
            |exactValue a * unitsPerOne - exactValue c * exactValue b| →
          exactValue c = exactValue (fdiv a b) ∨ magBits (fdiv a b) % 2 = 0))) ∧
    (finite (fadd a b) = true ↔ |exactValue a + exactValue b| < overflowUnits) ∧
    (overflowUnits ≤ exactValue a + exactValue b → fadd a b = posInf) ∧
    (exactValue a + exactValue b ≤ -overflowUnits → fadd a b = negInf) ∧
    (finite (fmul a b) = true ↔ |exactValue a * exactValue b| < overflowUnits * unitsPerOne) ∧
    (overflowUnits * unitsPerOne ≤ |exactValue a * exactValue b| →
      fmul a b = if signBit a = signBit b then posInf else negInf) ∧
    (isZero b = false →
      (finite (fdiv a b) = true ↔ |exactValue a * unitsPerOne| < overflowUnits * |exactValue b|) ∧
      (overflowUnits * |exactValue b| ≤ |exactValue a * unitsPerOne| →
        fdiv a b = if signBit a = signBit b then posInf else negInf)) ∧
    fsub a b = fadd a (fneg b) ∧ exactValue (fneg b) = -exactValue b

/-- R124, the row `SQRT`: the square root of every build is the correctly rounded one. For a finite number that is not below
zero the result is the number nearest to the real root, and where another number is as near its last bit is 0; `SQRT(+0) = +0`,
`SQRT(+inf) = +inf`, and below zero and for a NaN the result is a NaN. -/
def Obligations.SquareRootIsCorrectlyRounded : Prop :=
  ∀ (b : Build) (a : Word),
    let r := b.functions.sqrt a
    (finite a = true → fle posZero a = true →
      finite r = true ∧ (isZero a = false → signBit r = false) ∧
      ∀ c, finite c = true →
        |√(realValue a) - realValue r| ≤ |√(realValue a) - realValue c| ∧
        (|√(realValue a) - realValue r| = |√(realValue a) - realValue c| →
          realValue c = realValue r ∨ magBits r % 2 = 0)) ∧
    (a = posZero → r = posZero) ∧ (a = posInf → r = posInf) ∧
    (isNaN a = true ∨ flt a posZero = true → isNaN r = true)

/-- R137 and R148 over the reals, and what 43_fdn_engine.md R213 draws from them: nothing is scrubbed; the two components of a
one-pole filter add up to its input; at coefficient 0 the state never moves, at 1 the input passes; the low component is no
larger than state and input; and a line is undamped, silent or complementary as its coefficients say. With both coefficients 0 and
zero state R213 gives 0 and names no branch; by R212 that is the first branch, and the second passes its input
(notes/assumptions/25.md). -/
def Obligations.DampingOverTheReals : Prop :=
  ∀ f : FunctionsOf ℝ,
    (∀ v, f.overReals.finite v = true ∧ f.overReals.scrub v = v ∧ f.overReals.scrubbed v = false) ∧
    (∀ st fc fs x : ℝ,
      let a := f.alpha fc fs
      let r := f.overReals.onepole st fc fs x
      r.st = r.lo ∧ r.nonfin = false ∧ r.lo + r.hi = x ∧
      (a = 0 → r.lo = st) ∧ (a = 1 → r.lo = x ∧ r.hi = 0) ∧ (st = 0 → x = 0 → r.lo = 0 ∧ r.hi = 0) ∧
      (0 ≤ a → a ≤ 1 → |r.lo| ≤ max |st| |x|)) ∧
    (∀ (fl ce fs : ℝ) (l : LineOf ℝ),
      let d := f.overReals.dampLine fl ce fs l
      let x := l.dl.getD (l.plen - 1) 0
      d.nonfin = false ∧ d.line.dl = l.dl ∧
      (f.alpha fl fs = 0 → f.alpha ce fs = 1 → l.flo = 0 → d.y = x) ∧
      (fl ≤ ce → f.alpha fl fs = 0 → f.alpha ce fs = 0 → l.flo = 0 → l.fce = 0 → d.y = 0) ∧
      (ce < fl → f.alpha fl fs = 0 → f.alpha ce fs = 0 → l.flo = 0 → l.fce = 0 → d.y = x) ∧
      (ce < fl → f.alpha ce fs = 1 → d.y = x))

/-- R122: on finite numbers the comparisons are those of the exact values; an infinity is above, or below, every other number and
equal to itself alone; with a NaN each is false. -/
def Obligations.ComparisonsFollowExactValues : Prop :=
  ∀ a b : Word,
    (finite a = true → finite b = true →
      (flt a b = true ↔ exactValue a < exactValue b) ∧ (fle a b = true ↔ exactValue a ≤ exactValue b) ∧
      (feq a b = true ↔ exactValue a = exactValue b)) ∧
    (isNaN a = true ∨ isNaN b = true → flt a b = false ∧ fle a b = false ∧ feq a b = false) ∧
    feq negZero posZero = true ∧ (finite a = true ↔ isNaN a = false ∧ isInf a = false) ∧
    (isInf a = true ↔ a = posInf ∨ a = negInf) ∧
    (isNaN a = false →
      (flt a posInf = true ↔ a ≠ posInf) ∧ (flt negInf a = true ↔ a ≠ negInf) ∧
      fle a posInf = true ∧ fle negInf a = true) ∧
    flt posInf a = false ∧ flt a negInf = false ∧
    (fle posInf a = true ↔ a = posInf) ∧ (fle a negInf = true ↔ a = negInf) ∧
    (feq a posInf = true ↔ a = posInf) ∧ (feq posInf a = true ↔ a = posInf) ∧
    (feq a negInf = true ↔ a = negInf) ∧ (feq negInf a = true ↔ a = negInf)

/-- R121, the behaviour of NaN, infinities and signed zeros: a NaN operand gives a NaN; the invalid operations are NaN; a sum or
difference with one infinity is that infinity, and so is the sum of two of one sign; a product with an infinity and a quotient
of an infinity are infinities; `x / ±0` is an infinity and a finite number over an infinity a zero; a product with a zero and a
zero quotient are zeros; every product and quotient has the sign of its operands' signs; a sum of zeros is `−0` only for two
negative zeros; `x + (−x) = +0`. -/
def Obligations.SpecialValuesOfArithmetic : Prop :=
  ∀ x y : Word,
    (isNaN x = true ∨ isNaN y = true →
      isNaN (fadd x y) = true ∧ isNaN (fsub x y) = true ∧ isNaN (fmul x y) = true ∧ isNaN (fdiv x y) = true) ∧
    (isZero x = true → isZero y = true → isNaN (fdiv x y) = true) ∧
    (isInf x = true → isNaN (fsub x x) = true ∧ isNaN (fadd x (fneg x)) = true) ∧
    (isZero x = true → isInf y = true → isNaN (fmul x y) = true ∧ isNaN (fmul y x) = true) ∧
    (isInf x = true → isInf y = true → isNaN (fdiv x y) = true) ∧
    (isInf x = true → finite y = true → fadd x y = x ∧ fadd y x = x ∧ fsub x y = x ∧ fsub y x = fneg x) ∧
    (isInf x = true → fadd x x = x ∧ fsub x (fneg x) = x) ∧
    (isInf x = true → isNaN y = false → isZero y = false → isInf (fmul x y) = true ∧ isInf (fmul y x) = true) ∧
    (isInf x = true → finite y = true → isInf (fdiv x y) = true ∧ isZero (fdiv y x) = true) ∧
    (finite x = true → isZero x = false → isZero y = true → isInf (fdiv x y) = true) ∧
    (isZero x = true → finite y = true → isZero (fmul x y) = true ∧ isZero (fmul y x) = true ∧
      (isZero y = false → isZero (fdiv x y) = true)) ∧
    (isNaN (fmul x y) = false → signBit (fmul x y) = (signBit x != signBit y)) ∧
    (isNaN (fdiv x y) = false → signBit (fdiv x y) = (signBit x != signBit y)) ∧
    (isZero x = true → isZero y = true → fadd x y = if signBit x && signBit y then negZero else posZero) ∧
    (finite x = true → fadd x (fneg x) = posZero) ∧
    (magBits (fneg x) = magBits x ∧ signBit (fneg x) = !signBit x)
end

