-- ==== Sys2Proof/Laws/Decode.lean ====
section
/-! SUPPORT. The fields of a command word as numbers, and of a word built from fields. -/

namespace Sys2Proof

theorem opField_toNat (w : Word) : (opField w).toNat = w.toNat % 2 ^ 8 := by
  simp [opField]

theorem idxField_toNat (w : Word) : (idxField w).toNat = w.toNat / 2 ^ 8 % 2 ^ 16 := by
  simp [idxField, Nat.shiftRight_eq_div_pow]

theorem rsvField_toNat (w : Word) : (rsvField w).toNat = w.toNat / 2 ^ 24 := by
  have := w.isLt
  simp only [rsvField, BitVec.extractLsb'_toNat, Nat.shiftRight_eq_div_pow]
  omega

theorem cmdWord_toNat (op : BitVec 8) (idx : Index) :
    (cmdWord op idx).toNat = idx.toNat * 2 ^ 8 + op.toNat := by
  have ho := op.isLt
  have h : (cmdWord op idx).toNat = (0#40 ++ idx ++ op : BitVec (40 + 16 + 8)).toNat := rfl
  rw [h, BitVec.toNat_append, BitVec.toNat_append, ← Nat.shiftLeft_add_eq_or_of_lt ho]
  simp [Nat.shiftLeft_eq]

@[simp] theorem opField_cmdWord (op : BitVec 8) (idx : Index) : opField (cmdWord op idx) = op := by
  apply BitVec.eq_of_toNat_eq
  rw [opField_toNat, cmdWord_toNat]
  have := op.isLt
  omega

@[simp] theorem idxField_cmdWord (op : BitVec 8) (idx : Index) : idxField (cmdWord op idx) = idx := by
  apply BitVec.eq_of_toNat_eq
  rw [idxField_toNat, cmdWord_toNat]
  have := op.isLt
  have := idx.isLt
  omega

@[simp] theorem rsvField_cmdWord (op : BitVec 8) (idx : Index) : rsvField (cmdWord op idx) = 0#40 := by
  apply BitVec.eq_of_toNat_eq
  rw [rsvField_toNat, cmdWord_toNat]
  have := op.isLt
  have := idx.isLt
  simp
  omega

/-- A word is determined by its three fields. -/
theorem word_of_fields (w : Word) (h : rsvField w = 0#40) : w = cmdWord (opField w) (idxField w) := by
  apply BitVec.eq_of_toNat_eq
  have h' : (rsvField w).toNat = 0 := by rw [h]; rfl
  rw [rsvField_toNat] at h'
  rw [cmdWord_toNat, opField_toNat, idxField_toNat]
  omega

end Sys2Proof
end

