-- ==== Sys2Proof/Laws/Numerics.lean ====
section
/-! SUPPORT. Facts about `Num`: the operations of the format of the machine, finite values, scrubbed values, the order, and
that rounding an exact number gives that number back. -/

namespace Sys2Proof

/-! ### The formulas at binary64 -/

@[simp] theorem binary64_zero : binary64.zero = posZero := rfl
@[simp] theorem binary64_one : binary64.one = one := rfl
@[simp] theorem binary64_two : binary64.two = two := rfl
@[simp] theorem binary64_half : binary64.half = half := rfl
@[simp] theorem binary64_twoPi : binary64.twoPi = twoPi := rfl
@[simp] theorem binary64_k2ln2 : binary64.k2ln2 = k2ln2 := rfl
@[simp] theorem binary64_add : binary64.add = fadd := rfl
@[simp] theorem binary64_sub : binary64.sub = fsub := rfl
@[simp] theorem binary64_mul : binary64.mul = fmul := rfl
@[simp] theorem binary64_div : binary64.div = fdiv := rfl
@[simp] theorem binary64_neg : binary64.neg = fneg := rfl
@[simp] theorem binary64_lt : binary64.lt = flt := rfl
@[simp] theorem binary64_le : binary64.le = fle := rfl
@[simp] theorem binary64_finite : binary64.finite = finite := rfl
@[simp] theorem binary64_ofNat : binary64.ofNat = numOfNat := rfl
@[simp] theorem Build.numeric_format (b : Build) : b.numeric.toNumFormat = binary64 := rfl
@[simp] theorem Build.numeric_functions (b : Build) : b.numeric.toFunctionsOf = b.functions := rfl

/-- The `SQRT` of every build is the correctly rounded root wherever that is a number. -/
theorem Build.sqrt_eq (b : Build) {x : Num64} (h : isNaN (fsqrt x) = false) : b.functions.sqrt x = fsqrt x :=
  b.fns.sqrt_laws.rounded x h

theorem finite_iff {x : Num64} : finite x = true ↔ magBits x < infMag := by simp [finite]

theorem not_nan_of_finite {x : Num64} (h : finite x = true) : isNaN x = false := by
  rw [finite_iff] at h
  simp [isNaN]
  omega

theorem not_inf_of_finite {x : Num64} (h : finite x = true) : isInf x = false := by
  rw [finite_iff] at h
  simp [isInf]
  omega

@[simp] theorem finite_posZero : finite posZero = true := by decide

@[simp] theorem magUnits_zero : magUnits 0 = 0 := by decide

theorem finite_of_isZero {x : Num64} (h : isZero x = true) : finite x = true := by
  have : magBits x = 0 := by simpa [isZero] using h
  rw [finite_iff, this]
  decide

theorem infMag_lt : infMag < 2 ^ 63 := by decide

@[simp] theorem magBits_roundNum (neg : Bool) (n d : Nat) : magBits (roundNum neg n d) = roundMag n d :=
  magBits_packNum neg (lt_of_le_of_lt (roundMag_le n d) infMag_lt)

@[simp] theorem signBit_roundNum (neg : Bool) (n d : Nat) : signBit (roundNum neg n d) = neg :=
  signBit_packNum neg (lt_of_le_of_lt (roundMag_le n d) infMag_lt)

/-- A number is its sign and its magnitude bits. -/
theorem packNum_parts (x : Num64) : packNum (signBit x) (magBits x) = x := by
  apply BitVec.eq_of_toNat_eq
  have hx := x.isLt
  unfold packNum signBit magBits
  rw [BitVec.msb_eq_decide, BitVec.toNat_ofNat]
  by_cases h : 2 ^ (64 - 1) ≤ x.toNat
  · rw [decide_eq_true h, if_pos rfl]; omega
  · rw [decide_eq_false h, if_neg (by decide)]; omega

theorem num_ext {x y : Num64} (hs : signBit x = signBit y) (hm : magBits x = magBits y) : x = y := by
  rw [← packNum_parts x, ← packNum_parts y, hs, hm]

theorem magUnits_eq_zero {m : Nat} : magUnits m = 0 ↔ m = 0 := by
  constructor
  · intro h
    unfold magUnits at h
    split at h
    · exact h
    · have : 0 < 2 ^ (m / 2 ^ 52 - 1) := by positivity
      have := Nat.mul_pos (by omega : 0 < 2 ^ 52 + m % 2 ^ 52) this
      omega
  · rintro rfl; rfl

theorem magUnits_lt {m : Nat} (h : m < infMag) : magUnits m < 2 ^ 2 ^ 13 := by
  refine lt_of_le_of_lt (magUnits_mono (Nat.le_of_lt h)) ?_
  decide +kernel

/-- Rounding is the identity on the numbers themselves: an exact value that is a number has its own pattern. -/
theorem roundMag_exact {m d : Nat} (hm : m < infMag) (hd : 0 < d) : roundMag (magUnits m * d) d = m := by
  have hq : magUnits m * d / d = magUnits m := Nat.mul_div_cancel _ hd
  have hlt := magUnits_lt hm
  unfold roundMag
  rw [hq]
  have key : ∀ s k, magUnits m = s * 2 ^ k → divNearestEven (magUnits m * d) (d * 2 ^ k) = s := by
    intro s k h
    have e : magUnits m * d = s * (d * 2 ^ k) := by rw [h]; ring
    have hpos : 0 < d * 2 ^ k := Nat.mul_pos hd (by positivity)
    unfold divNearestEven
    rw [e, Nat.mul_mod_left, Nat.mul_div_cancel _ hpos]
    simp
    omega
  by_cases hsmall : m < 2 ^ 52
  · have hu : magUnits m = m := by unfold magUnits; rw [if_pos hsmall]
    have ht : topBit (magUnits m) - 52 = 0 := by
      rw [hu] at hlt ⊢
      by_cases h0 : m = 0
      · subst h0; simp
      · have := two_pow_topBit_le hlt h0
        have : 2 ^ topBit m < 2 ^ 52 := by omega
        have := (Nat.pow_lt_pow_iff_right (by norm_num : 1 < 2)).1 this
        omega
    simp only [ht]
    rw [key m 0 (by rw [hu]; ring)]
    omega
  · have hu : magUnits m = (2 ^ 52 + m % 2 ^ 52) * 2 ^ (m / 2 ^ 52 - 1) := by
      unfold magUnits; rw [if_neg hsmall]
    have hr := Nat.mod_lt m (by norm_num : 0 < 2 ^ 52)
    have ht : topBit (magUnits m) - 52 = m / 2 ^ 52 - 1 := by
      have h0 : magUnits m ≠ 0 := by rw [Ne, magUnits_eq_zero]; omega
      have h1 := two_pow_topBit_le hlt h0
      have h2 := lt_two_pow_topBit hlt
      have hup : magUnits m < 2 ^ (53 + (m / 2 ^ 52 - 1)) := by
        rw [hu, pow_add]
        exact (Nat.mul_lt_mul_right (by positivity)).2 (by omega)
      have hlo : 2 ^ (52 + (m / 2 ^ 52 - 1)) ≤ magUnits m := by
        rw [hu, pow_add]
        exact Nat.mul_le_mul_right _ (by omega)
      have a := (Nat.pow_lt_pow_iff_right (by norm_num : 1 < 2)).1 (lt_of_le_of_lt h1 hup)
      have b := (Nat.pow_lt_pow_iff_right (by norm_num : 1 < 2)).1 (lt_of_le_of_lt hlo h2)
      omega
    simp only [ht]
    rw [key _ _ hu]
    have e := Nat.div_add_mod m (2 ^ 52)
    have : (m / 2 ^ 52 - 1) * 2 ^ 52 + (2 ^ 52 + m % 2 ^ 52) = m := by omega
    omega

namespace Machine

theorem scrub_eq (v : Num64) : scrub v = if finite v then v else posZero := rfl

theorem scrubbed_eq (v : Num64) : scrubbed v = !finite v := rfl

@[simp] theorem binary64_scrub : binary64.scrub = scrub := rfl
@[simp] theorem binary64_scrubbed : binary64.scrubbed = scrubbed := rfl

@[simp] theorem scrub_finite (v : Num64) : finite (scrub v) = true := by
  rw [scrub_eq]
  split
  · assumption
  · exact finite_posZero

theorem scrub_of_finite {v : Num64} (h : finite v = true) : scrub v = v := by simp [scrub_eq, h]

theorem scrub_of_not_finite {v : Num64} (h : finite v = false) : scrub v = posZero := by simp [scrub_eq, h]

end Machine

end Sys2Proof
end

