-- ==== Sys2Proof/Laws/State.lean ====
section
/-! SUPPORT. One lemma per field per update of State, true by rfl, and the same for the two ways a command ends, so that
no later proof unfolds a record update. -/

namespace Sys2Proof.Machine

variable (s : State)

/-! `State.withResp` -/

@[simp] theorem State.withResp_build (c : RespCode) : (s.withResp c).build = s.build := rfl
@[simp] theorem State.withResp_resp (c : RespCode) : (s.withResp c).resp = c := rfl
@[simp] theorem State.withResp_status (c : RespCode) : (s.withResp c).status = s.status := rfl
@[simp] theorem State.withResp_arg0 (c : RespCode) : (s.withResp c).arg0 = s.arg0 := rfl
@[simp] theorem State.withResp_arg1 (c : RespCode) : (s.withResp c).arg1 = s.arg1 := rfl
@[simp] theorem State.withResp_arg2 (c : RespCode) : (s.withResp c).arg2 = s.arg2 := rfl
@[simp] theorem State.withResp_res0 (c : RespCode) : (s.withResp c).res0 = s.res0 := rfl
@[simp] theorem State.withResp_staged (c : RespCode) : (s.withResp c).staged = s.staged := rfl
@[simp] theorem State.withResp_cached (c : RespCode) : (s.withResp c).cached = s.cached := rfl
@[simp] theorem State.withResp_lines (c : RespCode) : (s.withResp c).lines = s.lines := rfl
@[simp] theorem State.withResp_vres (c : RespCode) : (s.withResp c).vres = s.vres := rfl
@[simp] theorem State.withResp_ws (c : RespCode) : (s.withResp c).ws = s.ws := rfl
@[simp] theorem State.withResp_inbox (c : RespCode) : (s.withResp c).inbox = s.inbox := rfl
@[simp] theorem State.withResp_replies (c : RespCode) : (s.withResp c).replies = s.replies := rfl
@[simp] theorem State.withResp_draws (c : RespCode) : (s.withResp c).draws = s.draws := rfl

/-! `State.withStatus` -/

@[simp] theorem State.withStatus_build (t : Status) : (s.withStatus t).build = s.build := rfl
@[simp] theorem State.withStatus_resp (t : Status) : (s.withStatus t).resp = s.resp := rfl
@[simp] theorem State.withStatus_status (t : Status) : (s.withStatus t).status = t := rfl
@[simp] theorem State.withStatus_arg0 (t : Status) : (s.withStatus t).arg0 = s.arg0 := rfl
@[simp] theorem State.withStatus_arg1 (t : Status) : (s.withStatus t).arg1 = s.arg1 := rfl
@[simp] theorem State.withStatus_arg2 (t : Status) : (s.withStatus t).arg2 = s.arg2 := rfl
@[simp] theorem State.withStatus_res0 (t : Status) : (s.withStatus t).res0 = s.res0 := rfl
@[simp] theorem State.withStatus_staged (t : Status) : (s.withStatus t).staged = s.staged := rfl
@[simp] theorem State.withStatus_cached (t : Status) : (s.withStatus t).cached = s.cached := rfl
@[simp] theorem State.withStatus_lines (t : Status) : (s.withStatus t).lines = s.lines := rfl
@[simp] theorem State.withStatus_vres (t : Status) : (s.withStatus t).vres = s.vres := rfl
@[simp] theorem State.withStatus_ws (t : Status) : (s.withStatus t).ws = s.ws := rfl
@[simp] theorem State.withStatus_inbox (t : Status) : (s.withStatus t).inbox = s.inbox := rfl
@[simp] theorem State.withStatus_replies (t : Status) : (s.withStatus t).replies = s.replies := rfl
@[simp] theorem State.withStatus_draws (t : Status) : (s.withStatus t).draws = s.draws := rfl

/-! `State.withRes0` -/

@[simp] theorem State.withRes0_build (v : Word) : (s.withRes0 v).build = s.build := rfl
@[simp] theorem State.withRes0_resp (v : Word) : (s.withRes0 v).resp = s.resp := rfl
@[simp] theorem State.withRes0_status (v : Word) : (s.withRes0 v).status = s.status := rfl
@[simp] theorem State.withRes0_arg0 (v : Word) : (s.withRes0 v).arg0 = s.arg0 := rfl
@[simp] theorem State.withRes0_arg1 (v : Word) : (s.withRes0 v).arg1 = s.arg1 := rfl
@[simp] theorem State.withRes0_arg2 (v : Word) : (s.withRes0 v).arg2 = s.arg2 := rfl
@[simp] theorem State.withRes0_res0 (v : Word) : (s.withRes0 v).res0 = v := rfl
@[simp] theorem State.withRes0_staged (v : Word) : (s.withRes0 v).staged = s.staged := rfl
@[simp] theorem State.withRes0_cached (v : Word) : (s.withRes0 v).cached = s.cached := rfl
@[simp] theorem State.withRes0_lines (v : Word) : (s.withRes0 v).lines = s.lines := rfl
@[simp] theorem State.withRes0_vres (v : Word) : (s.withRes0 v).vres = s.vres := rfl
@[simp] theorem State.withRes0_ws (v : Word) : (s.withRes0 v).ws = s.ws := rfl
@[simp] theorem State.withRes0_inbox (v : Word) : (s.withRes0 v).inbox = s.inbox := rfl
@[simp] theorem State.withRes0_replies (v : Word) : (s.withRes0 v).replies = s.replies := rfl
@[simp] theorem State.withRes0_draws (v : Word) : (s.withRes0 v).draws = s.draws := rfl

/-! `State.withVres` -/

@[simp] theorem State.withVres_build (v : List Word) : (s.withVres v).build = s.build := rfl
@[simp] theorem State.withVres_resp (v : List Word) : (s.withVres v).resp = s.resp := rfl
@[simp] theorem State.withVres_status (v : List Word) : (s.withVres v).status = s.status := rfl
@[simp] theorem State.withVres_arg0 (v : List Word) : (s.withVres v).arg0 = s.arg0 := rfl
@[simp] theorem State.withVres_arg1 (v : List Word) : (s.withVres v).arg1 = s.arg1 := rfl
@[simp] theorem State.withVres_arg2 (v : List Word) : (s.withVres v).arg2 = s.arg2 := rfl
@[simp] theorem State.withVres_res0 (v : List Word) : (s.withVres v).res0 = s.res0 := rfl
@[simp] theorem State.withVres_staged (v : List Word) : (s.withVres v).staged = s.staged := rfl
@[simp] theorem State.withVres_cached (v : List Word) : (s.withVres v).cached = s.cached := rfl
@[simp] theorem State.withVres_lines (v : List Word) : (s.withVres v).lines = s.lines := rfl
@[simp] theorem State.withVres_vres (v : List Word) : (s.withVres v).vres = v := rfl
@[simp] theorem State.withVres_ws (v : List Word) : (s.withVres v).ws = s.ws := rfl
@[simp] theorem State.withVres_inbox (v : List Word) : (s.withVres v).inbox = s.inbox := rfl
@[simp] theorem State.withVres_replies (v : List Word) : (s.withVres v).replies = s.replies := rfl
@[simp] theorem State.withVres_draws (v : List Word) : (s.withVres v).draws = s.draws := rfl

/-! `State.withLines` -/

@[simp] theorem State.withLines_build (l : List Line) : (s.withLines l).build = s.build := rfl
@[simp] theorem State.withLines_resp (l : List Line) : (s.withLines l).resp = s.resp := rfl
@[simp] theorem State.withLines_status (l : List Line) : (s.withLines l).status = s.status := rfl
@[simp] theorem State.withLines_arg0 (l : List Line) : (s.withLines l).arg0 = s.arg0 := rfl
@[simp] theorem State.withLines_arg1 (l : List Line) : (s.withLines l).arg1 = s.arg1 := rfl
@[simp] theorem State.withLines_arg2 (l : List Line) : (s.withLines l).arg2 = s.arg2 := rfl
@[simp] theorem State.withLines_res0 (l : List Line) : (s.withLines l).res0 = s.res0 := rfl
@[simp] theorem State.withLines_staged (l : List Line) : (s.withLines l).staged = s.staged := rfl
@[simp] theorem State.withLines_cached (l : List Line) : (s.withLines l).cached = s.cached := rfl
@[simp] theorem State.withLines_lines (l : List Line) : (s.withLines l).lines = l := rfl
@[simp] theorem State.withLines_vres (l : List Line) : (s.withLines l).vres = s.vres := rfl
@[simp] theorem State.withLines_ws (l : List Line) : (s.withLines l).ws = s.ws := rfl
@[simp] theorem State.withLines_inbox (l : List Line) : (s.withLines l).inbox = s.inbox := rfl
@[simp] theorem State.withLines_replies (l : List Line) : (s.withLines l).replies = s.replies := rfl
@[simp] theorem State.withLines_draws (l : List Line) : (s.withLines l).draws = s.draws := rfl

/-! `State.withWs` -/

@[simp] theorem State.withWs_build (w : List (List Num64)) : (s.withWs w).build = s.build := rfl
@[simp] theorem State.withWs_resp (w : List (List Num64)) : (s.withWs w).resp = s.resp := rfl
@[simp] theorem State.withWs_status (w : List (List Num64)) : (s.withWs w).status = s.status := rfl
@[simp] theorem State.withWs_arg0 (w : List (List Num64)) : (s.withWs w).arg0 = s.arg0 := rfl
@[simp] theorem State.withWs_arg1 (w : List (List Num64)) : (s.withWs w).arg1 = s.arg1 := rfl
@[simp] theorem State.withWs_arg2 (w : List (List Num64)) : (s.withWs w).arg2 = s.arg2 := rfl
@[simp] theorem State.withWs_res0 (w : List (List Num64)) : (s.withWs w).res0 = s.res0 := rfl
@[simp] theorem State.withWs_staged (w : List (List Num64)) : (s.withWs w).staged = s.staged := rfl
@[simp] theorem State.withWs_cached (w : List (List Num64)) : (s.withWs w).cached = s.cached := rfl
@[simp] theorem State.withWs_lines (w : List (List Num64)) : (s.withWs w).lines = s.lines := rfl
@[simp] theorem State.withWs_vres (w : List (List Num64)) : (s.withWs w).vres = s.vres := rfl
@[simp] theorem State.withWs_ws (w : List (List Num64)) : (s.withWs w).ws = w := rfl
@[simp] theorem State.withWs_inbox (w : List (List Num64)) : (s.withWs w).inbox = s.inbox := rfl
@[simp] theorem State.withWs_replies (w : List (List Num64)) : (s.withWs w).replies = s.replies := rfl
@[simp] theorem State.withWs_draws (w : List (List Num64)) : (s.withWs w).draws = s.draws := rfl

/-! `State.withStaged` -/

@[simp] theorem State.withStaged_build (p : Params) : (s.withStaged p).build = s.build := rfl
@[simp] theorem State.withStaged_resp (p : Params) : (s.withStaged p).resp = s.resp := rfl
@[simp] theorem State.withStaged_status (p : Params) : (s.withStaged p).status = s.status := rfl
@[simp] theorem State.withStaged_arg0 (p : Params) : (s.withStaged p).arg0 = s.arg0 := rfl
@[simp] theorem State.withStaged_arg1 (p : Params) : (s.withStaged p).arg1 = s.arg1 := rfl
@[simp] theorem State.withStaged_arg2 (p : Params) : (s.withStaged p).arg2 = s.arg2 := rfl
@[simp] theorem State.withStaged_res0 (p : Params) : (s.withStaged p).res0 = s.res0 := rfl
@[simp] theorem State.withStaged_staged (p : Params) : (s.withStaged p).staged = p := rfl
@[simp] theorem State.withStaged_cached (p : Params) : (s.withStaged p).cached = s.cached := rfl
@[simp] theorem State.withStaged_lines (p : Params) : (s.withStaged p).lines = s.lines := rfl
@[simp] theorem State.withStaged_vres (p : Params) : (s.withStaged p).vres = s.vres := rfl
@[simp] theorem State.withStaged_ws (p : Params) : (s.withStaged p).ws = s.ws := rfl
@[simp] theorem State.withStaged_inbox (p : Params) : (s.withStaged p).inbox = s.inbox := rfl
@[simp] theorem State.withStaged_replies (p : Params) : (s.withStaged p).replies = s.replies := rfl
@[simp] theorem State.withStaged_draws (p : Params) : (s.withStaged p).draws = s.draws := rfl

/-! `State.withCached` -/

@[simp] theorem State.withCached_build (p : Params) : (s.withCached p).build = s.build := rfl
@[simp] theorem State.withCached_resp (p : Params) : (s.withCached p).resp = s.resp := rfl
@[simp] theorem State.withCached_status (p : Params) : (s.withCached p).status = s.status := rfl
@[simp] theorem State.withCached_arg0 (p : Params) : (s.withCached p).arg0 = s.arg0 := rfl
@[simp] theorem State.withCached_arg1 (p : Params) : (s.withCached p).arg1 = s.arg1 := rfl
@[simp] theorem State.withCached_arg2 (p : Params) : (s.withCached p).arg2 = s.arg2 := rfl
@[simp] theorem State.withCached_res0 (p : Params) : (s.withCached p).res0 = s.res0 := rfl
@[simp] theorem State.withCached_staged (p : Params) : (s.withCached p).staged = s.staged := rfl
@[simp] theorem State.withCached_cached (p : Params) : (s.withCached p).cached = p := rfl
@[simp] theorem State.withCached_lines (p : Params) : (s.withCached p).lines = s.lines := rfl
@[simp] theorem State.withCached_vres (p : Params) : (s.withCached p).vres = s.vres := rfl
@[simp] theorem State.withCached_ws (p : Params) : (s.withCached p).ws = s.ws := rfl
@[simp] theorem State.withCached_inbox (p : Params) : (s.withCached p).inbox = s.inbox := rfl
@[simp] theorem State.withCached_replies (p : Params) : (s.withCached p).replies = s.replies := rfl
@[simp] theorem State.withCached_draws (p : Params) : (s.withCached p).draws = s.draws := rfl

/-! `State.withArg0` -/

@[simp] theorem State.withArg0_build (v : Word) : (s.withArg0 v).build = s.build := rfl
@[simp] theorem State.withArg0_resp (v : Word) : (s.withArg0 v).resp = s.resp := rfl
@[simp] theorem State.withArg0_status (v : Word) : (s.withArg0 v).status = s.status := rfl
@[simp] theorem State.withArg0_arg0 (v : Word) : (s.withArg0 v).arg0 = v := rfl
@[simp] theorem State.withArg0_arg1 (v : Word) : (s.withArg0 v).arg1 = s.arg1 := rfl
@[simp] theorem State.withArg0_arg2 (v : Word) : (s.withArg0 v).arg2 = s.arg2 := rfl
@[simp] theorem State.withArg0_res0 (v : Word) : (s.withArg0 v).res0 = s.res0 := rfl
@[simp] theorem State.withArg0_staged (v : Word) : (s.withArg0 v).staged = s.staged := rfl
@[simp] theorem State.withArg0_cached (v : Word) : (s.withArg0 v).cached = s.cached := rfl
@[simp] theorem State.withArg0_lines (v : Word) : (s.withArg0 v).lines = s.lines := rfl
@[simp] theorem State.withArg0_vres (v : Word) : (s.withArg0 v).vres = s.vres := rfl
@[simp] theorem State.withArg0_ws (v : Word) : (s.withArg0 v).ws = s.ws := rfl
@[simp] theorem State.withArg0_inbox (v : Word) : (s.withArg0 v).inbox = s.inbox := rfl
@[simp] theorem State.withArg0_replies (v : Word) : (s.withArg0 v).replies = s.replies := rfl
@[simp] theorem State.withArg0_draws (v : Word) : (s.withArg0 v).draws = s.draws := rfl

/-! `State.withArg1` -/

@[simp] theorem State.withArg1_build (v : Word) : (s.withArg1 v).build = s.build := rfl
@[simp] theorem State.withArg1_resp (v : Word) : (s.withArg1 v).resp = s.resp := rfl
@[simp] theorem State.withArg1_status (v : Word) : (s.withArg1 v).status = s.status := rfl
@[simp] theorem State.withArg1_arg0 (v : Word) : (s.withArg1 v).arg0 = s.arg0 := rfl
@[simp] theorem State.withArg1_arg1 (v : Word) : (s.withArg1 v).arg1 = v := rfl
@[simp] theorem State.withArg1_arg2 (v : Word) : (s.withArg1 v).arg2 = s.arg2 := rfl
@[simp] theorem State.withArg1_res0 (v : Word) : (s.withArg1 v).res0 = s.res0 := rfl
@[simp] theorem State.withArg1_staged (v : Word) : (s.withArg1 v).staged = s.staged := rfl
@[simp] theorem State.withArg1_cached (v : Word) : (s.withArg1 v).cached = s.cached := rfl
@[simp] theorem State.withArg1_lines (v : Word) : (s.withArg1 v).lines = s.lines := rfl
@[simp] theorem State.withArg1_vres (v : Word) : (s.withArg1 v).vres = s.vres := rfl
@[simp] theorem State.withArg1_ws (v : Word) : (s.withArg1 v).ws = s.ws := rfl
@[simp] theorem State.withArg1_inbox (v : Word) : (s.withArg1 v).inbox = s.inbox := rfl
@[simp] theorem State.withArg1_replies (v : Word) : (s.withArg1 v).replies = s.replies := rfl
@[simp] theorem State.withArg1_draws (v : Word) : (s.withArg1 v).draws = s.draws := rfl

/-! `State.withArg2` -/

@[simp] theorem State.withArg2_build (v : Word) : (s.withArg2 v).build = s.build := rfl
@[simp] theorem State.withArg2_resp (v : Word) : (s.withArg2 v).resp = s.resp := rfl
@[simp] theorem State.withArg2_status (v : Word) : (s.withArg2 v).status = s.status := rfl
@[simp] theorem State.withArg2_arg0 (v : Word) : (s.withArg2 v).arg0 = s.arg0 := rfl
@[simp] theorem State.withArg2_arg1 (v : Word) : (s.withArg2 v).arg1 = s.arg1 := rfl
@[simp] theorem State.withArg2_arg2 (v : Word) : (s.withArg2 v).arg2 = v := rfl
@[simp] theorem State.withArg2_res0 (v : Word) : (s.withArg2 v).res0 = s.res0 := rfl
@[simp] theorem State.withArg2_staged (v : Word) : (s.withArg2 v).staged = s.staged := rfl
@[simp] theorem State.withArg2_cached (v : Word) : (s.withArg2 v).cached = s.cached := rfl
@[simp] theorem State.withArg2_lines (v : Word) : (s.withArg2 v).lines = s.lines := rfl
@[simp] theorem State.withArg2_vres (v : Word) : (s.withArg2 v).vres = s.vres := rfl
@[simp] theorem State.withArg2_ws (v : Word) : (s.withArg2 v).ws = s.ws := rfl
@[simp] theorem State.withArg2_inbox (v : Word) : (s.withArg2 v).inbox = s.inbox := rfl
@[simp] theorem State.withArg2_replies (v : Word) : (s.withArg2 v).replies = s.replies := rfl
@[simp] theorem State.withArg2_draws (v : Word) : (s.withArg2 v).draws = s.draws := rfl

/-! `State.withInbox` -/

@[simp] theorem State.withInbox_build (h : List HostAction) : (s.withInbox h).build = s.build := rfl
@[simp] theorem State.withInbox_resp (h : List HostAction) : (s.withInbox h).resp = s.resp := rfl
@[simp] theorem State.withInbox_status (h : List HostAction) : (s.withInbox h).status = s.status := rfl
@[simp] theorem State.withInbox_arg0 (h : List HostAction) : (s.withInbox h).arg0 = s.arg0 := rfl
@[simp] theorem State.withInbox_arg1 (h : List HostAction) : (s.withInbox h).arg1 = s.arg1 := rfl
@[simp] theorem State.withInbox_arg2 (h : List HostAction) : (s.withInbox h).arg2 = s.arg2 := rfl
@[simp] theorem State.withInbox_res0 (h : List HostAction) : (s.withInbox h).res0 = s.res0 := rfl
@[simp] theorem State.withInbox_staged (h : List HostAction) : (s.withInbox h).staged = s.staged := rfl
@[simp] theorem State.withInbox_cached (h : List HostAction) : (s.withInbox h).cached = s.cached := rfl
@[simp] theorem State.withInbox_lines (h : List HostAction) : (s.withInbox h).lines = s.lines := rfl
@[simp] theorem State.withInbox_vres (h : List HostAction) : (s.withInbox h).vres = s.vres := rfl
@[simp] theorem State.withInbox_ws (h : List HostAction) : (s.withInbox h).ws = s.ws := rfl
@[simp] theorem State.withInbox_inbox (h : List HostAction) : (s.withInbox h).inbox = h := rfl
@[simp] theorem State.withInbox_replies (h : List HostAction) : (s.withInbox h).replies = s.replies := rfl
@[simp] theorem State.withInbox_draws (h : List HostAction) : (s.withInbox h).draws = s.draws := rfl

/-! `State.withReplies` -/

@[simp] theorem State.withReplies_build (r : List Word) : (s.withReplies r).build = s.build := rfl
@[simp] theorem State.withReplies_resp (r : List Word) : (s.withReplies r).resp = s.resp := rfl
@[simp] theorem State.withReplies_status (r : List Word) : (s.withReplies r).status = s.status := rfl
@[simp] theorem State.withReplies_arg0 (r : List Word) : (s.withReplies r).arg0 = s.arg0 := rfl
@[simp] theorem State.withReplies_arg1 (r : List Word) : (s.withReplies r).arg1 = s.arg1 := rfl
@[simp] theorem State.withReplies_arg2 (r : List Word) : (s.withReplies r).arg2 = s.arg2 := rfl
@[simp] theorem State.withReplies_res0 (r : List Word) : (s.withReplies r).res0 = s.res0 := rfl
@[simp] theorem State.withReplies_staged (r : List Word) : (s.withReplies r).staged = s.staged := rfl
@[simp] theorem State.withReplies_cached (r : List Word) : (s.withReplies r).cached = s.cached := rfl
@[simp] theorem State.withReplies_lines (r : List Word) : (s.withReplies r).lines = s.lines := rfl
@[simp] theorem State.withReplies_vres (r : List Word) : (s.withReplies r).vres = s.vres := rfl
@[simp] theorem State.withReplies_ws (r : List Word) : (s.withReplies r).ws = s.ws := rfl
@[simp] theorem State.withReplies_inbox (r : List Word) : (s.withReplies r).inbox = s.inbox := rfl
@[simp] theorem State.withReplies_replies (r : List Word) : (s.withReplies r).replies = r := rfl
@[simp] theorem State.withReplies_draws (r : List Word) : (s.withReplies r).draws = s.draws := rfl

/-! `State.withDraws` -/

@[simp] theorem State.withDraws_build (n : Nat) : (s.withDraws n).build = s.build := rfl
@[simp] theorem State.withDraws_resp (n : Nat) : (s.withDraws n).resp = s.resp := rfl
@[simp] theorem State.withDraws_status (n : Nat) : (s.withDraws n).status = s.status := rfl
@[simp] theorem State.withDraws_arg0 (n : Nat) : (s.withDraws n).arg0 = s.arg0 := rfl
@[simp] theorem State.withDraws_arg1 (n : Nat) : (s.withDraws n).arg1 = s.arg1 := rfl
@[simp] theorem State.withDraws_arg2 (n : Nat) : (s.withDraws n).arg2 = s.arg2 := rfl
@[simp] theorem State.withDraws_res0 (n : Nat) : (s.withDraws n).res0 = s.res0 := rfl
@[simp] theorem State.withDraws_staged (n : Nat) : (s.withDraws n).staged = s.staged := rfl
@[simp] theorem State.withDraws_cached (n : Nat) : (s.withDraws n).cached = s.cached := rfl
@[simp] theorem State.withDraws_lines (n : Nat) : (s.withDraws n).lines = s.lines := rfl
@[simp] theorem State.withDraws_vres (n : Nat) : (s.withDraws n).vres = s.vres := rfl
@[simp] theorem State.withDraws_ws (n : Nat) : (s.withDraws n).ws = s.ws := rfl
@[simp] theorem State.withDraws_inbox (n : Nat) : (s.withDraws n).inbox = s.inbox := rfl
@[simp] theorem State.withDraws_replies (n : Nat) : (s.withDraws n).replies = s.replies := rfl
@[simp] theorem State.withDraws_draws (n : Nat) : (s.withDraws n).draws = n := rfl

/-! `State.complete` (R270) -/

@[simp] theorem State.complete_build : s.complete.build = s.build := rfl
@[simp] theorem State.complete_resp : s.complete.resp = .ok := rfl
@[simp] theorem State.complete_status : s.complete.status = s.status := rfl
@[simp] theorem State.complete_arg0 : s.complete.arg0 = s.arg0 := rfl
@[simp] theorem State.complete_arg1 : s.complete.arg1 = s.arg1 := rfl
@[simp] theorem State.complete_arg2 : s.complete.arg2 = s.arg2 := rfl
@[simp] theorem State.complete_res0 : s.complete.res0 = s.res0 := rfl
@[simp] theorem State.complete_staged : s.complete.staged = s.staged := rfl
@[simp] theorem State.complete_cached : s.complete.cached = s.cached := rfl
@[simp] theorem State.complete_lines : s.complete.lines = s.lines := rfl
@[simp] theorem State.complete_vres : s.complete.vres = s.vres := rfl
@[simp] theorem State.complete_ws : s.complete.ws = s.ws := rfl
@[simp] theorem State.complete_inbox : s.complete.inbox = s.inbox := rfl
@[simp] theorem State.complete_replies : s.complete.replies = s.replies := rfl
@[simp] theorem State.complete_draws : s.complete.draws = s.draws := rfl

/-! `State.refuse` (R281) -/

@[simp] theorem State.refuse_build (c : RespCode) : (s.refuse c).build = s.build := rfl
@[simp] theorem State.refuse_resp (c : RespCode) : (s.refuse c).resp = c := rfl
@[simp] theorem State.refuse_status (c : RespCode) : (s.refuse c).status = { s.status with cmderr := true } := rfl
@[simp] theorem State.refuse_arg0 (c : RespCode) : (s.refuse c).arg0 = s.arg0 := rfl
@[simp] theorem State.refuse_arg1 (c : RespCode) : (s.refuse c).arg1 = s.arg1 := rfl
@[simp] theorem State.refuse_arg2 (c : RespCode) : (s.refuse c).arg2 = s.arg2 := rfl
@[simp] theorem State.refuse_res0 (c : RespCode) : (s.refuse c).res0 = s.res0 := rfl
@[simp] theorem State.refuse_staged (c : RespCode) : (s.refuse c).staged = s.staged := rfl
@[simp] theorem State.refuse_cached (c : RespCode) : (s.refuse c).cached = s.cached := rfl
@[simp] theorem State.refuse_lines (c : RespCode) : (s.refuse c).lines = s.lines := rfl
@[simp] theorem State.refuse_vres (c : RespCode) : (s.refuse c).vres = s.vres := rfl
@[simp] theorem State.refuse_ws (c : RespCode) : (s.refuse c).ws = s.ws := rfl
@[simp] theorem State.refuse_inbox (c : RespCode) : (s.refuse c).inbox = s.inbox := rfl
@[simp] theorem State.refuse_replies (c : RespCode) : (s.refuse c).replies = s.replies := rfl
@[simp] theorem State.refuse_draws (c : RespCode) : (s.refuse c).draws = s.draws := rfl

/-! `State.addrError` (R64) -/

@[simp] theorem State.addrError_build : s.addrError.build = s.build := rfl
@[simp] theorem State.addrError_resp : s.addrError.resp = s.resp := rfl
@[simp] theorem State.addrError_status : s.addrError.status = { s.status with addrerr := true } := rfl
@[simp] theorem State.addrError_arg0 : s.addrError.arg0 = s.arg0 := rfl
@[simp] theorem State.addrError_arg1 : s.addrError.arg1 = s.arg1 := rfl
@[simp] theorem State.addrError_arg2 : s.addrError.arg2 = s.arg2 := rfl
@[simp] theorem State.addrError_res0 : s.addrError.res0 = s.res0 := rfl
@[simp] theorem State.addrError_staged : s.addrError.staged = s.staged := rfl
@[simp] theorem State.addrError_cached : s.addrError.cached = s.cached := rfl
@[simp] theorem State.addrError_lines : s.addrError.lines = s.lines := rfl
@[simp] theorem State.addrError_vres : s.addrError.vres = s.vres := rfl
@[simp] theorem State.addrError_ws : s.addrError.ws = s.ws := rfl
@[simp] theorem State.addrError_inbox : s.addrError.inbox = s.inbox := rfl
@[simp] theorem State.addrError_replies : s.addrError.replies = s.replies := rfl
@[simp] theorem State.addrError_draws : s.addrError.draws = s.draws := rfl

/-! `State.noteNonfin` (R146) -/

@[simp] theorem State.noteNonfin_build (b : Bool) : (s.noteNonfin b).build = s.build := rfl
@[simp] theorem State.noteNonfin_resp (b : Bool) : (s.noteNonfin b).resp = s.resp := rfl
@[simp] theorem State.noteNonfin_status (b : Bool) : (s.noteNonfin b).status = { s.status with nonfin := s.status.nonfin || b } := rfl
@[simp] theorem State.noteNonfin_arg0 (b : Bool) : (s.noteNonfin b).arg0 = s.arg0 := rfl
@[simp] theorem State.noteNonfin_arg1 (b : Bool) : (s.noteNonfin b).arg1 = s.arg1 := rfl
@[simp] theorem State.noteNonfin_arg2 (b : Bool) : (s.noteNonfin b).arg2 = s.arg2 := rfl
@[simp] theorem State.noteNonfin_res0 (b : Bool) : (s.noteNonfin b).res0 = s.res0 := rfl
@[simp] theorem State.noteNonfin_staged (b : Bool) : (s.noteNonfin b).staged = s.staged := rfl
@[simp] theorem State.noteNonfin_cached (b : Bool) : (s.noteNonfin b).cached = s.cached := rfl
@[simp] theorem State.noteNonfin_lines (b : Bool) : (s.noteNonfin b).lines = s.lines := rfl
@[simp] theorem State.noteNonfin_vres (b : Bool) : (s.noteNonfin b).vres = s.vres := rfl
@[simp] theorem State.noteNonfin_ws (b : Bool) : (s.noteNonfin b).ws = s.ws := rfl
@[simp] theorem State.noteNonfin_inbox (b : Bool) : (s.noteNonfin b).inbox = s.inbox := rfl
@[simp] theorem State.noteNonfin_replies (b : Bool) : (s.noteNonfin b).replies = s.replies := rfl
@[simp] theorem State.noteNonfin_draws (b : Bool) : (s.noteNonfin b).draws = s.draws := rfl

/-! `State.setRes0Pure` (R126) -/

@[simp] theorem State.setRes0Pure_build (v : Num64) : (s.setRes0Pure v).build = s.build := by
  unfold State.setRes0Pure; split <;> rfl
@[simp] theorem State.setRes0Pure_resp (v : Num64) : (s.setRes0Pure v).resp = s.resp := by
  unfold State.setRes0Pure; split <;> rfl
@[simp] theorem State.setRes0Pure_status (v : Num64) : (s.setRes0Pure v).status = s.status := by
  unfold State.setRes0Pure; split <;> rfl
@[simp] theorem State.setRes0Pure_arg0 (v : Num64) : (s.setRes0Pure v).arg0 = s.arg0 := by
  unfold State.setRes0Pure; split <;> rfl
@[simp] theorem State.setRes0Pure_arg1 (v : Num64) : (s.setRes0Pure v).arg1 = s.arg1 := by
  unfold State.setRes0Pure; split <;> rfl
@[simp] theorem State.setRes0Pure_arg2 (v : Num64) : (s.setRes0Pure v).arg2 = s.arg2 := by
  unfold State.setRes0Pure; split <;> rfl
@[simp] theorem State.setRes0Pure_staged (v : Num64) : (s.setRes0Pure v).staged = s.staged := by
  unfold State.setRes0Pure; split <;> rfl
@[simp] theorem State.setRes0Pure_cached (v : Num64) : (s.setRes0Pure v).cached = s.cached := by
  unfold State.setRes0Pure; split <;> rfl
@[simp] theorem State.setRes0Pure_lines (v : Num64) : (s.setRes0Pure v).lines = s.lines := by
  unfold State.setRes0Pure; split <;> rfl
@[simp] theorem State.setRes0Pure_vres (v : Num64) : (s.setRes0Pure v).vres = s.vres := by
  unfold State.setRes0Pure; split <;> rfl
@[simp] theorem State.setRes0Pure_ws (v : Num64) : (s.setRes0Pure v).ws = s.ws := by
  unfold State.setRes0Pure; split <;> rfl
@[simp] theorem State.setRes0Pure_inbox (v : Num64) : (s.setRes0Pure v).inbox = s.inbox := by
  unfold State.setRes0Pure; split <;> rfl
@[simp] theorem State.setRes0Pure_replies (v : Num64) : (s.setRes0Pure v).replies = s.replies := by
  unfold State.setRes0Pure; split <;> rfl

end Sys2Proof.Machine
end

