-- ==== Sys2Proof/Laws/Ops.lean ====
section
/-! SUPPORT. What each shared operation can do, said once: the checks of a command, the delay-line primitives and that they
keep a line's content as long as its length, the one-pole filter, and the host's accesses. -/

namespace Sys2Proof.Machine

/-- A checked command either ends in the refusal of its failed check or goes on. -/
theorem refuseIf_cases (bad : Bool) (c : RespCode) (s : State) (rest : Result) :
    (bad = true ∧ refuseIf bad c s rest = .next (s.refuse c)) ∨ (bad = false ∧ refuseIf bad c s rest = rest) := by
  cases bad
  · exact .inr ⟨rfl, rfl⟩
  · exact .inl ⟨rfl, rfl⟩

@[simp] theorem refuseIf_true (c : RespCode) (s : State) (rest : Result) :
    refuseIf true c s rest = .next (s.refuse c) := rfl

@[simp] theorem refuseIf_false (c : RespCode) (s : State) (rest : Result) : refuseIf false c s rest = rest := rfl

/-! ### Delay lines: the bank's canonical form is `DL[i].length = PLEN[i]` -/

/-- The content of a line is as long as its length says. -/
abbrev LineOf.wf (l : Line) : Prop := l.dl.length = l.plen

theorem LineOf.out_eq (l : Line) : l.out = l.dl.getD (l.plen - 1) posZero := rfl

@[simp] theorem LineOf.push_plen (l : Line) (v : Num64) : (l.push v).plen = l.plen := rfl
@[simp] theorem LineOf.push_g (l : Line) (v : Num64) : (l.push v).g = l.g := rfl
@[simp] theorem LineOf.push_z (l : Line) (v : Num64) : (l.push v).z = l.z := rfl
@[simp] theorem LineOf.push_xavg (l : Line) (v : Num64) : (l.push v).xavg = l.xavg := rfl
@[simp] theorem LineOf.push_flo (l : Line) (v : Num64) : (l.push v).flo = l.flo := rfl
@[simp] theorem LineOf.push_fce (l : Line) (v : Num64) : (l.push v).fce = l.fce := rfl
@[simp] theorem LineOf.push_dl (l : Line) (v : Num64) : (l.push v).dl = v :: l.dl.take (l.plen - 1) := rfl
@[simp] theorem LineOf.stretch_plen (l : Line) (n : Nat) : (l.stretch n).plen = n := rfl
@[simp] theorem LineOf.stretch_g (l : Line) (n : Nat) : (l.stretch n).g = l.g := rfl
@[simp] theorem LineOf.stretch_z (l : Line) (n : Nat) : (l.stretch n).z = l.z := rfl
@[simp] theorem LineOf.stretch_xavg (l : Line) (n : Nat) : (l.stretch n).xavg = l.xavg := rfl
@[simp] theorem LineOf.stretch_flo (l : Line) (n : Nat) : (l.stretch n).flo = l.flo := rfl
@[simp] theorem LineOf.stretch_fce (l : Line) (n : Nat) : (l.stretch n).fce = l.fce := rfl
@[simp] theorem LineOf.silence_plen (l : Line) : l.silence.plen = l.plen := rfl
@[simp] theorem LineOf.silence_g (l : Line) : l.silence.g = l.g := rfl
@[simp] theorem LineOf.silence_xavg (l : Line) : l.silence.xavg = l.xavg := rfl
@[simp] theorem LineOf.silence_z (l : Line) : l.silence.z = posZero := rfl
@[simp] theorem LineOf.silence_flo (l : Line) : l.silence.flo = posZero := rfl
@[simp] theorem LineOf.silence_fce (l : Line) : l.silence.fce = posZero := rfl
@[simp] theorem LineOf.silence_dl (l : Line) : l.silence.dl = List.replicate l.plen posZero := rfl

theorem LineOf.push_wf {l : Line} (h : l.wf) (hp : 1 ≤ l.plen) (v : Num64) : (l.push v).wf := by
  simp only [LineOf.wf, LineOf.push_dl, LineOf.push_plen, List.length_cons, List.length_take] at h ⊢
  omega

theorem LineOf.stretch_wf {l : Line} (h : l.wf) (n : Nat) : (l.stretch n).wf := by
  simp only [LineOf.wf, LineOf.stretch, NumFormat.stretch] at h ⊢
  split
  · simp only [List.length_take]; omega
  · split
    · simp only [List.length_append, List.length_replicate]; omega
    · omega

theorem LineOf.fill_wf (l : Line) (v : Num64) : (l.fill v).wf := by simp [LineOf.wf, LineOf.fill]

theorem LineOf.silence_wf (l : Line) : l.silence.wf := by simp [LineOf.wf]

/-- A sample of a stretched line is a sample of the line or a silent one. -/
theorem LineOf.mem_stretch {l : Line} {n : Nat} {x : Num64} (h : x ∈ (l.stretch n).dl) :
    x ∈ l.dl ∨ x = posZero := by
  simp only [LineOf.stretch, NumFormat.stretch] at h
  split at h
  · exact .inl (List.mem_of_mem_take h)
  · split at h
    · rcases List.mem_append.1 h with h | h
      · exact .inl h
      · exact .inr (List.eq_of_mem_replicate h)
    · exact .inl h

/-- A sample of a line after a push is the pushed one or was there before. -/
theorem LineOf.mem_push {l : Line} {v x : Num64} (h : x ∈ (l.push v).dl) : x = v ∨ x ∈ l.dl := by
  rcases List.mem_cons.1 h with h | h
  · exact .inl h
  · exact .inr (List.mem_of_mem_take h)

/-! ### The magnitudes of the matrices: the square root of every build gives the same two words -/

theorem pmag_eq (b : Build) : b.numeric.pmag = 0x3FE6A09E667F3BCD#64 := by
  have h : fsqrt half = 0x3FE6A09E667F3BCD#64 := by decide +kernel
  simp only [NumConfig.pmag, Build.numeric_functions, Build.numeric_format, binary64_half]
  rw [b.sqrt_eq (by rw [h]; decide), h]

theorem hmag_eq (b : Build) : b.numeric.hmag b = fsqrt (fdiv one (numOfNat b.M)) := by
  have hL := b.legal
  simp only [buildLegal, Bool.and_eq_true, decide_eq_true_eq] at hL
  obtain ⟨⟨⟨⟨h2, h8⟩, _⟩, _⟩, _⟩ := hL
  have h : ∀ L, 2 ≤ L → L ≤ 8 → isNaN (fsqrt (fdiv one (numOfNat (2 ^ L)))) = false := fun L _ _ => by
    interval_cases L <;> decide +kernel
  simp only [NumConfig.hmag, Build.numeric_functions, Build.numeric_format, binary64_one, binary64_div, binary64_ofNat]
  exact b.sqrt_eq (h b.L h2 h8)

/-! ### The one-pole filter -/

/-- One call of the filter of a build, in the operations of binary64. -/
theorem onepole_eq (b : Build) (st fc fs x : Num64) :
    b.numeric.onepole st fc fs x =
      let lo := fadd st (fmul (b.functions.alpha fc fs) (fsub x st))
      ⟨scrub lo, lo, fsub x lo, !finite lo⟩ := rfl

@[simp] theorem onepole_finite (b : Build) (st fc fs x : Num64) :
    finite (b.numeric.onepole st fc fs x).st = true := scrub_finite _

/-- Damping a line changes its two filter memories only, and leaves them finite. -/
theorem dampLine_frame (b : Build) (fl ce fs : Num64) (l : Line) :
    (b.numeric.dampLine fl ce fs l).line.dl = l.dl ∧ (b.numeric.dampLine fl ce fs l).line.plen = l.plen ∧
    (b.numeric.dampLine fl ce fs l).line.g = l.g ∧ (b.numeric.dampLine fl ce fs l).line.xavg = l.xavg ∧
    finite (b.numeric.dampLine fl ce fs l).line.flo = true ∧
    finite (b.numeric.dampLine fl ce fs l).line.fce = true := by
  unfold NumConfig.dampLine
  split <;> simp

/-! ### The host's accesses -/

/-- A host store either writes one host-writable register or only sets `ADDRERR`. -/
theorem hostStore_cases (s : State) (a : Addr) (v : Word) :
    (∃ r, Reg.ofAddr s.build a = some r ∧ r.hostWritable = true ∧ s.hostStore a v = s.writeReg v r) ∨
      s.hostStore a v = s.addrError := by
  unfold State.hostStore
  split
  · rename_i r hr
    by_cases hw : r.hostWritable = true
    · exact .inl ⟨r, hr, hw, by simp [hw]⟩
    · exact .inr (by simp [hw])
  · exact .inr rfl

/-- A host read adds one reply and at most sets `ADDRERR`. -/
theorem hostRead_cases (s : State) (a : Addr) :
    (∃ r, Reg.ofAddr s.build a = some r ∧ s.hostRead a = s.withReplies (s.readReg r :: s.replies)) ∨
      (Reg.ofAddr s.build a = none ∧ s.hostRead a = s.addrError.withReplies (0#64 :: s.replies)) := by
  unfold State.hostRead
  split
  · rename_i r hr
    exact .inl ⟨r, hr, rfl⟩
  · rename_i hr
    exact .inr ⟨hr, rfl⟩

end Sys2Proof.Machine
end

