-- ==== Sys2Proof/Laws/PerInstr.lean ====
section
/-! SUPPORT. Statements about every instruction, one lemma per constructor (LAWS.json names the families). -/

/-- The encoding of a command has zero reserved bits, its opcode in `w[7:0]` and its index in `w[23:8]`
(30_encoding.md R90, R92). -/
def Sys2Proof.Laws.EncodingFields.Statement (i : Sys2Proof.Instr) : Prop :=
  Sys2Proof.rsvField (Sys2Proof.encode i) = 0#40 ∧ Sys2Proof.opField (Sys2Proof.encode i) = i.opcode
    ∧ Sys2Proof.idxField (Sys2Proof.encode i) = i.index

namespace Sys2Proof.Laws.EncodingFields

theorem nop : Statement .nop := by simp [Statement, encode, Instr.index]
theorem update : Statement .update := by simp [Statement, encode, Instr.index]
theorem readmix : Statement .readmix := by simp [Statement, encode, Instr.index]
theorem injwr : Statement .injwr := by simp [Statement, encode, Instr.index]
theorem suspend : Statement .suspend := by simp [Statement, encode, Instr.index]
theorem primes : Statement .primes := by simp [Statement, encode, Instr.index]
theorem cprime : Statement .cprime := by simp [Statement, encode, Instr.index]
theorem phases (k : Index) : Statement (.phases k) := by simp [Statement, encode, Instr.index]
theorem hrow (r : Index) : Statement (.hrow r) := by simp [Statement, encode, Instr.index]
theorem prow (r : Index) : Statement (.prow r) := by simp [Statement, encode, Instr.index]
theorem qrow (r : Index) : Statement (.qrow r) := by simp [Statement, encode, Instr.index]
theorem wshape (ctx : Index) : Statement (.wshape ctx) := by simp [Statement, encode, Instr.index]
theorem wsreset (ctx : Index) : Statement (.wsreset ctx) := by simp [Statement, encode, Instr.index]
theorem softclip : Statement .softclip := by simp [Statement, encode, Instr.index]
theorem x2exp : Statement .x2exp := by simp [Statement, encode, Instr.index]
theorem sigmoid : Statement .sigmoid := by simp [Statement, encode, Instr.index]

end Sys2Proof.Laws.EncodingFields
end

