-- ==== Sys2Proof/Laws/Primes.lean ====
section
/-! SUPPORT. What the prime search does: `isPrime` is the exact predicate (40_numerics.md R129), and the two searches find
the nearest primes below and above. -/

namespace Sys2Proof.Machine

theorem noDivisorFrom_iff (n : Nat) : ∀ fuel d, n < (d + fuel) * (d + fuel) →
    (noDivisorFrom n fuel d = true ↔ ∀ k, d ≤ k → k * k ≤ n → ¬ k ∣ n) := by
  intro fuel
  induction fuel with
  | zero =>
    intro d h
    simp only [noDivisorFrom, true_iff]
    intro k hk hkk
    have := Nat.mul_le_mul hk hk
    simp at h
    omega
  | succ fuel ih =>
    intro d h
    unfold noDivisorFrom
    split
    · rename_i hd
      simp only [true_iff]
      intro k hk hkk
      have := Nat.mul_le_mul hk hk
      omega
    · split
      · rename_i hd hm
        simp only [Bool.false_eq_true, false_iff]
        intro hall
        exact hall d (le_refl d) (by omega) (Nat.dvd_of_mod_eq_zero hm)
      · rename_i hd hm
        rw [ih (d + 1) (by rw [Nat.add_right_comm]; exact h)]
        constructor
        · intro hall k hk hkk
          rcases Nat.lt_or_eq_of_le hk with hlt | heq
          · exact hall k hlt hkk
          · subst heq
            intro hdvd
            exact hm (Nat.mod_eq_zero_of_dvd hdvd)
        · intro hall k hk hkk
          exact hall k (by omega) hkk

/-- R129. -/
theorem isPrime_iff (n : Nat) : isPrime n = true ↔ Nat.Prime n := by
  unfold isPrime
  rw [Bool.and_eq_true, decide_eq_true_iff, noDivisorFrom_iff n n 2 (by nlinarith)]
  constructor
  · rintro ⟨h2, hall⟩
    rw [Nat.prime_def_le_sqrt]
    exact ⟨h2, fun m hm hs => hall m hm (Nat.le_sqrt.1 hs)⟩
  · intro hp
    rw [Nat.prime_def_le_sqrt] at hp
    exact ⟨hp.1, fun k hk hkk => hp.2 k hk (Nat.le_sqrt.2 hkk)⟩

theorem primeAtMost_spec (n : Nat) : Nat.Prime (primeAtMost n) ∧ (2 ≤ n → primeAtMost n ≤ n) ∧
    ∀ q, Nat.Prime q → q ≤ n → q ≤ primeAtMost n := by
  induction n with
  | zero => exact ⟨Nat.prime_two, by omega, fun q hq h => absurd hq.two_le (by omega)⟩
  | succ n ih =>
    unfold primeAtMost
    split
    · rename_i hp
      exact ⟨(isPrime_iff _).1 hp, fun _ => le_refl _, fun q _ h => h⟩
    · rename_i hp
      obtain ⟨h1, h2, h3⟩ := ih
      refine ⟨h1, fun h => ?_, fun q hq h => ?_⟩
      · by_cases hn : 2 ≤ n
        · exact le_trans (h2 hn) (Nat.le_succ n)
        · have : n = 1 := by omega
          subst this
          exact absurd ((isPrime_iff 2).2 Nat.prime_two) hp
      · rcases Nat.lt_or_eq_of_le h with hlt | heq
        · exact h3 q hq (by omega)
        · subst heq
          exact absurd ((isPrime_iff _).2 hq) hp

/-- The upward search finds the smallest prime at least `n` when there is one among the numbers it looks at. -/
theorem primeAtLeast_spec : ∀ fuel n p, Nat.Prime p → n ≤ p → p < n + fuel →
    Nat.Prime (primeAtLeast fuel n) ∧ n ≤ primeAtLeast fuel n ∧
      ∀ q, Nat.Prime q → n ≤ q → primeAtLeast fuel n ≤ q := by
  intro fuel
  induction fuel with
  | zero => intro n p _ h1 h2; omega
  | succ fuel ih =>
    intro n p hp h1 h2
    unfold primeAtLeast
    split
    · rename_i h
      exact ⟨(isPrime_iff n).1 h, le_refl n, fun q _ hq => hq⟩
    · rename_i h
      have hne : n ≠ p := by
        rintro rfl
        exact h ((isPrime_iff n).2 hp)
      obtain ⟨a, b, c⟩ := ih (n + 1) p hp (by omega) (by omega)
      refine ⟨a, by omega, fun q hq hnq => ?_⟩
      have hne' : n ≠ q := by
        rintro rfl
        exact h ((isPrime_iff n).2 hq)
      exact c q hq (by omega)

/-- `PMAX` is a prime, at most `D`, and no prime up to `D` is larger. -/
theorem pmax_spec (b : Build) : Nat.Prime b.pmax ∧ b.pmax ≤ b.D ∧ ∀ q, Nat.Prime q → q ≤ b.D → q ≤ b.pmax := by
  obtain ⟨h1, h2, h3⟩ := primeAtMost_spec b.D
  have hD : 2 ≤ b.D := by
    have := b.legal
    simp only [buildLegal, Bool.and_eq_true, decide_eq_true_eq] at this
    omega
  exact ⟨h1, h2 hD, h3⟩

end Sys2Proof.Machine
end

