-- ==== Sys2Proof/Laws/Reals.lean ====
section
/-! SUPPORT. The formulas at the real numbers, and that the reference soft-clip meets the whole contract of `SOFTCLIP` there
(44_waveshaper.md R242: "it meets (S1) to (S6)"). -/

namespace Sys2Proof

@[simp] theorem real_zero : realFormat.zero = 0 := rfl
@[simp] theorem real_one : realFormat.one = 1 := rfl
@[simp] theorem real_two : realFormat.two = 2 := rfl
@[simp] theorem real_half : realFormat.half = 1 / 2 := rfl
@[simp] theorem real_k2ln2 : realFormat.k2ln2 = 2 / Real.log 2 := rfl
@[simp] theorem real_add (x y : ℝ) : realFormat.add x y = x + y := rfl
@[simp] theorem real_sub (x y : ℝ) : realFormat.sub x y = x - y := rfl
@[simp] theorem real_mul (x y : ℝ) : realFormat.mul x y = x * y := rfl
@[simp] theorem real_div (x y : ℝ) : realFormat.div x y = x / y := rfl
@[simp] theorem real_neg (x : ℝ) : realFormat.neg x = -x := rfl
@[simp] theorem real_ofNat (n : Nat) : realFormat.ofNat n = n := rfl
@[simp] theorem real_le (x y : ℝ) : realFormat.le x y = true ↔ x ≤ y := by simp [realFormat]
@[simp] theorem real_lt (x y : ℝ) : realFormat.lt x y = true ↔ x < y := by simp [realFormat]
@[simp] theorem real_finite (x : ℝ) : realFormat.finite x = true := rfl
@[simp] theorem real_scrub (x : ℝ) : realFormat.scrub x = x := rfl
@[simp] theorem real_scrubbed (x : ℝ) : realFormat.scrubbed x = false := rfl
@[simp] theorem overReals_format (f : FunctionsOf ℝ) : f.overReals.toNumFormat = realFormat := rfl
@[simp] theorem overReals_functions (f : FunctionsOf ℝ) : f.overReals.toFunctionsOf = f := rfl

/-- A sum of real terms is their sum. -/
theorem real_sum (l : List ℝ) : realFormat.sum l = l.sum := List.sum_eq_foldl.symm

/-! ### The reference soft-clip -/

/-- The shape of `SC0`: the curve for the bounds −1 and 1. -/
noncomputable def unitClip (t : ℝ) : ℝ := if 0 ≤ t then 1 - Real.exp (-t) else -(1 - Real.exp t)

theorem clipFormula_eq {mn mx : ℝ} (h : mn < mx) (x : ℝ) :
    realFormat.clipFormula Real.exp x mn mx =
      (mn + mx) / 2 + (mx - mn) / 2 * unitClip ((x - (mn + mx) / 2) / ((mx - mn) / 2)) := by
  have hh : 0 < (mx - mn) / 2 := by linarith
  have hd : 0 ≤ (x - (mn + mx) / 2) / ((mx - mn) / 2) ↔ 0 ≤ x - (mn + mx) / 2 := by
    rw [le_div_iff₀ hh, zero_mul]
  simp only [NumFormat.clipFormula, real_add, real_sub, real_mul, real_div, real_neg, real_half, real_one, real_zero,
    real_le, unitClip, hd, mul_one_div]
  split <;> ring

theorem unitClip_hasDerivAt (t : ℝ) : HasDerivAt unitClip (Real.exp (-|t|)) t := by
  have hp : ∀ t : ℝ, HasDerivAt (fun t => 1 - Real.exp (-t)) (Real.exp (-t)) t := fun t => by
    simpa using ((hasDerivAt_neg t).exp.const_sub 1)
  have hn : ∀ t : ℝ, HasDerivAt (fun t => -(1 - Real.exp t)) (Real.exp t) t := fun t => by
    have := ((Real.hasDerivAt_exp t).const_sub 1).neg
    rwa [neg_neg] at this
  rcases lt_trichotomy t 0 with h | rfl | h
  · rw [abs_of_neg h, neg_neg]
    refine (hn t).congr_of_eventuallyEq ?_
    filter_upwards [Iio_mem_nhds h] with y hy
    simp [unitClip, not_le.2 (Set.mem_Iio.1 hy)]
  · rw [abs_zero, neg_zero]
    have a : HasDerivWithinAt unitClip (Real.exp 0) (Set.Ici 0) 0 := by
      have := (hp 0).hasDerivWithinAt (s := Set.Ici 0)
      rw [neg_zero] at this
      exact this.congr (fun y hy => by simp [unitClip, Set.mem_Ici.1 hy]) (by simp [unitClip])
    have b : HasDerivWithinAt unitClip (Real.exp 0) (Set.Iic 0) 0 := by
      refine ((hn 0).hasDerivWithinAt (s := Set.Iic 0)).congr (fun y hy => ?_) (by simp [unitClip])
      rcases lt_or_eq_of_le (Set.mem_Iic.1 hy) with h | rfl
      · simp [unitClip, not_le.2 h]
      · simp [unitClip]
    have := b.union a
    rwa [Set.Iic_union_Ici, hasDerivWithinAt_univ] at this
  · rw [abs_of_pos h]
    refine (hp t).congr_of_eventuallyEq ?_
    filter_upwards [Ioi_mem_nhds h] with y hy
    simp [unitClip, (Set.mem_Ioi.1 hy).le]

theorem unitClip_mono : Monotone unitClip :=
  monotone_of_deriv_nonneg (fun t => (unitClip_hasDerivAt t).differentiableAt) fun t => by
    rw [(unitClip_hasDerivAt t).deriv]
    exact (Real.exp_pos _).le

theorem unitClip_range (t : ℝ) : -1 ≤ unitClip t ∧ unitClip t ≤ 1 := by
  unfold unitClip
  split
  · have h1 := Real.exp_pos (-t)
    have h2 : Real.exp (-t) ≤ 1 := Real.exp_le_one_iff.2 (by linarith)
    constructor <;> linarith
  · have h1 := Real.exp_pos t
    have h2 : Real.exp t ≤ 1 := Real.exp_le_one_iff.2 (by linarith)
    constructor <;> linarith

theorem unitClip_contDiff : ContDiff ℝ 1 unitClip := by
  rw [contDiff_one_iff_deriv]
  refine ⟨fun t => (unitClip_hasDerivAt t).differentiableAt, ?_⟩
  have : deriv unitClip = fun t => Real.exp (-|t|) := funext fun t => (unitClip_hasDerivAt t).deriv
  rw [this]
  fun_prop

theorem unitClip_atTop : Filter.Tendsto unitClip Filter.atTop (nhds 1) := by
  have h : Filter.Tendsto (fun t : ℝ => 1 - Real.exp (-t)) Filter.atTop (nhds (1 - 0)) :=
    tendsto_const_nhds.sub (Real.tendsto_exp_neg_atTop_nhds_zero)
  rw [sub_zero] at h
  refine h.congr' ?_
  filter_upwards [Filter.eventually_ge_atTop 0] with t ht
  simp [unitClip, ht]

theorem unitClip_atBot : Filter.Tendsto unitClip Filter.atBot (nhds (-1)) := by
  have h : Filter.Tendsto (fun t : ℝ => -(1 - Real.exp t)) Filter.atBot (nhds (-(1 - 0))) :=
    (tendsto_const_nhds.sub Real.tendsto_exp_atBot).neg
  rw [sub_zero] at h
  refine h.congr' ?_
  filter_upwards [Filter.eventually_lt_atBot 0] with t ht
  simp [unitClip, not_le.2 ht]

/-- `SC0` has the properties S1 to S5 over the reals. -/
theorem realFunctions_clip : RealClipLaws realFunctions.softclip := by
  have e : ∀ mn mx : ℝ, mn < mx → (fun x => realFunctions.softclip x mn mx) =
      fun x => (mn + mx) / 2 + (mx - mn) / 2 * unitClip ((x - (mn + mx) / 2) / ((mx - mn) / 2)) :=
    fun mn mx h => funext (clipFormula_eq h)
  refine ⟨fun mn mx h => ?_, fun mn mx h => ?_, fun x mn mx h => ?_, fun mn mx h => ?_, fun mn mx h => ?_, ?_⟩
  · rw [e mn mx h]
    have := unitClip_contDiff
    fun_prop
  · rw [e mn mx h]
    intro x y hxy
    have hh : 0 < (mx - mn) / 2 := by linarith
    have := unitClip_mono (div_le_div_of_nonneg_right (sub_le_sub_right hxy ((mn + mx) / 2)) hh.le)
    dsimp only
    nlinarith
  · rw [congrFun (e mn mx h) x]
    have := unitClip_range ((x - (mn + mx) / 2) / ((mx - mn) / 2))
    constructor <;> nlinarith
  · rw [e mn mx h]
    have hh : 0 < (mx - mn) / 2 := by linarith
    have ht : Filter.Tendsto (fun x : ℝ => (x - (mn + mx) / 2) / ((mx - mn) / 2)) Filter.atTop Filter.atTop :=
      (Filter.tendsto_atTop_add_const_right _ _ Filter.tendsto_id).atTop_div_const hh
    have := (((unitClip_atTop.comp ht).const_mul ((mx - mn) / 2)).const_add ((mn + mx) / 2))
    rwa [show (mn + mx) / 2 + (mx - mn) / 2 * 1 = mx by ring] at this
  · rw [e mn mx h]
    have hh : 0 < (mx - mn) / 2 := by linarith
    have ht : Filter.Tendsto (fun x : ℝ => (x - (mn + mx) / 2) / ((mx - mn) / 2)) Filter.atBot Filter.atBot :=
      (Filter.tendsto_atBot_add_const_right _ _ Filter.tendsto_id).atBot_div_const hh
    have := (((unitClip_atBot.comp ht).const_mul ((mx - mn) / 2)).const_add ((mn + mx) / 2))
    rwa [show (mn + mx) / 2 + (mx - mn) / 2 * -1 = mn by ring] at this
  · have := clipFormula_eq (show (-1 : ℝ) < 1 by norm_num) 0
    simp only [realFunctions, this]
    simp [unitClip]

end Sys2Proof
end

