-- ==== Sys2Proof/Laws/Step.lean ====
section
/-! SUPPORT. What a command and a step can do, said once: a command ends in a refusal or in its completed state, and a step
is one of five host transactions. -/

namespace Sys2Proof.Machine

/-- The completed state of each command: what its rule writes when no check fails. -/
def completed (i : Instr) (s : State) : State :=
  match i with
  | .nop => s.complete
  | .update => (((s.withLines (updatedLines s)).withCached s.staged).withStatus
      { s.status with cfgv := true }).complete
  | .readmix => ((s.withLines (readmixLines s)).withStatus
      { s.status with nonfin := s.status.nonfin || readmixScrubs s, ph := true, est := .running }).complete
  | .injwr => (((s.withLines (injwrLines s)).withRes0 (scrub (poppedSum s))).withStatus
      { s.status with nonfin := s.status.nonfin || injwrScrubs s, ph := false }).complete
  | .suspend => ((s.withLines (s.lines.map LineOf.silence)).withStatus
      { s.status with ph := false, est := .suspended }).complete
  | .primes => (s.withVres ((primesDist s.build s.arg0 s.arg1).map wordn)).complete
  | .cprime => (s.withRes0 (wordn (cprime s.build s.arg0))).complete
  | .phases k => (s.withVres (phaseRow s.build k.toNat)).complete
  | .hrow r => (s.withVres (hRow s.build r.toNat)).complete
  | .prow r => (s.withVres (pRow s.build r.toNat)).complete
  | .qrow r => (s.withVres (qRow s.build r.toNat)).complete
  | .wshape ctx =>
    let sig := s.build.numeric.stages s.build.ws s.arg0 s.arg1 (s.context ctx.toNat)
    let y := s.build.numeric.finalClip s.build.ws sig.u
    (((s.withWs (s.ws.set ctx.toNat sig.mems)).withRes0 (scrub y)).noteNonfin (sig.nonfin || scrubbed y)).complete
  | .wsreset ctx => (s.withWs (s.ws.set ctx.toNat (List.replicate 9 posZero))).complete
  | .softclip => (s.setRes0Pure (s.build.functions.softclip s.arg0 s.arg1 s.arg2)).complete
  | .x2exp => (s.setRes0Pure (x2exp s.build s.arg0)).complete
  | .sigmoid => (s.setRes0Pure (sigmoid s.build s.arg0)).complete

/-- Every command ends in a refusal with a code other than `OK` or in its completed state. -/
theorem exec_cases (i : Instr) (s : State) :
    (∃ c, c ≠ .ok ∧ exec i s = .next (s.refuse c)) ∨ exec i s = .next (completed i s) := by
  cases i with
  | nop => exact .inr rfl
  | suspend => exact .inr rfl
  | primes => exact .inr rfl
  | cprime => exact .inr rfl
  | x2exp => exact .inr rfl
  | sigmoid => exact .inr rfl
  | update =>
    simp only [exec, execUpdate]
    rcases refuseIf_cases s.status.ph .seq s _ with ⟨_, h⟩ | ⟨_, h⟩ <;> rw [h]
    · exact .inl ⟨_, by decide, rfl⟩
    rcases refuseIf_cases (!paramsLegal s.build s.staged) .badParam s _ with ⟨_, h⟩ | ⟨_, h⟩ <;> rw [h]
    · exact .inl ⟨_, by decide, rfl⟩
    · exact .inr rfl
  | readmix =>
    simp only [exec, execReadmix]
    rcases refuseIf_cases (!s.status.cfgv) .notConfigured s _ with ⟨_, h⟩ | ⟨_, h⟩ <;> rw [h]
    · exact .inl ⟨_, by decide, rfl⟩
    rcases refuseIf_cases s.status.ph .seq s _ with ⟨_, h⟩ | ⟨_, h⟩ <;> rw [h]
    · exact .inl ⟨_, by decide, rfl⟩
    rcases refuseIf_cases (!rateLegal s.arg0) .badArg s _ with ⟨_, h⟩ | ⟨_, h⟩ <;> rw [h]
    · exact .inl ⟨_, by decide, rfl⟩
    · exact .inr rfl
  | injwr =>
    simp only [exec, execInjwr]
    rcases refuseIf_cases (!s.status.cfgv) .notConfigured s _ with ⟨_, h⟩ | ⟨_, h⟩ <;> rw [h]
    · exact .inl ⟨_, by decide, rfl⟩
    rcases refuseIf_cases (!s.status.ph) .seq s _ with ⟨_, h⟩ | ⟨_, h⟩ <;> rw [h]
    · exact .inl ⟨_, by decide, rfl⟩
    · exact .inr rfl
  | phases k =>
    simp only [exec, execPhases]
    rcases refuseIf_cases (decide (s.build.NPH ≤ k.toNat)) .badIndex s _ with ⟨_, h⟩ | ⟨_, h⟩ <;> rw [h]
    · exact .inl ⟨_, by decide, rfl⟩
    · exact .inr rfl
  | hrow r =>
    simp only [exec, execHrow]
    rcases refuseIf_cases (decide (s.build.M ≤ r.toNat)) .badIndex s _ with ⟨_, h⟩ | ⟨_, h⟩ <;> rw [h]
    · exact .inl ⟨_, by decide, rfl⟩
    · exact .inr rfl
  | prow r =>
    simp only [exec, execProw]
    rcases refuseIf_cases (decide (s.build.M ≤ r.toNat)) .badIndex s _ with ⟨_, h⟩ | ⟨_, h⟩ <;> rw [h]
    · exact .inl ⟨_, by decide, rfl⟩
    · exact .inr rfl
  | qrow r =>
    simp only [exec, execQrow]
    rcases refuseIf_cases (decide (s.build.M ≤ r.toNat)) .badIndex s _ with ⟨_, h⟩ | ⟨_, h⟩ <;> rw [h]
    · exact .inl ⟨_, by decide, rfl⟩
    · exact .inr rfl
  | wshape ctx =>
    simp only [exec, execWshape]
    rcases refuseIf_cases (decide (s.build.NW ≤ ctx.toNat)) .badIndex s _ with ⟨_, h⟩ | ⟨_, h⟩ <;> rw [h]
    · exact .inl ⟨_, by decide, rfl⟩
    rcases refuseIf_cases (!rateLegal s.arg0) .badArg s _ with ⟨_, h⟩ | ⟨_, h⟩ <;> rw [h]
    · exact .inl ⟨_, by decide, rfl⟩
    · exact .inr rfl
  | wsreset ctx =>
    simp only [exec, execWsreset]
    rcases refuseIf_cases (decide (s.build.NW ≤ ctx.toNat)) .badIndex s _ with ⟨_, h⟩ | ⟨_, h⟩ <;> rw [h]
    · exact .inl ⟨_, by decide, rfl⟩
    · exact .inr rfl
  | softclip =>
    simp only [exec, execSoftclip]
    rcases refuseIf_cases (!boundsLegal s.arg1 s.arg2) .badArg s _ with ⟨_, h⟩ | ⟨_, h⟩ <;> rw [h]
    · exact .inl ⟨_, by decide, rfl⟩
    · exact .inr rfl

/-- A step is one of: no pending transaction, a host read, a host store, an undecodable command word, a command. -/
theorem step_cases {s t : State} (h : step s = .next t) :
    (s.inbox = [] ∧ t = s) ∨
    (∃ a rest, s.inbox = .read a :: rest ∧ t = (s.withInbox rest).hostRead a) ∨
    (∃ a v rest, s.inbox = .write a v :: rest ∧ a ≠ cmdAddr ∧ t = (s.withInbox rest).hostStore a v) ∨
    (∃ w rest e, s.inbox = .write cmdAddr w :: rest ∧ decode w = .error e ∧
      t = (s.withInbox rest).refuse .illegalOp) ∨
    (∃ w rest i, s.inbox = .write cmdAddr w :: rest ∧ decode w = .ok i ∧
      exec i (s.withInbox rest) = .next t) := by
  unfold step takeAction at h
  match hi : s.inbox with
  | [] =>
    rw [hi] at h
    exact .inl ⟨rfl, by cases h; rfl⟩
  | .read a :: rest =>
    rw [hi] at h
    exact .inr (.inl ⟨a, rest, rfl, by cases h; rfl⟩)
  | .write a v :: rest =>
    rw [hi] at h
    simp only [transact] at h
    by_cases ha : a = cmdAddr
    · rw [if_pos ha] at h
      subst ha
      unfold command at h
      match hd : decode v with
      | .ok i =>
        rw [hd] at h
        exact .inr (.inr (.inr (.inr ⟨v, rest, i, rfl, hd, h⟩)))
      | .error e =>
        rw [hd] at h
        exact .inr (.inr (.inr (.inl ⟨v, rest, e, rfl, hd, by cases h; rfl⟩)))
    · rw [if_neg ha] at h
      exact .inr (.inr (.inl ⟨a, v, rest, rfl, ha, by cases h; rfl⟩))

end Sys2Proof.Machine
end

