-- ==== Sys2Proof/Machine/Script.lean ====
section
/-! DEFINITION. The host script (30_encoding.md R110, R111) as lists of transactions for the state's inbox, and the host's
cross-channel average (70_reset_and_hazards.md R324, R326), which is a duty of the host and no part of the block. -/

namespace Sys2Proof.Machine

/-- `WR <reg>, <value>`. -/
def wr (r : Reg) (v : Word) : HostAction := .write (BitVec.ofNat 11 r.addr) v

/-- `RD <reg>`. -/
def rd (r : Reg) : HostAction := .read (BitVec.ofNat 11 r.addr)

/-- `<MNEMONIC> [<n>]`. -/
def cmd (i : Instr) : HostAction := .write cmdAddr (encode i)

/-- `PARAMS fb, ph, fl, ce, cv, ln`. -/
def paramsScript (p : Params) : List HostAction :=
  [wr .pFeedback p.feedback, wr .pPhase p.phase, wr .pFloor p.floor, wr .pCeil p.ceil, wr .pCurve p.curve,
   wr .pLength p.length]

/-- `CONFIG fb, ph, fl, ce, cv, ln`. -/
def configScript (p : Params) : List HostAction := paramsScript p ++ [cmd .update]

/-- `FRAME fs, raw, sep`. -/
def frameScript (fs raw sep : Num64) : List HostAction :=
  [wr .arg0 fs, cmd .readmix, wr .arg0 raw, wr .arg1 sep, cmd .injwr, rd .res0]

/-- The writes of a vector to `XAVG`, in ascending order; `XAVG0` writes zeros. -/
def xavgScript (avg : List Num64) : List HostAction :=
  List.zipWith (fun i v => wr (.xavg i) v) (List.range avg.length) avg

/-- `XAVG0`. -/
def xavgZeroScript (b : Build) : List HostAction := xavgScript (List.replicate b.M posZero)

/-- `avg[i] = (Σ_b Z_b[i]) * ((1 − sep) / C)` for the mixed vectors of `C` blocks (R326). -/
def crossAverage (b : Build) (sep : Num64) (zs : List (List Num64)) : List Num64 :=
  (List.range b.M).map fun i =>
    fmul (binary64.sum (zs.map fun z => z.getD i posZero)) (fdiv (fsub one sep) (numOfNat zs.length))

/-- The two halves of one frame of R324 on one block: the read with its `Z`, and the injection with the average. -/
def readHalf (b : Build) (fs : Num64) : List HostAction :=
  [wr .arg0 fs, cmd .readmix] ++ (List.range b.M).map fun i => rd (.z i)

def injectHalf (avg : List Num64) (raw sep : Num64) : List HostAction :=
  xavgScript avg ++ [wr .arg0 raw, wr .arg1 sep, cmd .injwr, rd .res0]

end Sys2Proof.Machine
end

