-- ==== Sys2Proof/Tests/Slice0.lean ====
section
/-! SUPPORT. Tests of one step against the spec's vectors (95_test_vectors.md, and the examples of the rules), and for each
statement of the certificates a witness that meets its hypotheses. Every expected value is the spec's. -/

namespace Sys2Proof.Tests

open Sys2Proof Sys2Proof.Machine

/-! ### Helpers -/

/-- The state after a command. -/
def after (r : Result) : State :=
  match r with
  | .next s => s
  | .fault _ => State.reset
  | .refused _ => State.reset

/-- `f:48000` of 95_test_vectors.md, section 3. -/
def hz48000 : Word := 0x40E7700000000000#64

/-- The staging registers of V30: 0.5, 5, 0, 1e9, 1.0, 30.0. -/
def paramsV30 : Params :=
  ⟨0x3FE0000000000000#64, 5#64, 0#64, 0x41CDCD6500000000#64, 0x3FF0000000000000#64, 0x403E000000000000#64⟩

/-- A configured state with the given lines and cutoffs, the sample rate in `ARG0`. -/
def configured (lines : List Line) (floor ceil : Word) : State :=
  { State.reset with
    status := { Status.reset with cfgv := true }
    cached := { paramsV30 with floor := floor, ceil := ceil }
    arg0 := hz48000
    lines := lines }

/-- A line of length 2 whose oldest sample is given. -/
def lineOf (oldest : Word) : Line := { Line.reset with dl := [0#64, oldest] }

/-- The state of the example of 43_fdn_engine.md R218, at `PH = 1` with `raw` in `ARG0` and `sep = 1` in `ARG1`. -/
def openFrame (raw : Word) : State :=
  { configured
      [{ lineOf one with z := 0x3FE6A09E667F3BCD#64, g := 0xBFE0000000000000#64 },
       { lineOf 0#64 with z := 0xBFE6A09E667F3BCD#64, g := 0x3FE0000000000000#64 },
       { lineOf 0#64 with g := 0xBFE0000000000000#64 },
       { lineOf 0#64 with g := 0x3FE0000000000000#64 }] 0#64 0x41CDCD6500000000#64 with
    status := { Status.reset with cfgv := true, ph := true, est := .running }
    arg0 := raw
    arg1 := one }

/-- `CFG-S` with an uninterpreted set of functions. -/
def cfgU : Build := ⟨2, 64, 1, refWs, .uninterpreted 0, cfgS.legal⟩

/-- The state of that build after an `UPDATE` of all-zero staging registers from reset, the sample rate in `ARG0`. -/
def quiet : State :=
  { State.resetOf cfgU with status := { Status.reset with cfgv := true }, arg0 := hz48000 }

/-- The same inside a frame. -/
def quietOpen : State :=
  { quiet with status := { Status.reset with cfgv := true, ph := true, est := .running } }

/-! ### Well-formedness: each check refuses the first index out of range (V24, V52, V60) -/

theorem test_wf_phases : (Instr.phases 15#16).wellFormed cfgS = true ∧ (Instr.phases 16#16).wellFormed cfgS = false := by
  decide

theorem test_wf_phases_cfgD :
    (Instr.phases 255#16).wellFormed cfgD = true ∧ (Instr.phases 256#16).wellFormed cfgD = false := by decide

theorem test_wf_rows :
    (Instr.hrow 3#16).wellFormed cfgS = true ∧ (Instr.hrow 4#16).wellFormed cfgS = false ∧
    (Instr.prow 3#16).wellFormed cfgS = true ∧ (Instr.prow 4#16).wellFormed cfgS = false ∧
    (Instr.qrow 3#16).wellFormed cfgS = true ∧ (Instr.qrow 4#16).wellFormed cfgS = false := by decide

theorem test_wf_contexts :
    (Instr.wshape 0#16).wellFormed cfgS = true ∧ (Instr.wshape 1#16).wellFormed cfgS = false ∧
    (Instr.wsreset 0#16).wellFormed cfgS = true ∧ (Instr.wsreset 1#16).wellFormed cfgS = false := by decide

theorem test_wf_without_index : Instr.nop.wellFormed cfgS = true ∧ Instr.update.wellFormed cfgS = true := by decide

/-! ### Decoding: one word for each constructor, written out from the columns of 30_encoding.md R92 -/

theorem test_decode_nop : decode 0x0000000000000000#64 = .ok .nop := by rfl
theorem test_decode_update : decode 0x0000000000000001#64 = .ok .update := by rfl
theorem test_decode_readmix : decode 0x0000000000000002#64 = .ok .readmix := by rfl
theorem test_decode_injwr : decode 0x0000000000000003#64 = .ok .injwr := by rfl
theorem test_decode_suspend : decode 0x0000000000000004#64 = .ok .suspend := by rfl
theorem test_decode_primes : decode 0x0000000000000010#64 = .ok .primes := by rfl
theorem test_decode_cprime : decode 0x0000000000000011#64 = .ok .cprime := by rfl
theorem test_decode_phases : decode 0x0000000000000F12#64 = .ok (.phases 15#16) := by rfl
theorem test_decode_hrow : decode 0x0000000000000313#64 = .ok (.hrow 3#16) := by rfl
theorem test_decode_prow : decode 0x0000000000FF0114#64 = .ok (.prow 0xFF01#16) := by rfl
theorem test_decode_qrow : decode 0x0000000000000215#64 = .ok (.qrow 2#16) := by rfl
theorem test_decode_wshape : decode 0x0000000000000120#64 = .ok (.wshape 1#16) := by rfl
theorem test_decode_wsreset : decode 0x0000000000000021#64 = .ok (.wsreset 0#16) := by rfl
theorem test_decode_softclip : decode 0x0000000000000022#64 = .ok .softclip := by rfl
theorem test_decode_x2exp : decode 0x0000000000000023#64 = .ok .x2exp := by rfl
theorem test_decode_sigmoid : decode 0x0000000000000024#64 = .ok .sigmoid := by rfl

/-- The illegal words of V60. -/
theorem test_decode_illegal :
    decode 0x0000000000000100#64 = .error .strayIndex ∧ decode 0x0000000000000005#64 = .error .unknownOpcode ∧
    decode 0x00000000000000FF#64 = .error .unknownOpcode ∧ decode 0x0000000001000013#64 = .error .reservedBits ∧
    decode 0x8000000000000000#64 = .error .reservedBits := ⟨rfl, rfl, rfl, rfl, rfl⟩

/-- No word selects two rows of the opcode map. -/
theorem test_opcode_rows_disjoint :
    opcodeRows.Pairwise (fun a b => a.2.1 &&& (a.2.2 &&& b.2.2) ≠ b.2.1 &&& (a.2.2 &&& b.2.2)) := by decide

/-- The word the host numbers as the table does, and the step that runs it first after reset (V60: `HROW 3`). -/
theorem test_table_word :
    decodeTableWord 64 0x313 = some (.hrow 3#16) ∧ decodeTableWord 64 0x100 = none ∧
    step (State.reset.withFetchWord 64 0x313) = exec (.hrow 3#16) State.reset := ⟨rfl, rfl, rfl⟩

/-! ### The number format -/

/-- `1e9` is `0x41CDCD6500000000` and 48000 is `0x40E7700000000000` (section 3). -/
theorem test_num_of_nat :
    numOfNat 1000000000 = 0x41CDCD6500000000#64 ∧ numOfNat 48000 = hz48000 := by decide +kernel

/-- 40_numerics.md R121: `(+0) + (−0) = +0`, `inf − inf` and `0 * inf` are NaN, `1 / −0 = −inf`. -/
theorem test_special_values :
    fadd posZero negZero = posZero ∧ isNaN (fsub posInf posInf) = true ∧ isNaN (fmul posZero posInf) = true ∧
    fdiv one negZero = negInf := by decide +kernel

/-- R125: `SQRT(0.5)` = 0.7071067811865476. -/
theorem test_sqrt_half : fsqrt half = 0x3FE6A09E667F3BCD#64 := by decide +kernel

/-- V22 to V23 and 42_matrix_phase.md R180: `QMAG` for `M = 4` and `M = 16`. -/
theorem test_qmag : qmag cfgS = 0x3FE6A09E667F3BCD#64 ∧ qmag cfgD = 0x3FD6A09E667F3BCD#64 := by decide +kernel

/-! ### NOP, UPDATE, READMIX, INJWR, SUSPEND -/

/-- R275: after a refused `INJWR`, `NOP` leaves `RESP = 0` and `CMDERR = 1`. -/
theorem test_nop_keeps_cmderr :
    (after (exec .nop (State.reset.refuse .seq))).resp = .ok ∧
    (after (exec .nop (State.reset.refuse .seq))).status.cmderr = true := by decide

/-- V30: the lengths and gains. -/
theorem test_update_v30 :
    let t := after (exec .update { State.reset with staged := paramsV30 })
    t.lines.map (·.plen) = [5, 11, 17, 23] ∧
    t.lines.map (·.g) =
      [0xBFE0000000000000#64, 0x3FE0000000000000#64, 0xBFE0000000000000#64, 0x3FE0000000000000#64] := by
  decide +kernel

/-- PG3: a phase index of 16 is refused with `BAD_PARAM`, nothing is configured. -/
theorem test_update_bad_phase :
    let t := after (exec .update { State.reset with staged := { paramsV30 with phase := 16#64 } })
    t.resp = .badParam ∧ t.status.cfgv = false := by decide +kernel

/-- The example of R210. -/
theorem test_readmix_r210 :
    (after (exec .readmix (configured [lineOf one, lineOf 0#64, lineOf 0#64, lineOf 0#64] 0#64
      0x41CDCD6500000000#64))).lines.map (·.z) =
      [0x3FE6A09E667F3BCD#64, 0xBFE6A09E667F3BCD#64, 0#64, 0#64] := by decide +kernel

/-- V31, row 5000, 200: the complementary split. -/
theorem test_readmix_split_v31 :
    (after (exec .readmix (configured (List.replicate 4 (lineOf one)) 0x40B3880000000000#64
      0x4069000000000000#64))).lines.map (·.z) =
      [0x3FE814A9ACE1FA2F#64, 0#64, 0#64, 0xBFE814A9ACE1FA2F#64] := by decide +kernel

/-- The example of R218: what is pushed, and the output 1.0. By R231, an impulse pushed 7 frames ago into silent lines of the
lengths 23, 13, 7, 7 (V11 row 5) gives 2.0. -/
theorem test_injwr_r218 :
    let t := after (exec .injwr (openFrame 0#64))
    t.lines.map (fun l => l.dl.getD 0 one) = [0xBFD6A09E667F3BCD#64, 0xBFD6A09E667F3BCD#64, 0#64, 0#64] ∧
    t.res0 = one ∧
    let impulse := fun n => { Line.reset with
      plen := n, dl := List.replicate 6 posZero ++ one :: List.replicate (n - 7) posZero }
    (after (exec .injwr { openFrame 0#64 with lines := [23, 13, 7, 7].map impulse })).res0 = two := by decide +kernel

/-- V32: an infinite input pushes silence and sets `NONFIN`. -/
theorem test_injwr_scrub_v32 :
    let t := after (exec .injwr (openFrame posInf))
    t.lines.map (fun l => l.dl.getD 0 one) = [0#64, 0#64, 0#64, 0#64] ∧ t.status.nonfin = true := by decide +kernel

/-- V34: from reset, `RESP = 0` and `STATUS = 0x002`. -/
theorem test_suspend_v34 :
    (after (exec .suspend State.reset)).status.word = 0x002#64 ∧ (after (exec .suspend State.reset)).resp = .ok := by
  decide

/-- R225: an open frame is abandoned, the content is silent, the gains stay. -/
theorem test_suspend_open_frame :
    let t := after (exec .suspend (openFrame one))
    t.lines.map (·.dl) = List.replicate 4 [0#64, 0#64] ∧ t.status.word = 0x00A#64 := by decide

/-! ### PRIMES, CPRIME, PHASES, HROW, PROW, QROW -/

/-- V11 row 1. -/
theorem test_primes_v11 :
    (after (exec .primes { State.reset with arg0 := one, arg1 := 0x4059000000000000#64 })).vres =
      [19#64, 37#64, 53#64, 61#64] := by decide +kernel

/-- V11 row 5, a negative curve. -/
theorem test_primes_negative_curve :
    (after (exec .primes { State.reset with arg0 := fneg one, arg1 := 0x403E000000000000#64 })).vres =
      [23#64, 13#64, 7#64, 7#64] := by decide +kernel

/-- V10: the tie 2.5 goes to 2, one unit above it to 3. -/
theorem test_cprime_tie :
    (after (exec .cprime { State.reset with arg0 := 0x4004000000000000#64 })).res0 = 2#64 ∧
    (after (exec .cprime { State.reset with arg0 := 0x4004000000000001#64 })).res0 = 3#64 := by decide +kernel

/-- V10: 121 is clamped to `PMAX = 61` in `CFG-S` and gives 127 in `CFG-D`. -/
theorem test_cprime_clamp : cprime cfgS 0x405E400000000000#64 = 61 ∧ cprime cfgD 0x405E400000000000#64 = 127 := by
  decide +kernel

/-- V24: `PHASES 5`. -/
theorem test_phases_v24 :
    (after (exec (.phases 5#16) State.reset)).vres =
      [0xBFF0000000000000#64, 0x3FF0000000000000#64, 0xBFF0000000000000#64, 0x3FF0000000000000#64] := by decide

/-- V24: `PHASES 16` is refused. -/
theorem test_phases_bad_index : (after (exec (.phases 16#16) State.reset)).resp = .badIndex := by decide

/-- V21: `HROW 1`. -/
theorem test_hrow_v21 :
    (after (exec (.hrow 1#16) State.reset)).vres =
      [0xBFE0000000000000#64, 0x3FE0000000000000#64, 0xBFE0000000000000#64, 0x3FE0000000000000#64] := by
  decide +kernel

/-- V60: `HROW 4` is refused. -/
theorem test_hrow_bad_index : (after (exec (.hrow 4#16) State.reset)).resp = .badIndex := by decide

/-- V22: rows 2 and 3. -/
theorem test_prow_v22 :
    (after (exec (.prow 2#16) State.reset)).vres = [0#64, 0xBFE6A09E667F3BCD#64, 0x3FE6A09E667F3BCD#64, 0#64] ∧
    (after (exec (.prow 3#16) State.reset)).vres = [0xBFE6A09E667F3BCD#64, 0#64, 0#64, 0x3FE6A09E667F3BCD#64] := by
  decide +kernel

/-- V23: rows 1 and 2. -/
theorem test_qrow_v23 :
    (after (exec (.qrow 1#16) State.reset)).vres = [0xBFE6A09E667F3BCD#64, 0#64, 0#64, 0x3FE6A09E667F3BCD#64] ∧
    (after (exec (.qrow 2#16) State.reset)).vres = [0#64, 0xBFE6A09E667F3BCD#64, 0x3FE6A09E667F3BCD#64, 0#64] := by
  decide +kernel

/-! ### The waveshaper -/

/-- V40: `x = 1`, bounds −1 and 1. -/
theorem test_softclip_v40 :
    (after (exec .softclip { State.reset with arg0 := one, arg1 := fneg one, arg2 := one })).res0 =
      0x3FE43A54E4E98864#64 := by decide +kernel

/-- V40: equal bounds are refused. -/
theorem test_softclip_equal_bounds :
    (after (exec .softclip { State.reset with arg0 := one, arg1 := one, arg2 := one })).resp = .badArg := by
  decide +kernel

/-- V41: 0.5, 355 and −400. -/
theorem test_x2exp_v41 :
    (after (exec .x2exp { State.reset with arg0 := half })).res0 = 0x4005BF0A8B145769#64 ∧
    (after (exec .x2exp { State.reset with arg0 := numOfNat 355 })).res0 = posInf ∧
    (after (exec .x2exp { State.reset with arg0 := fneg (numOfNat 400) })).res0 = posZero := by decide +kernel

/-- V42: `x = 1`, and −200.5 for `x = −400`. -/
theorem test_sigmoid_v42 :
    (after (exec .sigmoid { State.reset with arg0 := one })).res0 = 0x3FEC2F7D5A8A79CA#64 ∧
    (after (exec .sigmoid { State.reset with arg0 := fneg (numOfNat 400) })).res0 = 0xC069100000000000#64 := by
  decide +kernel

/-- V42: `x = 400` gives a NaN, a free draw, without setting `NONFIN`. -/
theorem test_sigmoid_nan :
    isNaN (sigmoid cfgS (numOfNat 400)) = true ∧
    (after (exec .sigmoid { State.reset with arg0 := numOfNat 400 })).draws = 1 ∧
    (after (exec .sigmoid { State.reset with arg0 := numOfNat 400 })).status.nonfin = false := by decide +kernel

/-- V50, step 1. -/
theorem test_wshape_v50 :
    (after (exec (.wshape 0#16) { State.reset with arg0 := hz48000, arg1 := one })).res0 = 0x3FA3A675116620E0#64 := by
  decide +kernel

/-- V51: the memories after the first are scrubbed, the output is silence. -/
theorem test_wshape_v51 :
    let t := after (exec (.wshape 0#16) { State.reset with arg0 := hz48000, arg1 := numOfNat 1000 })
    (t.ws.getD 0 []).drop 1 = List.replicate 8 0#64 ∧ t.res0 = 0#64 ∧ t.status.nonfin = true := by decide +kernel

/-- V52: a used context is zeroed; `WSRESET 1` is refused. -/
theorem test_wsreset_v52 :
    (after (exec (.wsreset 0#16) { State.reset with ws := [List.replicate 9 one] })).ws = [List.replicate 9 0#64] ∧
    (after (exec (.wsreset 1#16) State.reset)).resp = .badIndex := by decide

/-! ### The register port -/

/-- V60 from reset: `WSHAPE 0` with `ARG0 = 0` is 5, `WSHAPE 1` is 2, `READMIX` and `INJWR` are 3, `HROW` with a reserved bit
is 1. -/
theorem test_refusals_v60 :
    (after (command 0x20#64 State.reset)).resp = .badArg ∧ (after (command 0x120#64 State.reset)).resp = .badIndex ∧
    (after (command 0x02#64 State.reset)).resp = .notConfigured ∧
    (after (command 0x03#64 State.reset)).resp = .notConfigured ∧
    (after (command 0x1000013#64 State.reset)).resp = .illegalOp := by decide

/-- PG3: a write to `RESP` is dropped and an access to `0x7FF` sets `ADDRERR`. -/
theorem test_bad_accesses :
    (State.reset.hostStore 0x001#11 0xFF#64).status.word = 0x400#64 ∧
    (State.reset.hostRead 0x7FF#11).replies = [0#64] ∧ (State.reset.hostRead 0x7FF#11).status.addrerr = true := by
  decide

/-- 10_state.md R22: `XAVG[3]` is the last mapped entry of `CFG-S`, `0x104` is unmapped; `PLEN[i]` reads 2 after reset. -/
theorem test_vector_registers :
    (State.reset.hostStore 0x103#11 one).lines.map (·.xavg) = [0#64, 0#64, 0#64, one] ∧
    (State.reset.hostStore 0x104#11 one).status.addrerr = true ∧
    (State.reset.hostRead 0x503#11).replies = [2#64] := by decide

/-- 10_state.md R26: `ID` of `CFG-S`: `L = 2`, `NW = 1`, `D = 64`. -/
theorem test_id : State.reset.readReg .id = 0x0007000000400102#64 := by decide

/-- The host script of R111: `FRAME` is six transactions, the second of them the word 2 to address 0. -/
theorem test_frame_script :
    frameScript hz48000 one one =
      [.write 0x008#11 hz48000, .write 0x000#11 2#64, .write 0x008#11 one, .write 0x009#11 one, .write 0x000#11 3#64,
       .read 0x00C#11] := by decide

/-! ### Witnesses: states and operands that meet the hypotheses of each statement -/

theorem cfgU_meets : cfgU.functions.Meets := FunctionSet.uninterpreted_meets 0

/-- 41_primes.md R164 with `POW(b, ±0) = 1`: for `c = 0` every raw target is 1, and the norm of four ones is 2. -/
theorem quiet_lengths : primesDist cfgU 0#64 0#64 = [2, 2, 2, 2] := by
  have hu : ∀ i ∈ List.range 4, inUnit (fdiv (numOfNat (i + 1)) (numOfNat 4)) = true := by decide +kernel
  have h : cfgU.numeric.rawTargets cfgU.M 0#64 = (List.range 4).map fun _ => one := by
    have hM : cfgU.M = 4 := rfl
    simp only [NumConfig.rawTargets, Build.numeric_functions, Build.numeric_format, binary64_div, binary64_ofNat, hM]
    exact List.map_congr_left fun i hi => cfgU_meets.pow.zero _ _ (hu i hi) (by decide)
  have hn : cfgU.numeric.norm ((List.range 4).map fun _ => one) = two := by
    show cfgU.functions.sqrt (binary64.sum _) = two
    rw [Build.sqrt_eq _ (by decide +kernel)]
    decide +kernel
  simp only [primesDist, NumConfig.targets, h, hn]
  decide +kernel

theorem silent_content :
    (∀ l ∈ List.replicate 4 Line.reset,
      finite l.flo = true ∧ finite l.fce = true ∧ finite l.z = true ∧ ∀ x ∈ l.dl, finite x = true) ∧
    ∀ c ∈ List.replicate 1 (List.replicate 9 posZero), ∀ x ∈ c, finite x = true := by
  have h : finite posZero = true := by decide
  constructor
  · intro l hl
    obtain rfl := List.eq_of_mem_replicate hl
    exact ⟨h, h, h, fun x hx => by
      obtain rfl := List.eq_of_mem_replicate (n := 2) hx
      exact h⟩
  · intro c hc x hx
    obtain rfl := List.eq_of_mem_replicate hc
    obtain rfl := List.eq_of_mem_replicate hx
    exact h

theorem silent_lines :
    ∀ l ∈ List.replicate 4 Line.reset, l.flo = posZero ∧ l.fce = posZero ∧ l.z = posZero ∧ ∀ x ∈ l.dl, x = posZero := by
  intro l hl
  obtain rfl := List.eq_of_mem_replicate hl
  exact ⟨rfl, rfl, rfl, fun x hx => List.eq_of_mem_replicate (n := 2) hx⟩

theorem silent_zero :
    ∀ l ∈ List.replicate 4 Line.reset, isZero l.flo = true ∧ isZero l.fce = true ∧ ∀ x ∈ l.dl, isZero x = true := by
  intro l hl
  obtain ⟨hf, hc, -, hd⟩ := silent_lines l hl
  have h : isZero posZero = true := by decide
  exact ⟨hf ▸ h, hc ▸ h, fun x hx => hd x hx ▸ h⟩

theorem reset_inv : State.reset.Inv where
  shaped := ⟨rfl, rfl, rfl, by decide⟩
  content := silent_content
  lengths := by
    intro l hl
    obtain rfl : l = Line.reset := List.eq_of_mem_replicate hl
    exact ⟨Nat.prime_two, le_refl _, by decide +kernel, rfl⟩
  frame := by intro h; cases h
  configured := by intro h; cases h
  unconfigured := by
    intro _
    exact ⟨by decide, rfl, by decide⟩

theorem reset_quiet : State.reset.QuietUnlessRunning := fun _ => ⟨silent_lines, rfl⟩

theorem quiet_inv : quiet.Inv where
  shaped := ⟨rfl, rfl, rfl, by decide⟩
  content := silent_content
  lengths := by
    intro l hl
    obtain rfl : l = Line.reset := List.eq_of_mem_replicate hl
    exact ⟨Nat.prime_two, le_refl _, by decide +kernel, rfl⟩
  frame := by intro h; cases h
  configured := by
    intro _
    exact ⟨by decide +kernel, quiet_lengths.symm, by decide, by decide, by decide, by decide, by decide, by decide,
      by decide, by decide⟩
  unconfigured := by intro h; cases h

theorem witness_ResetRegistersReadResetValues :
    Reg.ofAddr cfgS 0x001#11 = some .resp ∧ Reg.ofAddr cfgS 0x503#11 = some (.plen 3) := by decide

theorem witness_ResetMemoryIsSilent :
    Line.reset ∈ (State.resetOf cfgS).lines ∧ List.replicate 9 posZero ∈ (State.resetOf cfgS).ws ∧
    flt 0x3FFFFFFFFFFFFFFF#64 two = true := by decide

theorem witness_StepRunsTheCommandWritten :
    (∃ s : State, s.inbox = .write 0#11 0x0F12#64 :: []) ∧ decode 0x0F12#64 = .ok (.phases 15#16) ∧
    decode 0x0F11#64 = .error .strayIndex ∧ State.reset.inbox = [] :=
  ⟨⟨State.reset.stageCommand 0x0F12#64, rfl⟩, rfl, rfl, rfl⟩

/-- The last entry of a vector and the first address past it; in a table no address stands twice. -/
theorem witness_HostReadFollowsTheMap :
    (∃ s : State, s.inbox = [.read 0x503#11] ∧ ((0x503#11 : Addr).toNat, 2#64) ∈ registerWords s ∧
      Reg.ofAddr s.build 0x503#11 = some (.plen 3)) ∧
    (∃ s : State, s.inbox = [.read 0x504#11] ∧ (0x504#11 : Addr).toNat ∉ (registerWords s).map (·.1) ∧
      Reg.ofAddr s.build 0x504#11 = none) ∧
    ((registerWords State.reset).map (·.1)).Nodup :=
  ⟨⟨State.reset.withInbox [.read 0x503#11], rfl, by decide, by decide⟩,
    ⟨State.reset.withInbox [.read 0x504#11], rfl, by decide, by decide⟩, by decide⟩

theorem witness_HostWriteFollowsTheMap :
    (∃ s : State, s.inbox = [.write 0#11 2#64]) ∧
    (∃ s : State, s.inbox = [.write 0x00A#11 2#64] ∧
      ((0x00A#11 : Addr).toNat, { s with inbox := [], arg2 := 2#64 }) ∈ hostStores { s with inbox := [] } 2#64) ∧
    (∃ s : State, s.inbox = [.write 0x103#11 2#64] ∧ s.lines.length = s.build.M ∧
      (0x103#11 : Addr).toNat ∈ (hostStores s 2#64).map (·.1) ∧
      Reg.ofAddr s.build 0x103#11 = some (.xavg 3) ∧ (Reg.xavg 3).hostWritable = true) ∧
    (∃ s : State, s.inbox = [.write 0x104#11 2#64] ∧ (0x104#11 : Addr) ≠ 0#11 ∧
      (0x104#11 : Addr).toNat ∉ (hostStores s 2#64).map (·.1)) ∧
    ((hostStores State.reset 2#64).map (·.1)).Nodup :=
  ⟨⟨State.reset.withInbox [.write 0#11 2#64], rfl⟩,
    ⟨State.reset.withInbox [.write 0x00A#11 2#64], rfl, by simp [hostStores, State.withInbox]⟩,
    ⟨State.reset.withInbox [.write 0x103#11 2#64], rfl, rfl, by decide, by decide, rfl⟩,
    ⟨State.reset.withInbox [.write 0x104#11 2#64], rfl, by decide, by decide⟩, by decide⟩

theorem witness_RegisterMapMatchesAddresses :
    Reg.ofAddr cfgS 0x00C#11 = some .res0 ∧ 255 < 256 ∧ 0x600 ≤ (0x600#11 : Addr).toNat ∧
    0x600 ≤ (0x7FF#11 : Addr).toNat := by decide

theorem witness_AcceptedWordsAreEncodings : decode 0xFFFF12#64 = .ok (.phases 0xFFFF#16) := rfl

theorem witness_DecodingFollowsTheOpcodeMap :
    decode 0x24#64 = .ok .sigmoid ∧ ("WSHAPE", 0x20#64, indexMask) ∈ opcodeRows ∧ 0x120#64 &&& indexMask = 0x20#64 :=
  ⟨rfl, by decide, rfl⟩

theorem witness_IllegalWordsAreRefused :
    (∃ e, decode 0x0000000001000013#64 = .error e) ∧ (∃ e, decode 0x05#64 = .error e) ∧ decode 0x04#64 = .ok .suspend :=
  ⟨⟨_, rfl⟩, ⟨_, rfl⟩, rfl⟩

/-- One word for each code, at the edge of its cause, and one that completes. -/
theorem witness_RefusalsFollowTheCauseTable :
    refusalOf State.reset 0x1000000#64 = some .illegalOp ∧ refusalOf State.reset 0x413#64 = some .badIndex ∧
    refusalOf State.reset 0x02#64 = some .notConfigured ∧ refusalOf quiet 0x03#64 = some .seq ∧
    refusalOf quietOpen 0x01#64 = some .seq ∧ refusalOf { quiet with arg0 := negZero } 0x02#64 = some .badArg ∧
    refusalOf { State.reset with arg1 := one, arg2 := one } 0x22#64 = some .badArg ∧
    refusalOf { State.reset with staged := { Params.reset with phase := 16#64 } } 0x01#64 = some .badParam ∧
    refusalOf State.reset 0x313#64 = none := by decide

theorem witness_NopOnlyAcknowledges : opField 0x0100#64 = 0#8 ∧ 0x0100#64 ≠ 0#64 := by decide

/-- `ARG0` a NaN, 1.999…, `PMAX = 61`, `+inf`, the tie 4 between 3 and 5, and the prime 2. -/
theorem witness_CprimeWritesNearestPrime :
    fle two quietNaN = false ∧ fle two 0x3FFFFFFFFFFFFFFF#64 = false ∧
    (fle two 0x404E800000000000#64 = true ∧
      (cfgS.pmax * unitsPerOne : Int) ≤ exactValue 0x404E800000000000#64) ∧
    (fle two posInf = true ∧ (cfgS.pmax * unitsPerOne : Int) ≤ exactValue posInf) ∧
    (Nat.Prime 3 ∧ Nat.Prime 5 ∧ 3 < 5 ∧ 5 ≤ cfgS.pmax ∧ (∀ n, 3 < n → n < 5 → ¬ Nat.Prime n) ∧
      fle two 0x4010000000000000#64 = true ∧
      2 * exactValue 0x4010000000000000#64 = ((3 + 5) * unitsPerOne : Nat)) ∧
    (Nat.Prime 2 ∧ 2 ≤ cfgS.pmax ∧ fle two two = true ∧ exactValue two = (2 : Nat) * unitsPerOne) := by
  refine ⟨by decide, by decide, by decide +kernel, by decide +kernel,
    ⟨by norm_num, by norm_num, by decide, by decide +kernel, ?_, by decide, by decide +kernel⟩,
    ⟨by norm_num, by decide +kernel, by decide, by decide +kernel⟩⟩
  intro n h3 h5
  obtain rfl : n = 4 := by omega
  decide

theorem witness_CprimeIsTheNearestPrime :
    (fle two 0x404E800000000000#64 = true ∧
      exactValue 0x404E800000000000#64 ≤ (cfgS.pmax * unitsPerOne : Int)) ∧
    (finite 0x404E800000000001#64 = true ∧ (cfgS.pmax * unitsPerOne : Int) < exactValue 0x404E800000000001#64) ∧
    fle negZero posZero = true ∧ fle 0x4004000000000000#64 0x4004000000000000#64 = true := by decide +kernel

theorem witness_PrimesWritesLegalLengths :
    2 ∈ primesDist cfgU 0#64 0#64 ∧ PowLaws cfgU.functions.pow ∧ finite 0#64 = true ∧ fle 0#64 posZero = true :=
  ⟨by rw [quiet_lengths]; decide, cfgU_meets.pow, by decide, by decide⟩

theorem witness_PrimesDistIsMonotone :
    PowLaws cfgU.functions.pow ∧ finite negZero = true ∧ fle posZero negZero = true ∧ finite (fneg one) = true :=
  ⟨cfgU_meets.pow, by decide, by decide, by decide⟩

theorem witness_PhasesWritesBitSigns :
    (15#16 : Index).toNat < State.reset.build.M * State.reset.build.M ∧
    State.reset.build.M * State.reset.build.M ≤ (16#16 : Index).toNat := by decide

theorem witness_HrowWritesHadamardSigns :
    (3#16 : Index).toNat < State.reset.build.M ∧ State.reset.build.M ≤ (4#16 : Index).toNat := by decide

theorem witness_ProwWritesRotationRow :
    (0#16 : Index).toNat < State.reset.build.M ∧ State.reset.build.M ≤ (4#16 : Index).toNat := by decide

theorem witness_QrowMatchesClosedForm :
    (3#16 : Index).toNat < State.reset.build.M ∧ State.reset.build.M ≤ (4#16 : Index).toNat := by decide

theorem witness_MixingIsLossless : realFunctions.sqrt = Real.sqrt ∧ [(1 : ℝ), 0, 0, 2].length = cfgS.M := ⟨rfl, rfl⟩

theorem witness_UpdateEqualsFullRecomputation :
    (State.reset.Inv ∧ State.reset.status.ph = false ∧ badParams State.reset.build State.reset.staged = false) ∧
    (quiet.Inv ∧ quiet.status.ph = false ∧ badParams quiet.build quiet.staged = false) :=
  ⟨⟨reset_inv, rfl, by decide⟩, ⟨quiet_inv, rfl, by decide⟩⟩

theorem witness_UpdateWithoutChangeIsIdle :
    quiet.status.ph = false ∧ badParams quiet.build quiet.staged = false ∧ quiet.status.cfgv = true ∧
    quiet.cached = quiet.staged := ⟨rfl, by decide, rfl, rfl⟩

theorem witness_GainIsSignedFeedback :
    quiet.Inv ∧ quiet.status.ph = false ∧ badParams quiet.build quiet.staged = false ∧ 3 < quiet.build.M :=
  ⟨quiet_inv, rfl, by decide, by decide⟩

/-- One state for each clause: not configured, inside a frame, a zero rate, and a frame that starts. -/
theorem witness_ReadmixDampsAndMixes :
    (State.reset.lines.length = State.reset.build.M ∧ State.reset.status.cfgv = false) ∧
    (quietOpen.lines.length = quietOpen.build.M ∧ quietOpen.status.cfgv = true ∧ quietOpen.status.ph = true) ∧
    (∃ s : State, s.lines.length = s.build.M ∧ s.status.cfgv = true ∧ s.status.ph = false ∧ badRate s.arg0 = true) ∧
    (quiet.lines.length = quiet.build.M ∧ quiet.status.cfgv = true ∧ quiet.status.ph = false ∧
      badRate quiet.arg0 = false) :=
  ⟨⟨rfl, rfl⟩, ⟨rfl, rfl, rfl⟩, ⟨{ quiet with arg0 := 0#64 }, rfl, rfl, rfl, by decide⟩, ⟨rfl, rfl, rfl, by decide⟩⟩

theorem witness_InjwrInjectsAndSums :
    State.reset.status.cfgv = false ∧ (quiet.status.cfgv = true ∧ quiet.status.ph = false) ∧
    (quietOpen.status.cfgv = true ∧ quietOpen.status.ph = true) := by decide

theorem witness_OpenFrameKeepsTheLines :
    (∃ s t : State, exec .readmix s = .next t ∧ t.resp = .ok ∧ 3 < s.build.M) ∧
    (∃ s t : State, s.status.ph = true ∧ s.inbox = [.write 0x100#11 one] ∧ step s = .next t ∧ t.status.ph = true) ∧
    (∃ s t u : State, s.lines.length = s.build.M ∧ exec .readmix s = .next t ∧ t.resp = .ok ∧
      u.status.cfgv = true ∧ u.status.ph = true ∧ u.arg1 ≠ t.arg1 ∧
      u.lines.map (fun l => (l.dl, l.plen)) = t.lines.map (fun l => (l.dl, l.plen))) :=
  ⟨⟨quiet, _, rfl, rfl, by decide⟩, ⟨quietOpen.withInbox [.write 0x100#11 one], _, rfl, rfl, rfl, rfl⟩,
    ⟨quiet, completed .readmix quiet, (completed .readmix quiet).withArg1 one, rfl, rfl, rfl, rfl, rfl, by decide, rfl⟩⟩

theorem witness_SilenceIsAFixedPoint :
    quiet.Inv ∧ AlphaLaws quiet.build.functions.alpha ∧ quiet.Silent ∧ (∀ l ∈ quiet.lines, isZero l.xavg = true) ∧
    quiet.status.cfgv = true ∧ quiet.status.ph = false ∧ badRate quiet.arg0 = false ∧ isZero negZero = true ∧
    finite one = true :=
  ⟨quiet_inv, cfgU_meets.alpha, silent_zero, by decide, rfl, rfl, by decide, by decide,
    by decide⟩

/-- Two frames on four lines of length 2: as many as the shortest line has samples. -/
theorem witness_StartUpIsSilentUntilALineIsWarm :
    quiet.Inv ∧ quiet.status.ph = false ∧ badParams quiet.build quiet.staged = false ∧
    (∀ l ∈ quiet.lines, ∀ x ∈ l.dl, x = posZero) ∧
    ∃ t, exec .update quiet = .next t ∧ ∃ frames : List (Num64 × Num64 × Num64), frames.length = 2 ∧
      (∀ f ∈ frames, badRate f.1 = false) ∧ ∀ l ∈ t.lines, frames.length ≤ l.plen := by
  refine ⟨quiet_inv, rfl, by decide, fun l hl x hx => ?_, quiet, rfl, List.replicate 2 (hz48000, one, negInf), rfl,
    fun f hf => ?_, fun l hl => ?_⟩
  · obtain rfl := List.eq_of_mem_replicate (n := 4) (b := l) hl
    exact List.eq_of_mem_replicate (n := 2) hx
  · obtain rfl := List.eq_of_mem_replicate hf
    decide
  · obtain rfl := List.eq_of_mem_replicate (n := 4) (b := l) hl
    exact Nat.le_refl 2

theorem witness_ZeroGainPushesTheRawInput :
    quietOpen.status.cfgv = true ∧ quietOpen.status.ph = true ∧ finite quietOpen.arg0 = true ∧
    (∀ l ∈ quietOpen.lines, isZero l.g = true ∧ finite (fadd (fmul l.z quietOpen.arg1) l.xavg) = true) ∧
    3 < quietOpen.lines.length ∧ (quietOpen.line 3).dl.length = (quietOpen.line 3).plen ∧ 1 ≤ (quietOpen.line 3).plen ∧
    [one].length = (quietOpen.line 3).plen - 1 := by
  decide +kernel

theorem witness_PushedSampleComesOutAfterLength :
    Line.reset.dl.length = Line.reset.plen ∧ 1 ≤ Line.reset.plen ∧ [one].length = Line.reset.plen - 1 := by decide

/-- A shrink to the least length, a growth by one, and no change; pushes up to the edge. -/
theorem witness_StretchKeepsTheNewest :
    (∃ l : Line, l.dl.length = l.plen ∧ 2 ≤ l.plen ∧ 2 ≤ 2 ∧ 2 < l.plen) ∧
    (Line.reset.dl.length = Line.reset.plen ∧ 2 ≤ Line.reset.plen ∧ Line.reset.plen < 3 ∧ 2 = Line.reset.plen ∧
      ([] : List Word).length < 3 - Line.reset.plen ∧ [one].length < Line.reset.plen ∧
      [one, one].length = [one].length + (3 - Line.reset.plen)) :=
  ⟨⟨{ Line.reset with plen := 3, dl := [one, one, one] }, by decide⟩, by decide⟩

/-- A ring of three slots with two active, the write index at its end; the lengths 1 and `D`. -/
theorem witness_RingBufferRealisesTheLine :
    (RingBuffer.mk [one, half, two] 2 2).wf = true ∧
    ({ Line.reset with dl := [half, one] } : Line).dl = (RingBuffer.mk [one, half, two] 2 2).samples ∧
    ({ Line.reset with dl := [half, one] } : Line).plen = (RingBuffer.mk [one, half, two] 2 2).p ∧
    1 ≤ (RingBuffer.mk [one, half, two] 2 2).D ∧ 3 ≤ (RingBuffer.mk [one, half, two] 2 2).D := by decide

theorem witness_SoftclipWritesTheClip :
    badBounds one one = true ∧ badBounds (fneg one) one = false ∧ SoftclipLaws cfgU.functions.softclip ∧
    (∃ s : State, s.build = cfgU ∧ badBounds s.arg1 s.arg2 = false ∧ s.arg0 = posInf) ∧
    isNaN quietNaN = true ∧ isNaN posZero = false ∧
    isNaN (cfgU.functions.softclip quietNaN (fneg one) one) = true ∧
    isNaN (cfgU.functions.softclip posZero (fneg one) one) = false := by
  have hx := cfgU_meets.softclip.range posZero (fneg one) one (by decide) (by decide) (by decide) (by decide)
  refine ⟨by decide, by decide, cfgU_meets.softclip,
    ⟨{ quiet with arg0 := posInf, arg1 := fneg one, arg2 := one }, rfl, by decide, rfl⟩, by decide, by decide,
    cfgU_meets.softclip.nan _ _ _ (by decide) (by decide) (by decide) (by decide), ?_⟩
  exact (fle_iff.1 hx.1).2.1

/-- `ARG0` a zero, a NaN, 355 and −400 themselves and both infinities, in an uninterpreted build. -/
theorem witness_X2expWritesTheExponential :
    Exp2Laws cfgU.functions.exp2 ∧ isZero negZero = true ∧ isNaN quietNaN = true ∧
    fle 0x4076300000000000#64 (numOfNat 355) = true ∧ fle 0x4076300000000000#64 posInf = true ∧
    isNaN (cfgU.functions.exp2 (fmul quietNaN 0x40071547652B82FE#64)) = true ∧
    fle (fneg (numOfNat 400)) 0xC079000000000000#64 = true ∧ fle negInf 0xC079000000000000#64 = true ∧
    isNaN (cfgU.functions.exp2 (fmul posZero 0x40071547652B82FE#64)) = false := by
  refine ⟨cfgU_meets.exp2, by decide, by decide, by decide +kernel, by decide, cfgU_meets.exp2.nan _ (by decide),
    by decide +kernel, by decide, ?_⟩
  rw [cfgU_meets.exp2.zero _ (by decide +kernel)]
  decide

/-- The same for `SIGMOID`; `x = 400` is a NaN and `x = 20` is none in the reference build. -/
theorem witness_SigmoidWritesTheBlend :
    Exp2Laws cfgU.functions.exp2 ∧ isZero negZero = true ∧ fle 0x4076300000000000#64 (numOfNat 355) = true ∧
    isNaN (sigmoid cfgS (numOfNat 400)) = true ∧ isNaN (sigmoid cfgS (numOfNat 20)) = false ∧
    finite (fneg (numOfNat 400)) = true ∧ fle (fneg (numOfNat 400)) 0xC079000000000000#64 = true :=
  ⟨cfgU_meets.exp2, by decide, by decide +kernel, by decide +kernel, by decide +kernel, by decide +kernel,
    by decide +kernel⟩

theorem witness_SigmoidOverTheReals : realFunctions.exp2 = exactExp2 ∧ (0 : ℝ) ≤ 0 ∧ (0 : ℝ) < 1 :=
  ⟨rfl, le_refl _, zero_lt_one⟩

theorem witness_WshapeRunsNineStages :
    quiet.build.NW ≤ (1#16 : Index).toNat ∧ (0#16 : Index).toNat < quiet.build.NW ∧ badRate posInf = true ∧
    badRate 1#64 = false := by decide

theorem witness_WsresetZeroesOneContext :
    (0#16 : Index).toNat < State.reset.build.NW ∧ State.reset.build.NW ≤ (1#16 : Index).toNat := by decide

theorem witness_WshapeOutputIsBounded :
    SoftclipLaws quiet.build.functions.softclip ∧ ∃ t, exec (.wshape 0#16) quiet = .next t ∧ t.resp = .ok :=
  ⟨cfgU_meets.softclip, _, rfl, rfl⟩

theorem witness_WshapeIgnoresTheEngine :
    quiet.build = quietOpen.build ∧ quiet.arg0 = quietOpen.arg0 ∧ quiet.arg1 = quietOpen.arg1 ∧
    quiet.ws = quietOpen.ws := ⟨rfl, rfl, rfl, rfl⟩

theorem witness_CommandsNeverWriteOperands : quiet.Shaped ∧ ∃ t, exec .readmix quiet = .next t ∧ t.resp = .ok :=
  ⟨quiet_inv.shaped, _, rfl, rfl⟩

theorem witness_ResultRegisterWriters :
    (∃ t, exec .cprime State.reset = .next t ∧ t.res0 ≠ State.reset.res0) ∧
    (∃ t, exec (.phases 0#16) State.reset = .next t ∧ t.vres ≠ State.reset.vres) :=
  ⟨⟨_, rfl, by decide +kernel⟩, ⟨_, rfl, by decide⟩⟩

theorem witness_ConfigurationAndContextWriters :
    (quiet.Shaped ∧ Instr.readmix ≠ .update ∧ ∃ t, exec .readmix quiet = .next t ∧ t.resp = .ok) ∧
    (∃ s t : State, s.Shaped ∧ exec (.wsreset 0#16) s = .next t ∧ t.ws ≠ s.ws) :=
  ⟨⟨quiet_inv.shaped, by decide, _, rfl, rfl⟩,
    ⟨{ quiet with ws := [List.replicate 9 one] }, _, ⟨rfl, rfl, rfl, by decide⟩, rfl, by decide⟩⟩

theorem witness_EngineStateTransitions :
    (∃ t, exec .readmix quiet = .next t ∧ t.resp = .ok) ∧ (∃ t, exec .injwr quietOpen = .next t ∧ t.resp = .ok) :=
  ⟨⟨_, rfl, rfl⟩, ⟨_, rfl, rfl⟩⟩

theorem witness_StickyFlagsOnlySet :
    (∃ s t : State, step s = .next t ∧ s.status.nonfin = true ∧ s.status.cmderr = true ∧ s.status.addrerr = true) ∧
    (∃ t, exec .injwr (openFrame posInf) = .next t ∧ t.status.nonfin ≠ (openFrame posInf).status.nonfin) :=
  ⟨⟨{ State.reset with status := { Status.reset with nonfin := true, cmderr := true, addrerr := true } }, _, rfl, rfl,
    rfl, rfl⟩, ⟨_, rfl, by decide +kernel⟩⟩

theorem witness_ReportsAreNeverRead :
    ∃ s s' : State, s.withoutReports = s'.withoutReports ∧ s.status.est ≠ s'.status.est ∧
      s.status.cmderr ≠ s'.status.cmderr :=
  ⟨State.reset, { State.reset with status := { Status.reset with est := .suspended, cmderr := true } }, rfl, by decide,
    by decide⟩

theorem witness_EveryStepKeepsTheInvariant :
    (quiet.withInbox [.write 0#11 2#64]).Inv ∧
    ∃ t, step (quiet.withInbox [.write 0#11 2#64]) = .next t ∧ t.status.est = .running :=
  ⟨{ shaped := quiet_inv.shaped, content := quiet_inv.content, lengths := quiet_inv.lengths, frame := quiet_inv.frame,
     configured := quiet_inv.configured, unconfigured := quiet_inv.unconfigured }, _, rfl, rfl⟩

theorem witness_IdleAndSuspendedStaySilent :
    (State.reset.withInbox [.write 0#11 4#64]).QuietUnlessRunning ∧
    ∃ t, step (State.reset.withInbox [.write 0#11 4#64]) = .next t ∧ t.status.est = .suspended :=
  ⟨reset_quiet, _, rfl, rfl⟩

/-- Finite results, and the edge of overflow: the largest finite number with half a unit of its last place added, doubled,
negated, and divided by one half. -/
theorem witness_ArithmeticRoundsToNearestEven :
    (finite one = true ∧ finite 1#64 = true ∧ finite half = true ∧ finite (fadd one 1#64) = true ∧
      finite (fmul one 1#64) = true ∧ isZero 1#64 = false ∧ finite (fdiv half one) = true) ∧
    (finite 0x7FEFFFFFFFFFFFFF#64 = true ∧ finite 0x7C90000000000000#64 = true ∧
      overflowUnits ≤ exactValue 0x7FEFFFFFFFFFFFFF#64 + exactValue 0x7C90000000000000#64 ∧
      exactValue 0xFFEFFFFFFFFFFFFF#64 + exactValue 0xFC90000000000000#64 ≤ -overflowUnits ∧
      overflowUnits * unitsPerOne ≤ |exactValue 0x7FEFFFFFFFFFFFFF#64 * exactValue two| ∧
      isZero half = false ∧ overflowUnits * |exactValue half| ≤ |exactValue 0x7FEFFFFFFFFFFFFF#64 * unitsPerOne|) := by
  decide +kernel

/-- `a` the smallest subnormal, −0, both constants, and the largest number below zero. -/
theorem witness_SquareRootIsCorrectlyRounded :
    (finite 1#64 = true ∧ fle posZero 1#64 = true ∧ isZero 1#64 = false) ∧
    (finite negZero = true ∧ fle posZero negZero = true) ∧ flt 0x8000000000000001#64 posZero = true ∧
    isNaN quietNaN = true := by decide

theorem witness_DampingOverTheReals :
    ∃ (f : FunctionsOf ℝ) (l : LineOf ℝ), f.alpha 0 1 = 0 ∧ f.alpha 1 1 = 1 ∧ f.alpha 2 1 = 0 ∧ f.alpha 3 1 = 0 ∧
      l.flo = 0 ∧ l.fce = 0 ∧ (2 : ℝ) ≤ 3 ∧ (1 : ℝ) < 2 ∧ (2 : ℝ) < 3 :=
  ⟨{ realFunctions with alpha := fun fc _ => if fc = 1 then 1 else 0 }, ⟨0, 0, 0, 2, [1, 1], 0, 0⟩, by norm_num, by norm_num,
    by norm_num, by norm_num, rfl, rfl, by norm_num, by norm_num, by norm_num⟩

theorem witness_ComparisonsFollowExactValues :
    finite negZero = true ∧ finite one = true ∧ isNaN quietNaN = true ∧ isInf negInf = true ∧
    isNaN 0x7FEFFFFFFFFFFFFF#64 = false ∧ isNaN posInf = false := by decide

theorem witness_SpecialValuesOfArithmetic :
    isNaN quietNaN = true ∧ (finite 1#64 = true ∧ isZero 1#64 = false ∧ isZero negZero = true) ∧
    isZero posZero = true ∧ isInf negInf = true ∧ finite negZero = true ∧ (isNaN 1#64 = false ∧ isZero 1#64 = false) ∧
    isNaN (fmul negInf 1#64) = false ∧ isNaN (fdiv 1#64 negInf) = false := by decide +kernel

end Sys2Proof.Tests
end

section
/-! PROOFS. Every step answers a next state of the same build, and a refused command changes `RESP` and `CMDERR` only
(00_scope.md R16): what a completed command, a host access and a command word leave, then one step. -/

namespace Sys2Proof.Machine

/-! ### Completed commands -/

@[simp] theorem completed_resp (i : Instr) (s : State) : (completed i s).resp = .ok := by cases i <;> rfl

@[simp] theorem completed_build (i : Instr) (s : State) : (completed i s).build = s.build := by
  cases i <;> simp [completed]

/-! ### Host accesses -/

@[simp] theorem State.writeReg_build (s : State) (v : Word) (r : Reg) : (s.writeReg v r).build = s.build := by
  cases r <;> rfl

@[simp] theorem State.hostStore_build (s : State) (a : Addr) (v : Word) : (s.hostStore a v).build = s.build := by
  obtain ⟨r, -, -, h⟩ | h := hostStore_cases s a v <;> simp [h]

@[simp] theorem State.hostRead_build (s : State) (a : Addr) : (s.hostRead a).build = s.build := by
  obtain ⟨r, -, h⟩ | ⟨-, h⟩ := hostRead_cases s a <;> simp [h]

/-! ### Command words and steps -/

/-- A command word ends in a refusal with a code other than `OK`, or decodes to a command that completes. -/
theorem command_cases (w : Word) (s : State) :
    (∃ c, c ≠ .ok ∧ command w s = .next (s.refuse c)) ∨
      ∃ i, decode w = .ok i ∧ command w s = .next (completed i s) := by
  unfold command
  match decode w with
  | .error _ => exact .inl ⟨.illegalOp, by decide, rfl⟩
  | .ok i => exact (exec_cases i s).imp_right fun h => ⟨i, rfl, h⟩

theorem command_next_build (w : Word) (s : State) : ∃ t, command w s = .next t ∧ t.build = s.build := by
  obtain ⟨c, -, h⟩ | ⟨i, -, h⟩ := command_cases w s
  · exact ⟨_, h, State.refuse_build s c⟩
  · exact ⟨_, h, completed_build i s⟩

theorem transact_next_build (a : HostAction) (s : State) : ∃ t, transact a s = .next t ∧ t.build = s.build := by
  cases a with
  | read addr => exact ⟨_, rfl, State.hostRead_build s addr⟩
  | write addr v =>
    simp only [transact]
    split
    · exact command_next_build v s
    · exact ⟨_, rfl, State.hostStore_build s addr v⟩

theorem step_next_build (s : State) : ∃ t, step s = .next t ∧ t.build = s.build := by
  unfold step takeAction
  split
  · exact ⟨s, rfl, rfl⟩
  · exact transact_next_build _ _

/-- Settles O5: a step is a host transaction, and a command word is refused or completes (`command_cases`). -/
theorem everyStepHasANextState : Obligations.EveryStepHasANextState := by
  refine ⟨step_next_build, fun s w => ?_⟩
  obtain ⟨c, hc, h⟩ | ⟨i, -, h⟩ := command_cases w s
  · exact ⟨s.refuse c, h, .inr ⟨hc, rfl⟩⟩
  · exact ⟨completed i s, h, .inl (completed_resp i s)⟩

end Sys2Proof.Machine
end

section
/-! PROOFS. How a command ends, said once with its checks: a command is its list of checks before its completed state, so
a next state is the refusal of a failed check or, with every check passed, the completed state. -/

namespace Sys2Proof.Machine

/-- What no completed command writes: the operand and staging registers (10_state.md R27, R29), the fields of the host, and
the two error bits, which are set by a refusal and by a bad host access. -/
theorem completed_frame (i : Instr) (s : State) :
    (completed i s).arg0 = s.arg0 ∧ (completed i s).arg1 = s.arg1 ∧ (completed i s).arg2 = s.arg2 ∧
      (completed i s).staged = s.staged ∧ (completed i s).inbox = s.inbox ∧ (completed i s).replies = s.replies ∧
      (completed i s).status.cmderr = s.status.cmderr ∧ (completed i s).status.addrerr = s.status.addrerr := by
  cases i <;> simp [completed]

/-- The checks of a command in the order of its rule (60_exceptions.md R288): the condition that refuses it, with its code. -/
def checks (i : Instr) (s : State) : List (Bool × RespCode) :=
  match i with
  | .update => [(s.status.ph, .seq), (!paramsLegal s.build s.staged, .badParam)]
  | .readmix => [(!s.status.cfgv, .notConfigured), (s.status.ph, .seq), (!rateLegal s.arg0, .badArg)]
  | .injwr => [(!s.status.cfgv, .notConfigured), (!s.status.ph, .seq)]
  | .phases k => [(decide (s.build.NPH ≤ k.toNat), .badIndex)]
  | .hrow r | .prow r | .qrow r => [(decide (s.build.M ≤ r.toNat), .badIndex)]
  | .wshape ctx => [(decide (s.build.NW ≤ ctx.toNat), .badIndex), (!rateLegal s.arg0, .badArg)]
  | .wsreset ctx => [(decide (s.build.NW ≤ ctx.toNat), .badIndex)]
  | .softclip => [(!boundsLegal s.arg1 s.arg2, .badArg)]
  | .nop | .suspend | .primes | .cprime | .x2exp | .sigmoid => []

/-- The checks in front of a result, the first one outermost. -/
def guarded (s : State) (l : List (Bool × RespCode)) (rest : Result) : Result :=
  l.foldr (fun check next => refuseIf check.1 check.2 s next) rest

theorem exec_eq_guarded (i : Instr) (s : State) : exec i s = guarded s (checks i s) (.next (completed i s)) := by
  cases i <;> rfl

theorem code_ne_ok_of_mem_checks {i : Instr} {s : State} : ∀ check ∈ checks i s, check.2 ≠ .ok := by
  cases i <;> simp only [checks, List.forall_mem_cons, List.not_mem_nil, false_imp_iff, implies_true, and_true] <;> decide

/-- A guarded completion is the refusal of a failed check or, with every check passed, the completed state. -/
theorem guarded_cases (s u : State) (l : List (Bool × RespCode)) :
    (∃ check ∈ l, guarded s l (.next u) = .next (s.refuse check.2)) ∨
      ((∀ check ∈ l, check.1 = false) ∧ guarded s l (.next u) = .next u) := by
  induction l with
  | nil => exact .inr ⟨by simp, rfl⟩
  | cons head tail ih =>
    obtain ⟨_, h⟩ | ⟨hpass, h⟩ := refuseIf_cases head.1 head.2 s (guarded s tail (.next u))
    · exact .inl ⟨head, List.mem_cons_self, h⟩
    · obtain ⟨check, hmem, ht⟩ | ⟨hall, ht⟩ := ih
      · exact .inl ⟨check, List.mem_cons_of_mem _ hmem, h.trans ht⟩
      · exact .inr ⟨List.forall_mem_cons.2 ⟨hpass, hall⟩, h.trans ht⟩

/-- The next state of a command is a refusal with a code other than `OK`, or every check passed and it is the completed
state. -/
theorem exec_next_cases {i : Instr} {s t : State} (h : exec i s = .next t) :
    (∃ c, c ≠ .ok ∧ t = s.refuse c) ∨ ((∀ check ∈ checks i s, check.1 = false) ∧ t = completed i s) := by
  rw [exec_eq_guarded] at h
  obtain ⟨check, hmem, hr⟩ | ⟨hall, hr⟩ := guarded_cases s (completed i s) (checks i s)
  · exact .inl ⟨check.2, code_ne_ok_of_mem_checks check hmem, by simpa using h.symm.trans hr⟩
  · exact .inr ⟨hall, by simpa using h.symm.trans hr⟩

end Sys2Proof.Machine
end

section
/-! PROOFS. The register map (10_state.md R22): which register an address selects. -/

namespace Sys2Proof.Machine

/-! ### The registers of a build -/

/-- The registers a build has: every scalar one, and the entries of the vectors below `M`. -/
def Reg.Mapped (b : Build) : Reg → Prop
  | .xavg i | .z i | .vres i | .g i | .plen i => i < b.M
  | .cmd | .resp | .status | .id | .arg0 | .arg1 | .arg2 | .res0 | .pFeedback | .pPhase | .pFloor | .pCeil | .pCurve
  | .pLength | .cFeedback | .cPhase | .cFloor | .cCeil | .cCurve | .cLength => True

/-- The registers of a build in the order of R22. -/
def mappedRegs (b : Build) : List Reg :=
  ([.cmd, .resp, .status, .id, .arg0, .arg1, .arg2, .res0, .pFeedback, .pPhase, .pFloor, .pCeil, .pCurve, .pLength,
    .cFeedback, .cPhase, .cFloor, .cCeil, .cCurve, .cLength] : List Reg) ++
  (List.range b.M).flatMap fun i => [Reg.xavg i, .z i, .vres i, .g i, .plen i]

-- From here on one declaration is elaborated after another: in one text with the tests of the model, whose `decide`s run
-- side by side, the proofs would otherwise run short of memory.
set_option Elab.async false

theorem mem_mappedRegs {b : Build} {r : Reg} : r ∈ mappedRegs b ↔ r.Mapped b := by
  cases r <;> simp [mappedRegs, Reg.Mapped]

/-! ### Addresses -/

/-- The ranges of R6. -/
theorem Build.bounds (b : Build) : (2 ≤ b.L ∧ b.L ≤ 8) ∧ b.D < 2 ^ 32 ∧ b.NW ≤ 255 := by
  have h := b.legal
  simp only [buildLegal, Bool.and_eq_true, decide_eq_true_eq] at h
  obtain ⟨⟨⟨hL, -, hD⟩, hNW⟩, -⟩ := h
  exact ⟨hL, hD, hNW⟩

theorem Build.M_le (b : Build) : b.M ≤ 256 := Nat.pow_le_pow_right (by decide) (Build.bounds b).1.2

/-- The vectors of the map with their first addresses. -/
def vectors : List ((Nat → Reg) × Nat) :=
  [(.xavg, 0x100), (.z, 0x200), (.vres, 0x300), (.g, 0x400), (.plen, 0x500)]

theorem region_place {n i : Nat} (region : Nat) (hi : i < 256) (h : n = region * 256 + i) :
    n / 256 = region ∧ n % 256 = i := by
  omega

/-- An address in the region of a vector selects an entry of that vector or nothing. -/
theorem ofAddr_vector (b : Build) : ∀ e ∈ vectors, ∀ i < 256, ∀ a : Addr, a.toNat = e.2 + i →
    Reg.ofAddr b a = vectorReg b e.1 i := by
  intro e he i hi a ha
  have hplace := fun region => region_place (n := a.toNat) region hi
  fin_cases he
  · rw [Reg.ofAddr, (hplace 1 ha).1, (hplace 1 ha).2]; rfl
  · rw [Reg.ofAddr, (hplace 2 ha).1, (hplace 2 ha).2]; rfl
  · rw [Reg.ofAddr, (hplace 3 ha).1, (hplace 3 ha).2]; rfl
  · rw [Reg.ofAddr, (hplace 4 ha).1, (hplace 4 ha).2]; rfl
  · rw [Reg.ofAddr, (hplace 5 ha).1, (hplace 5 ha).2]; rfl

theorem addr_of_region_place {n region i : Nat} (hd : n / 256 = region) (hm : n % 256 = i) : region * 256 + i = n := by
  omega

theorem addr_eq_of_ofAddr {b : Build} {a : Addr} {r : Reg} (h : Reg.ofAddr b a = some r) :
    r.addr = a.toNat ∧ r.Mapped b := by
  have vector : ∀ {reg : Nat → Reg} {i}, vectorReg b reg i = some r → i < b.M ∧ r = reg i := by
    intro reg i h
    unfold vectorReg at h
    split at h
    · exact ⟨‹_›, by simpa using h.symm⟩
    · cases h
  unfold Reg.ofAddr at h
  split at h
  · split at h <;> cases h <;> exact ⟨addr_of_region_place ‹_› ‹_›, trivial⟩
  case h_7 => cases h
  all_goals
    obtain ⟨hi, rfl⟩ := vector h
    exact ⟨addr_of_region_place ‹_› rfl, hi⟩

theorem ofAddr_of_addr_eq {b : Build} {a : Addr} {r : Reg} (h : r.addr = a.toNat) (hr : r.Mapped b) :
    Reg.ofAddr b a = some r := by
  cases r with
  | xavg i | z i | vres i | g i | plen i =>
    have hi : i < b.M := hr
    refine (ofAddr_vector b (_, _) (by simp [vectors]; rfl) i (hi.trans_le (Build.M_le b)) a h.symm).trans ?_
    exact if_pos hi
  | _ =>
    have ha : a = BitVec.ofNat 11 a.toNat := by simp
    rw [ha, ← h]
    rfl

/-- The map of R22: an address selects the register of the build that has this address. -/
theorem ofAddr_eq_some_iff {b : Build} {a : Addr} {r : Reg} :
    Reg.ofAddr b a = some r ↔ r.addr = a.toNat ∧ r.Mapped b :=
  ⟨addr_eq_of_ofAddr, fun h => ofAddr_of_addr_eq h.1 h.2⟩

/-- Settles O8: the map is `ofAddr_eq_some_iff`, and a vector is found by its region. -/
theorem registerMapMatchesAddresses : Obligations.RegisterMapMatchesAddresses := by
  intro b
  have place : ∀ n < 0x600, (BitVec.ofNat 11 n).toNat = n := fun n hn => by
    rw [BitVec.toNat_ofNat, Nat.mod_eq_of_lt (by omega)]
  refine ⟨fun a r h => (ofAddr_eq_some_iff.1 h).1, ?_, ?_, fun a ha => ?_⟩
  · simp only [List.forall_mem_cons, List.not_mem_nil, false_imp_iff, implies_true, and_true]
    and_intros <;> rfl
  · intro e he i hi
    have haddr : (e.1 i).addr = e.2 + i ∧ e.2 ≤ 0x500 := by
      fin_cases he <;> exact ⟨rfl, by decide⟩
    exact ⟨haddr.1, ofAddr_vector b e he i hi _ (place _ (by omega))⟩
  · have region : a.toNat / 256 = 6 ∨ a.toNat / 256 = 7 := by omega
    obtain hd | hd := region <;> (rw [Reg.ofAddr, hd]; rfl)

end Sys2Proof.Machine
end

section
/-! PROOFS. The bank under the commands: where each line of the new bank comes from, and the fields it keeps. -/

namespace Sys2Proof.Machine

set_option Elab.async false

/-! ### Lists -/

theorem exists_of_mem_zipWith {α β γ : Type} {g : α → β → γ} {as : List α} {bs : List β} {c : γ}
    (h : c ∈ List.zipWith g as bs) : ∃ a ∈ as, ∃ b ∈ bs, c = g a b := by
  rw [← List.map_uncurry_zip_eq_zipWith] at h
  obtain ⟨⟨a, b⟩, hab, rfl⟩ := List.mem_map.1 h
  exact ⟨a, (List.of_mem_zip hab).1, b, (List.of_mem_zip hab).2, rfl⟩

/-- A field that each pair takes from its right half is the field of the right list. -/
theorem map_zipWith_of_right {α β γ δ : Type} {f : γ → δ} {g : α → β → γ} {p : β → δ}
    (h : ∀ a b, f (g a b) = p b) {as : List α} {bs : List β} (hl : bs.length ≤ as.length) :
    (List.zipWith g as bs).map f = bs.map p := by
  have e : (fun a b => f (g a b)) = fun _ b => p b := funext fun a => funext (h a)
  rw [List.map_zipWith, e, ← List.map_uncurry_zip_eq_zipWith]
  conv_rhs => rw [← List.map_snd_zip hl, List.map_map]
  rfl

/-- A field that each pair takes from its left half is the field of the left list. -/
theorem map_zipWith_of_left {α β γ δ : Type} {f : γ → δ} {g : α → β → γ} {p : α → δ}
    (h : ∀ a b, f (g a b) = p a) {as : List α} {bs : List β} (hl : as.length ≤ bs.length) :
    (List.zipWith g as bs).map f = as.map p := by
  rw [List.zipWith_comm]
  exact map_zipWith_of_right (fun b a => h a b) hl

theorem map_modify_eq {α β : Type} {f : α → β} {g : α → α} (h : ∀ a, f (g a) = f a) (l : List α) (i : Nat) :
    (l.modify i g).map f = l.map f := by
  refine List.ext_getElem? fun j => ?_
  simp only [List.getElem?_map, List.getElem?_modify, Option.map_eq_map, Option.map_map]
  congr 1
  funext a
  simp only [Function.comp]
  split
  · exact h a
  · rfl

theorem exists_of_mem_modify {α : Type} {g : α → α} {l : List α} {i : Nat} {a : α} (h : a ∈ l.modify i g) :
    ∃ b ∈ l, a = b ∨ a = g b := by
  obtain ⟨j, hj⟩ := List.mem_iff_getElem?.1 h
  rw [List.getElem?_modify] at hj
  obtain ⟨b, hb, rfl⟩ := Option.map_eq_some_iff.1 hj
  refine ⟨b, List.mem_of_getElem? hb, ?_⟩
  split
  · exact .inr rfl
  · exact .inl rfl

/-! ### `UPDATE` -/

@[simp] theorem primesDist_length (b : Build) (c max : Num64) : (primesDist b c max).length = b.M := by
  simp [primesDist, NumConfig.targets, NumConfig.rawTargets]

/-- The bank between the two halves of `UPDATE`: gains computed if they must be, lengths not yet. -/
def gainedLines (s : State) : List Line := if gainChanged s then gainLines s.build s.staged s.lines else s.lines

theorem updatedLines_eq (s : State) : updatedLines s =
    if lengthChanged s then resizeLines s.build s.staged (gainedLines s) else gainedLines s := rfl

theorem exists_of_mem_gainedLines {s : State} {l' : Line} (h : l' ∈ gainedLines s) :
    ∃ l ∈ s.lines, ∃ g, l' = { l with g := g } := by
  unfold gainedLines at h
  split at h
  · obtain ⟨i, -, l, hl, rfl⟩ := exists_of_mem_zipWith h
    exact ⟨l, hl, _, rfl⟩
  · exact ⟨l', h, l'.g, rfl⟩

/-- A line after `UPDATE` is an old one with some gain, and stretched to one of the distributed lengths if those were
computed. -/
theorem exists_of_mem_updatedLines {s : State} {l' : Line} (h : l' ∈ updatedLines s) :
    ∃ l ∈ s.lines, ∃ g, l' = { l with g := g } ∨
      ∃ n ∈ primesDist s.build s.staged.curve s.staged.length, l' = LineOf.stretch { l with g := g } n := by
  rw [updatedLines_eq] at h
  split at h
  · obtain ⟨n, hn, m, hm, rfl⟩ := exists_of_mem_zipWith h
    obtain ⟨l, hl, g, rfl⟩ := exists_of_mem_gainedLines hm
    exact ⟨l, hl, g, .inr ⟨n, hn, rfl⟩⟩
  · obtain ⟨l, hl, g, rfl⟩ := exists_of_mem_gainedLines h
    exact ⟨l, hl, g, .inl rfl⟩

section Shaped

variable {s : State} (h : s.lines.length = s.build.M)
include h

@[simp] theorem gainedLines_length : (gainedLines s).length = s.build.M := by
  unfold gainedLines
  split <;> simp [gainLines, h]

theorem updatedLines_length : (updatedLines s).length = s.build.M := by
  rw [updatedLines_eq]
  split <;> simp [resizeLines, h]

theorem map_gainedLines {α : Type} {f : Line → α} (hg : ∀ (l : Line) g, f { l with g := g } = f l) :
    (gainedLines s).map f = s.lines.map f := by
  unfold gainedLines gainLines
  split
  · exact map_zipWith_of_right (fun _ l => hg l _) (by simp [h])
  · rfl

/-- A field that a new gain and a new length keep is kept by `UPDATE`. -/
theorem map_updatedLines {α : Type} {f : Line → α} (hg : ∀ (l : Line) g, f { l with g := g } = f l)
    (hn : ∀ (l : Line) n, f (l.stretch n) = f l) : (updatedLines s).map f = s.lines.map f := by
  rw [updatedLines_eq, ← map_gainedLines h hg]
  unfold resizeLines
  split
  · exact map_zipWith_of_right (fun n l => hn l n) (by simp [h])
  · rfl

/-- The gains after `UPDATE` (43_fdn_engine.md R203, R204). -/
theorem updatedLines_gains : (updatedLines s).map (·.g) =
    if gainChanged s then
      (List.range s.build.M).map fun i => fmul (phaseEntry s.staged.phase.nat i) s.staged.feedback
    else s.lines.map (·.g) := by
  have hgained : (gainedLines s).map (·.g) = if gainChanged s then
      (List.range s.build.M).map fun i => fmul (phaseEntry s.staged.phase.nat i) s.staged.feedback
      else s.lines.map (·.g) := by
    unfold gainedLines gainLines
    split
    · exact map_zipWith_of_left (by intros; rfl) (by simp [h])
    · rfl
  rw [updatedLines_eq, ← hgained]
  unfold resizeLines
  split
  · exact map_zipWith_of_right (by intros; rfl) (by simp [h])
  · rfl

/-- The lengths after `UPDATE` (R203, R206). -/
theorem updatedLines_lengths : (updatedLines s).map (·.plen) =
    if lengthChanged s then primesDist s.build s.staged.curve s.staged.length else s.lines.map (·.plen) := by
  rw [updatedLines_eq]
  unfold resizeLines
  split
  · exact (map_zipWith_of_left (p := id) (by intros; rfl) (by simp [h])).trans (List.map_id _)
  · exact map_gainedLines h fun _ _ => rfl

end Shaped

/-! ### `READMIX`, `INJWR` and the store of `XAVG` -/

/-- A line after `READMIX` is an old one damped, with a scrubbed mix in `Z`. -/
theorem exists_of_mem_readmixLines {s : State} {l' : Line} (h : l' ∈ readmixLines s) :
    ∃ l ∈ s.lines, ∃ m, l' =
      { (s.build.numeric.dampLine s.cached.floor s.cached.ceil s.arg0 l).line with z := scrub m } := by
  obtain ⟨m, -, d, hd, rfl⟩ := exists_of_mem_zipWith h
  obtain ⟨l, hl, rfl⟩ := List.mem_map.1 hd
  exact ⟨l, hl, m, rfl⟩

/-- A field that damping and the write of `Z` keep is kept by `READMIX`. -/
theorem map_readmixLines {α : Type} {f : Line → α} {s : State} (h : s.lines.length = s.build.M)
    (hf : ∀ l z, f { (s.build.numeric.dampLine s.cached.floor s.cached.ceil s.arg0 l).line with z := z } = f l) :
    (readmixLines s).map f = s.lines.map f := by
  unfold readmixLines NumConfig.mixedLines dampedLines
  rw [List.zipWith_map_right]
  exact map_zipWith_of_right (fun m l => hf l _) (by simp [NumConfig.mix, h])

/-- A line after `INJWR` is an old one with a scrubbed sample pushed. -/
theorem exists_of_mem_injwrLines {s : State} {l' : Line} (h : l' ∈ injwrLines s) :
    ∃ l ∈ s.lines, ∃ v, l' = l.push (scrub v) := by
  obtain ⟨l, hl, rfl⟩ := List.mem_map.1 h
  exact ⟨l, hl, _, rfl⟩

theorem map_injwrLines {α : Type} {f : Line → α} (hf : ∀ (l : Line) v, f (l.push v) = f l) (s : State) :
    (injwrLines s).map f = s.lines.map f := by
  simp [injwrLines, NumConfig.injectedLines, hf]

end Sys2Proof.Machine
end

section
/-! PROOFS. `cprime` answers a legal length (41_primes.md R161, R162), so `primes_dist` does. -/

namespace Sys2Proof.Machine

set_option Elab.async false

/-- R44 (b) of one length: a prime from 2 to `PMAX`. -/
def LegalLength (b : Build) (n : Nat) : Prop := Nat.Prime n ∧ 2 ≤ n ∧ n ≤ b.pmax

theorem two_le_pmax (b : Build) : 2 ≤ b.pmax := (pmax_spec b).1.two_le

theorem legalLength_of_prime {b : Build} {n : Nat} (h : Nat.Prime n) (hmax : n ≤ b.pmax) : LegalLength b n :=
  ⟨h, h.two_le, hmax⟩

theorem legalLength_two (b : Build) : LegalLength b 2 := legalLength_of_prime Nat.prime_two (two_le_pmax b)

theorem primeAtMost_le_of_le_prime {n p : Nat} (hp : Nat.Prime p) (h : n ≤ p) : primeAtMost n ≤ p := by
  obtain h2 | h2 := Nat.lt_or_ge n 2
  · have : primeAtMost n = 2 := by interval_cases n <;> decide
    exact this ▸ hp.two_le
  · exact ((primeAtMost_spec n).2.1 h2).trans h

theorem not_zero_of_two_le {x : Num64} (h : fle two x = true) : 0 < magUnits (magBits x) := by
  obtain ⟨-, -, hk⟩ := fle_iff.1 h
  have htwo : orderKey two = 2 ^ 62 := by decide
  have hpos : magBits x ≠ 0 := by
    intro h0
    have : orderKey x = 0 := by simp [orderKey, h0]
    omega
  exact Nat.pos_of_ne_zero (mt magUnits_eq_zero.1 hpos)

theorem cprime_of_lt_two (b : Build) {x : Num64} (h : fle two x = false) : cprime b x = 2 := by
  simp [cprime, NumFormat.cprime, h]

theorem cprime_legal (b : Build) (x : Num64) : LegalLength b (cprime b x) := by
  obtain ⟨hprime, hD, hmax⟩ := pmax_spec b
  by_cases h2 : fle two x = true
  swap
  · rw [cprime_of_lt_two b (by simpa using h2)]
    exact legalLength_two b
  have hpos := not_zero_of_two_le h2
  have hone : 0 < unitsPerOne := Int.natCast_pos.1 unitsPerOne_pos
  simp only [cprime, NumFormat.cprime, binary64_le, binary64_two, h2, Bool.not_true, Bool.false_eq_true, if_false]
  split
  · exact legalLength_of_prime hprime (le_refl _)
  · rename_i hbelow
    have hlt : magUnits (magBits x) < b.pmax * unitsPerOne := by simpa [binary64] using hbelow
    split
    · have hfloor : binary64.floor x ≤ b.pmax := (Nat.div_lt_iff_lt_mul hone |>.2 hlt).le
      exact legalLength_of_prime (primeAtMost_spec _).1 (primeAtMost_le_of_le_prime hprime hfloor)
    · have hceil : binary64.ceil x ≤ b.pmax := by
        refine Nat.lt_succ_iff.1 ((Nat.div_lt_iff_lt_mul hone).2 ?_)
        rw [Nat.succ_mul]
        omega
      have hceil_pos : 1 ≤ binary64.ceil x := (Nat.one_le_div_iff hone).2 (by omega)
      obtain ⟨hp, -, hleast⟩ := primeAtLeast_spec b.pmax (binary64.ceil x) b.pmax hprime hceil (by omega)
      exact legalLength_of_prime hp (hleast b.pmax hprime hceil)

theorem primesDist_legal {b : Build} {c max : Num64} : ∀ n ∈ primesDist b c max, LegalLength b n := by
  intro n h
  obtain ⟨x, -, rfl⟩ := List.mem_map.1 h
  exact cprime_legal b x

end Sys2Proof.Machine
end

section
/-! PROOFS. The invariants through one step: what of a line they speak of is kept by every operation on a line, so each
command that writes the bank or a context keeps the invariant of R44, and the rest of a step writes nothing it speaks of. -/

namespace Sys2Proof.Machine

set_option Elab.async false

/-! ### Lines -/

/-- R44 (a) and (b) of one line. -/
def LineOf.Sound (b : Build) (l : Line) : Prop :=
  (finite l.flo = true ∧ finite l.fce = true ∧ finite l.z = true ∧ ∀ x ∈ l.dl, finite x = true) ∧
    LegalLength b l.plen ∧ l.wf

/-- R41 of one line. -/
def LineOf.Quiet (l : Line) : Prop :=
  l.flo = posZero ∧ l.fce = posZero ∧ l.z = posZero ∧ ∀ x ∈ l.dl, x = posZero

section

variable {b : Build} {l : Line}

theorem LineOf.Sound.withGain (h : l.Sound b) (g : Num64) : LineOf.Sound b { l with g := g } := h

theorem LineOf.Sound.withXavg (h : l.Sound b) (v : Num64) : LineOf.Sound b { l with xavg := v } := h

theorem LineOf.Sound.stretch (h : l.Sound b) {n : Nat} (hn : LegalLength b n) : (l.stretch n).Sound b := by
  obtain ⟨⟨hflo, hfce, hz, hdl⟩, -, hwf⟩ := h
  exact ⟨⟨hflo, hfce, hz, fun x hx => (LineOf.mem_stretch hx).elim (hdl x) (· ▸ finite_posZero)⟩, hn,
    LineOf.stretch_wf hwf n⟩

theorem LineOf.Sound.push (h : l.Sound b) (v : Num64) : (l.push (scrub v)).Sound b := by
  obtain ⟨⟨hflo, hfce, hz, hdl⟩, hplen, hwf⟩ := h
  exact ⟨⟨hflo, hfce, hz, fun x hx => (LineOf.mem_push hx).elim (· ▸ scrub_finite v) (hdl x)⟩, hplen,
    LineOf.push_wf hwf hplen.1.one_le _⟩

theorem LineOf.Sound.silence (h : l.Sound b) : l.silence.Sound b :=
  ⟨⟨finite_posZero, finite_posZero, finite_posZero, fun _ hx => List.eq_of_mem_replicate hx ▸ finite_posZero⟩,
    h.2.1, LineOf.silence_wf l⟩

theorem LineOf.Sound.damp (h : l.Sound b) (fl ce fs m : Num64) :
    LineOf.Sound b { (b.numeric.dampLine fl ce fs l).line with z := scrub m } := by
  obtain ⟨⟨-, -, -, hfin⟩, hlegal, hwf⟩ := h
  obtain ⟨hdl, hplen, -, -, hflo, hfce⟩ := dampLine_frame b fl ce fs l
  exact ⟨⟨hflo, hfce, scrub_finite m, hdl.symm ▸ hfin⟩, hplen.symm ▸ hlegal,
    (congrArg List.length hdl).trans (hwf.trans hplen.symm)⟩

theorem LineOf.Quiet.withGain (h : l.Quiet) (g : Num64) : LineOf.Quiet { l with g := g } := h

theorem LineOf.Quiet.withXavg (h : l.Quiet) (v : Num64) : LineOf.Quiet { l with xavg := v } := h

theorem LineOf.Quiet.stretch (h : l.Quiet) (n : Nat) : (l.stretch n).Quiet := by
  obtain ⟨hflo, hfce, hz, hdl⟩ := h
  exact ⟨hflo, hfce, hz, fun x hx => (LineOf.mem_stretch hx).elim (hdl x) id⟩

theorem LineOf.quiet_silence (l : Line) : l.silence.Quiet :=
  ⟨rfl, rfl, rfl, fun _ hx => List.eq_of_mem_replicate hx⟩

end

/-! ### The invariant, line by line -/

theorem State.Inv.sound {s : State} (h : s.Inv) : ∀ l ∈ s.lines, l.Sound s.build := by
  intro l hl
  obtain ⟨hp, htwo, hmax, hwf⟩ := h.lengths l hl
  exact ⟨h.content.1 l hl, ⟨hp, htwo, hmax⟩, hwf⟩

theorem finiteContent_of_sound {t : State} (h : ∀ l ∈ t.lines, l.Sound t.build)
    (hws : ∀ c ∈ t.ws, ∀ x ∈ c, finite x = true) : t.FiniteContent :=
  ⟨fun l hl => (h l hl).1, hws⟩

theorem legalLengths_of_sound {t : State} (h : ∀ l ∈ t.lines, l.Sound t.build) : t.LegalLengths := by
  intro l hl
  obtain ⟨-, ⟨hp, htwo, hmax⟩, hwf⟩ := h l hl
  exact ⟨hp, htwo, hmax, hwf⟩

/-! ### Writes outside the engine -/

/-- What the engine holds and a command outside it leaves alone: the build, the fields of `STATUS` but the sticky bits,
the cache registers and the bank. -/
def State.engine (s : State) : Build × EngineState × Bool × Bool × Params × List Line :=
  (s.build, s.status.est, s.status.ph, s.status.cfgv, s.cached, s.lines)

theorem engine_eq_iff {s t : State} : t.engine = s.engine ↔ t.build = s.build ∧ t.status.est = s.status.est ∧
    t.status.ph = s.status.ph ∧ t.status.cfgv = s.status.cfgv ∧ t.cached = s.cached ∧ t.lines = s.lines := by
  simp only [State.engine, Prod.mk.injEq]

/-- The invariant after a step that leaves the engine alone is that of the contexts and the length of `VRES`. -/
theorem State.Inv.of_engine {s t : State} (h : s.Inv) (e : t.engine = s.engine) (hv : t.vres.length = s.vres.length)
    (hwl : t.ws.length = s.ws.length) (hw : ∀ c ∈ t.ws, c ∈ s.ws ∨ (c.length = 9 ∧ ∀ x ∈ c, finite x = true)) :
    t.Inv := by
  obtain ⟨hlines, hvres, hws, hnine⟩ := h.shaped
  obtain ⟨hbuild, hest, hph, hcfgv, hcached, hbank⟩ := engine_eq_iff.1 e
  have hsound : ∀ l ∈ t.lines, l.Sound t.build := by
    rw [hbank, hbuild]
    exact h.sound
  refine ⟨⟨?_, ?_, ?_, fun c hc => (hw c hc).elim (hnine c) And.left⟩,
    finiteContent_of_sound hsound fun c hc => (hw c hc).elim (h.content.2 c) And.right, legalLengths_of_sound hsound,
    ?_, ?_, ?_⟩
  · rw [hbank, hbuild, hlines]
  · rw [hv, hbuild, hvres]
  · rw [hwl, hbuild, hws]
  · simpa only [State.FrameConsistent, hph, hcfgv, hest] using h.frame
  · simpa only [State.ConfiguredConsistent, hcfgv, hbank, hbuild, hcached] using h.configured
  · simpa only [State.UnconfiguredConsistent, hcfgv, hbank, hph, hest] using h.unconfigured

theorem State.QuietUnlessRunning.of_engine {s t : State} (h : s.QuietUnlessRunning) (e : t.engine = s.engine) :
    t.QuietUnlessRunning := by
  obtain ⟨-, hest, hph, -, -, hbank⟩ := engine_eq_iff.1 e
  simpa only [State.QuietUnlessRunning, hest, hph, hbank] using h

/-- The commands that write the engine. -/
def writesEngine : Instr → Bool
  | .update | .readmix | .injwr | .suspend => true
  | .nop | .primes | .cprime | .phases _ | .hrow _ | .prow _ | .qrow _ | .wshape _ | .wsreset _ | .softclip | .x2exp
  | .sigmoid => false

theorem completed_engine {i : Instr} (hi : writesEngine i = false) (s : State) :
    (completed i s).engine = s.engine := by
  cases i with
  | update | readmix | injwr | suspend => cases hi
  | _ => simp [completed, State.engine]

theorem hostRead_engine (s : State) (a : Addr) : (s.hostRead a).engine = s.engine := by
  obtain ⟨r, -, h⟩ | ⟨-, h⟩ := hostRead_cases s a <;> rw [h] <;> rfl

/-- A host store either writes one entry of `XAVG` or leaves the engine alone. -/
theorem hostStore_xavg_or_engine (s : State) (a : Addr) (v : Word) :
    (∃ i, s.hostStore a v = s.setXavg i v) ∨ (s.hostStore a v).engine = s.engine := by
  obtain ⟨r, -, -, h⟩ | h := hostStore_cases s a v <;> rw [h]
  · cases r with
    | xavg i => exact .inl ⟨i, rfl⟩
    | _ => exact .inr rfl
  · exact .inr rfl

@[simp] theorem State.writeReg_vres (s : State) (v : Word) (r : Reg) : (s.writeReg v r).vres = s.vres := by
  cases r <;> rfl

@[simp] theorem State.writeReg_ws (s : State) (v : Word) (r : Reg) : (s.writeReg v r).ws = s.ws := by
  cases r <;> rfl

@[simp] theorem State.hostStore_vres (s : State) (a : Addr) (v : Word) : (s.hostStore a v).vres = s.vres := by
  obtain ⟨r, -, -, h⟩ | h := hostStore_cases s a v <;> simp [h]

@[simp] theorem State.hostStore_ws (s : State) (a : Addr) (v : Word) : (s.hostStore a v).ws = s.ws := by
  obtain ⟨r, -, -, h⟩ | h := hostStore_cases s a v <;> simp [h]

@[simp] theorem State.hostRead_vres (s : State) (a : Addr) : (s.hostRead a).vres = s.vres := by
  obtain ⟨r, -, h⟩ | ⟨-, h⟩ := hostRead_cases s a <;> simp [h]

@[simp] theorem State.hostRead_ws (s : State) (a : Addr) : (s.hostRead a).ws = s.ws := by
  obtain ⟨r, -, h⟩ | ⟨-, h⟩ := hostRead_cases s a <;> simp [h]

/-! ### One step -/

/-- What the parts of a step keep, a step keeps: taking the transaction, a host access, a refusal, and a command whose
checks pass. -/
theorem step_keeps {P : State → Prop} (hinbox : ∀ s l, P s → P (s.withInbox l)) (hread : ∀ s a, P s → P (s.hostRead a))
    (hstore : ∀ s a v, P s → P (s.hostStore a v)) (hrefuse : ∀ s c, P s → P (s.refuse c))
    (hcompleted : ∀ i s, (∀ check ∈ checks i s, check.1 = false) → P s → P (completed i s))
    {s t : State} (h : P s) (hstep : step s = .next t) : P t := by
  obtain ⟨-, rfl⟩ | ⟨a, rest, -, rfl⟩ | ⟨a, v, rest, -, -, rfl⟩ | ⟨w, rest, e, -, -, rfl⟩ | ⟨w, rest, i, -, -, hexec⟩ :=
    step_cases hstep
  · exact h
  · exact hread _ _ (hinbox _ _ h)
  · exact hstore _ _ _ (hinbox _ _ h)
  · exact hrefuse _ _ (hinbox _ _ h)
  · obtain ⟨c, -, rfl⟩ | ⟨hpass, rfl⟩ := exec_next_cases hexec
    · exact hrefuse _ _ (hinbox _ _ h)
    · exact hcompleted _ _ hpass (hinbox _ _ h)

/-! ### The invariant of R44 -/

/-- Each stage of the cascade appends one finite memory. -/
theorem foldl_stage_mems (f : NumConfig Num64) (w : WsConsts) (fs : Num64) (ctx : List Num64)
    (hscrub : ∀ v, finite (f.scrub v) = true) (ks : List Nat) (sig : Signal Num64)
    (h : ∀ x ∈ sig.mems, finite x = true) :
    let out := ks.foldl (fun sig k => f.stage w fs sig k (ctx.getD k f.zero)) sig
    out.mems.length = sig.mems.length + ks.length ∧ ∀ x ∈ out.mems, finite x = true := by
  induction ks generalizing sig with
  | nil => exact ⟨rfl, h⟩
  | cons k ks ih =>
    obtain ⟨hlen, hfin⟩ := ih (f.stage w fs sig k (ctx.getD k f.zero)) (by
      intro x hx
      obtain hx | hx := List.mem_append.1 hx
      · exact h x hx
      · exact List.mem_singleton.1 hx ▸ hscrub _)
    refine ⟨hlen.trans ?_, hfin⟩
    simp only [NumConfig.stage, List.length_append, List.length_cons, List.length_nil]
    omega

/-- The cascade leaves nine finite memories (44_waveshaper.md R248). -/
theorem stages_mems (b : Build) (w : WsConsts) (fs x : Num64) (ctx : List Num64) :
    (b.numeric.stages w fs x ctx).mems.length = 9 ∧ ∀ y ∈ (b.numeric.stages w fs x ctx).mems, finite y = true :=
  foldl_stage_mems b.numeric w fs ctx scrub_finite (List.range 9) ⟨x, [], false⟩ (by simp)

/-- The invariant after a command has put a context of nine finite memories in place. -/
theorem State.Inv.of_context {s t : State} (h : s.Inv) (e : t.engine = s.engine) (hv : t.vres = s.vres) {k : Nat}
    {c : List Num64} (hw : t.ws = s.ws.set k c) (hc : c.length = 9 ∧ ∀ x ∈ c, finite x = true) : t.Inv := by
  refine h.of_engine e (by rw [hv]) (by rw [hw, List.length_set]) fun c' hc' => ?_
  rw [hw] at hc'
  exact (List.mem_or_eq_of_mem_set hc').imp_right fun heq : c' = c => heq ▸ hc

theorem State.Inv.of_sameMemory {s t : State} (h : s.Inv) (e : t.engine = s.engine) (hv : t.vres = s.vres)
    (hw : t.ws = s.ws) : t.Inv :=
  h.of_engine e (by rw [hv]) (by rw [hw]) fun _ hc => .inl (hw ▸ hc)

theorem completed_vres_length (i : Instr) {s : State} (h : s.vres.length = s.build.M) :
    (completed i s).vres.length = s.build.M := by
  cases i <;> simp [completed, phaseRow, hRow, pRow, qRow, NumConfig.hRow, NumConfig.pRow, NumConfig.qRow, h]

theorem paramsLegal_iff {b : Build} {p : Params} : paramsLegal b p = true ↔
    p.phase.nat < b.M * b.M ∧ finite p.feedback = true ∧ finite p.floor = true ∧ finite p.ceil = true ∧
      finite p.curve = true ∧ finite p.length = true ∧ fle posZero p.floor = true ∧ fle posZero p.ceil = true := by
  simp only [paramsLegal, Bool.and_eq_true, decide_eq_true_eq]
  unfold Build.NPH
  tauto

theorem gainChanged_eq_false {s : State} : gainChanged s = false ↔
    s.status.cfgv = true ∧ s.staged.feedback = s.cached.feedback ∧ s.staged.phase = s.cached.phase := by
  simp [gainChanged, and_assoc]

theorem lengthChanged_eq_false {s : State} : lengthChanged s = false ↔
    s.status.cfgv = true ∧ s.staged.curve = s.cached.curve ∧ s.staged.length = s.cached.length := by
  simp [lengthChanged, and_assoc]

/-- What `UPDATE` skips is what the staging registers would give again (43_fdn_engine.md R203). -/
theorem State.Inv.updatedLines_gains {s : State} (h : s.Inv) : (updatedLines s).map (·.g) =
    (List.range s.build.M).map fun i => fmul (phaseEntry s.staged.phase.nat i) s.staged.feedback := by
  rw [Machine.updatedLines_gains h.shaped.1]
  split
  · rfl
  · rename_i hg
    obtain ⟨hcfgv, hfb, hph⟩ := gainChanged_eq_false.1 (by simpa using hg)
    rw [hfb, hph]
    exact (h.configured hcfgv).1

theorem State.Inv.updatedLines_lengths {s : State} (h : s.Inv) :
    (updatedLines s).map (·.plen) = primesDist s.build s.staged.curve s.staged.length := by
  rw [Machine.updatedLines_lengths h.shaped.1]
  split
  · rfl
  · rename_i hl
    obtain ⟨hcfgv, hcv, hln⟩ := lengthChanged_eq_false.1 (by simpa using hl)
    rw [hcv, hln]
    exact (h.configured hcfgv).2.1

theorem State.Inv.sound_updatedLines {s : State} (h : s.Inv) : ∀ l ∈ updatedLines s, l.Sound s.build := by
  intro l' hl'
  obtain ⟨l, hl, g, rfl | ⟨n, hn, rfl⟩⟩ := exists_of_mem_updatedLines hl'
  · exact (h.sound l hl).withGain g
  · exact ((h.sound l hl).withGain g).stretch (primesDist_legal n hn)

/-- `UPDATE` keeps the invariant: the staging registers, legal, become the cache, and the bank is theirs. -/
theorem update_keeps_inv {s : State} (h : s.Inv) (hph : s.status.ph = false)
    (hlegal : paramsLegal s.build s.staged = true) : (completed .update s).Inv := by
  have hlines : (completed .update s).lines = updatedLines s := by simp [completed]
  have hbuild : (completed .update s).build = s.build := by simp [completed]
  have hcached : (completed .update s).cached = s.staged := by simp [completed]
  have hvres : (completed .update s).vres = s.vres := by simp [completed]
  have hws : (completed .update s).ws = s.ws := by simp [completed]
  have hclosed : (completed .update s).status.ph = false := by simp [completed, hph]
  have hcfgv : (completed .update s).status.cfgv = true := by simp [completed]
  have hsound : ∀ l ∈ (completed .update s).lines, l.Sound (completed .update s).build := by
    rw [hlines, hbuild]
    exact h.sound_updatedLines
  generalize completed .update s = t at *
  refine ⟨?_, finiteContent_of_sound hsound (by rw [hws]; exact h.content.2), legalLengths_of_sound hsound,
    fun hopen => absurd (hclosed.symm.trans hopen) (by decide), fun _ => ?_,
    fun hno => absurd (hcfgv.symm.trans hno) (by decide)⟩
  · rw [State.Shaped, hlines, hbuild, hvres, hws]
    exact ⟨updatedLines_length h.shaped.1, h.shaped.2⟩
  · rw [hlines, hbuild, hcached]
    exact ⟨h.updatedLines_gains, h.updatedLines_lengths, paramsLegal_iff.1 hlegal⟩

/-- A command that runs on a configured engine and keeps the gains and the lengths keeps the invariant if the new lines
are sound and an open frame is Running. -/
theorem State.Inv.of_configured {s t : State} (h : s.Inv) (hcfgv : s.status.cfgv = true) (hcfgv' : t.status.cfgv = true)
    (hbuild : t.build = s.build) (hcached : t.cached = s.cached) (hvres : t.vres = s.vres) (hws : t.ws = s.ws)
    (hlines : ∀ l ∈ t.lines, l.Sound s.build) (hg : t.lines.map (·.g) = s.lines.map (·.g))
    (hplen : t.lines.map (·.plen) = s.lines.map (·.plen)) (hframe : t.status.ph = true → t.status.est = .running) :
    t.Inv := by
  have hlen : t.lines.length = s.lines.length := by simpa using congrArg List.length hg
  refine ⟨?_, finiteContent_of_sound (by rwa [hbuild]) (by rw [hws]; exact h.content.2),
    legalLengths_of_sound (by rwa [hbuild]), fun hph => ⟨hcfgv', hframe hph⟩, fun _ => ?_, fun hno => ?_⟩
  · rw [State.Shaped, hlen, hbuild, hvres, hws]
    exact h.shaped
  · rw [hg, hplen, hbuild, hcached]
    exact h.configured hcfgv
  · exact absurd (hcfgv'.symm.trans hno) (by decide)

theorem readmix_keeps_inv {s : State} (h : s.Inv) (hcfgv : s.status.cfgv = true) : (completed .readmix s).Inv := by
  have hlines : (completed .readmix s).lines = readmixLines s := by simp [completed]
  have hframe := dampLine_frame s.build s.cached.floor s.cached.ceil s.arg0
  refine h.of_configured hcfgv (by simp [completed, hcfgv]) (by simp [completed]) (by simp [completed])
    (by simp [completed]) (by simp [completed]) ?_ ?_ ?_ (by simp [completed]) <;> rw [hlines]
  · intro l' hl'
    obtain ⟨l, hl, m, rfl⟩ := exists_of_mem_readmixLines hl'
    exact (h.sound l hl).damp ..
  · exact map_readmixLines h.shaped.1 fun l _ => (hframe l).2.2.1
  · exact map_readmixLines h.shaped.1 fun l _ => (hframe l).2.1

theorem injwr_keeps_inv {s : State} (h : s.Inv) (hcfgv : s.status.cfgv = true) : (completed .injwr s).Inv := by
  have hlines : (completed .injwr s).lines = injwrLines s := by simp [completed]
  refine h.of_configured hcfgv (by simp [completed, hcfgv]) (by simp [completed]) (by simp [completed])
    (by simp [completed]) (by simp [completed]) ?_ ?_ ?_ (by simp [completed]) <;> rw [hlines]
  · intro l' hl'
    obtain ⟨l, hl, v, rfl⟩ := exists_of_mem_injwrLines hl'
    exact (h.sound l hl).push v
  · exact map_injwrLines LineOf.push_g s
  · exact map_injwrLines LineOf.push_plen s

theorem suspend_keeps_inv {s : State} (h : s.Inv) : (completed .suspend s).Inv where
  shaped := ⟨by simpa [completed] using h.shaped.1, h.shaped.2⟩
  content := finiteContent_of_sound (List.forall_mem_map.2 fun l hl => (h.sound l hl).silence) h.content.2
  lengths := legalLengths_of_sound (List.forall_mem_map.2 fun l hl => (h.sound l hl).silence)
  frame hopen := by cases hopen
  configured hcfgv := by simpa [completed, Function.comp_def] using h.configured hcfgv
  unconfigured hcfgv := by
    obtain ⟨hreset, -⟩ := h.unconfigured hcfgv
    refine ⟨List.forall_mem_map.2 fun l hl => ?_, rfl, by simp [completed]⟩
    obtain ⟨hg, hplen, -⟩ := hreset l hl
    exact ⟨hg, hplen, by rw [LineOf.silence_dl, hplen]; rfl⟩

theorem setXavg_keeps_inv {s : State} (h : s.Inv) (i : Nat) (v : Num64) : (s.setXavg i v).Inv := by
  have hsound : ∀ l ∈ (s.setXavg i v).lines, l.Sound s.build := fun l' hl' => by
    obtain ⟨l, hl, rfl | rfl⟩ := exists_of_mem_modify hl'
    · exact h.sound _ hl
    · exact (h.sound l hl).withXavg v
  refine ⟨⟨?_, h.shaped.2⟩, finiteContent_of_sound hsound h.content.2, legalLengths_of_sound hsound, h.frame,
    fun hcfgv => ?_, fun hcfgv => ?_⟩
  · simpa [State.setXavg] using h.shaped.1
  · obtain ⟨hg, hplen, hrest⟩ := h.configured hcfgv
    exact ⟨(map_modify_eq (by intros; rfl) _ _).trans hg, (map_modify_eq (by intros; rfl) _ _).trans hplen, hrest⟩
  · obtain ⟨hreset, hrest⟩ := h.unconfigured hcfgv
    refine ⟨fun l' hl' => ?_, hrest⟩
    obtain ⟨l, hl, rfl | rfl⟩ := exists_of_mem_modify hl'
    · exact hreset _ hl
    · exact hreset l hl

theorem hostStore_keeps_inv {s : State} (h : s.Inv) (a : Addr) (v : Word) : (s.hostStore a v).Inv := by
  obtain ⟨i, hi⟩ | e := hostStore_xavg_or_engine s a v
  · exact hi ▸ setXavg_keeps_inv h i v
  · exact h.of_sameMemory e (State.hostStore_vres s a v) (State.hostStore_ws s a v)

theorem completed_keeps_inv {i : Instr} {s : State} (hpass : ∀ check ∈ checks i s, check.1 = false) (h : s.Inv) :
    (completed i s).Inv := by
  cases i with
  | update =>
    obtain ⟨hph, hlegal⟩ : s.status.ph = false ∧ paramsLegal s.build s.staged = true := by simpa [checks] using hpass
    exact update_keeps_inv h hph hlegal
  | readmix =>
    obtain ⟨hcfgv, -⟩ : s.status.cfgv = true ∧ _ := by simpa [checks] using hpass
    exact readmix_keeps_inv h hcfgv
  | injwr =>
    obtain ⟨hcfgv, -⟩ : s.status.cfgv = true ∧ _ := by simpa [checks] using hpass
    exact injwr_keeps_inv h hcfgv
  | suspend => exact suspend_keeps_inv h
  | wshape ctx => exact h.of_context (completed_engine rfl s) rfl rfl (stages_mems s.build ..)
  | wsreset ctx =>
    exact h.of_context (completed_engine rfl s) rfl rfl
      ⟨rfl, fun x hx => List.eq_of_mem_replicate hx ▸ finite_posZero⟩
  | _ =>
    exact h.of_engine (completed_engine rfl s)
      ((completed_vres_length _ h.shaped.2.1).trans h.shaped.2.1.symm) (by simp [completed])
      fun c hc => .inl (by simpa [completed] using hc)

/-- Settles O54: each part of a step keeps the invariant; a command that writes the bank leaves sound lines with the gains
and the lengths of the cache. -/
theorem everyStepKeepsTheInvariant : Obligations.EveryStepKeepsTheInvariant := fun _ _ =>
  step_keeps (P := State.Inv)
    (fun _ _ h => h.of_sameMemory rfl rfl rfl)
    (fun s a h => h.of_sameMemory (hostRead_engine s a) (State.hostRead_vres s a) (State.hostRead_ws s a))
    (fun _ a v h => hostStore_keeps_inv h a v)
    (fun _ _ h => h.of_sameMemory rfl rfl rfl)
    fun _ _ hpass h => completed_keeps_inv hpass h

/-! ### The rule of R41 -/

theorem setXavg_keeps_quiet {s : State} (h : s.QuietUnlessRunning) (i : Nat) (v : Num64) :
    (s.setXavg i v).QuietUnlessRunning := by
  intro hest
  obtain ⟨hlines, hph⟩ := h hest
  refine ⟨fun l' hl' => ?_, hph⟩
  obtain ⟨l, hl, rfl | rfl⟩ := exists_of_mem_modify hl'
  · exact hlines _ hl
  · exact LineOf.Quiet.withXavg (hlines l hl) v

theorem hostStore_keeps_quiet {s : State} (h : s.QuietUnlessRunning) (a : Addr) (v : Word) :
    (s.hostStore a v).QuietUnlessRunning := by
  obtain ⟨i, hi⟩ | e := hostStore_xavg_or_engine s a v
  · exact hi ▸ setXavg_keeps_quiet h i v
  · exact h.of_engine e

theorem update_keeps_quiet {s : State} (h : s.QuietUnlessRunning) : (completed .update s).QuietUnlessRunning := by
  intro hest
  obtain ⟨hlines, hph⟩ := h hest
  refine ⟨fun l' hl' => ?_, hph⟩
  obtain ⟨l, hl, g, rfl | ⟨n, -, rfl⟩⟩ := exists_of_mem_updatedLines hl'
  · exact LineOf.Quiet.withGain (hlines l hl) g
  · exact (LineOf.Quiet.withGain (hlines l hl) g).stretch n

theorem completed_keeps_quiet {i : Instr} {s : State} (hpass : ∀ check ∈ checks i s, check.1 = false)
    (h : s.QuietUnlessRunning) : (completed i s).QuietUnlessRunning := by
  cases i with
  | update => exact update_keeps_quiet h
  | readmix => exact fun hest => absurd rfl hest
  | injwr =>
    -- an open frame is Running, so an accepted `INJWR` is not one of an Idle or Suspended engine
    obtain ⟨-, hopen⟩ : _ ∧ s.status.ph = true := by simpa [checks] using hpass
    exact fun hest => absurd ((h hest).2.symm.trans hopen) (by decide)
  | suspend =>
    exact fun _ => ⟨List.forall_mem_map.2 fun l _ => l.quiet_silence, rfl⟩
  | _ => exact h.of_engine (completed_engine rfl s)

/-- Settles O55: outside Running only `UPDATE`, `SUSPEND` and the store of `XAVG` write the bank, and they leave quiet lines
quiet; `READMIX` leaves the engine Running, and `INJWR` is refused outside a frame. -/
theorem idleAndSuspendedStaySilent : Obligations.IdleAndSuspendedStaySilent := fun _ _ =>
  step_keeps (P := State.QuietUnlessRunning)
    (fun _ _ h => h.of_engine rfl)
    (fun s a h => h.of_engine (hostRead_engine s a))
    (fun _ a v h => hostStore_keeps_quiet h a v)
    (fun _ _ h => h.of_engine rfl)
    fun _ _ hpass h => completed_keeps_quiet hpass h

end Sys2Proof.Machine
end

section
/-! PROOFS. The map of R22 and the list of R63 as lists of registers, and what a host read and a host write do
(20_memory.md R62 to R64). -/

namespace Sys2Proof.Machine

set_option Elab.async false

/-! ### The map as a list of registers -/

/-- The host-writable registers of a build: those R63 lists, in the order of R22. -/
def writableRegs (b : Build) : List Reg := (mappedRegs b).filter (·.hostWritable)

theorem mem_writableRegs {b : Build} {r : Reg} : r ∈ writableRegs b ↔ r.Mapped b ∧ r.hostWritable = true := by
  rw [writableRegs, List.mem_filter, mem_mappedRegs]

theorem registerWords_eq (s : State) :
    registerWords s = (mappedRegs s.build).map fun r => (r.addr, s.readReg r) := by
  simp only [mappedRegs, List.map_append, List.map_flatMap]
  rfl

theorem hostStores_eq (s : State) (v : Word) :
    hostStores s v = (writableRegs s.build).map fun r => (r.addr, s.writeReg v r) := by
  have hvectors : ((List.range s.build.M).flatMap fun i => [Reg.xavg i, .z i, .vres i, .g i, .plen i]).filter
      (·.hostWritable) = (List.range s.build.M).map Reg.xavg := by
    rw [List.filter_flatMap]
    exact List.flatMap_pure_eq_map _ _
  rw [writableRegs, mappedRegs, List.filter_append, hvectors, List.map_append, List.map_map]
  rfl

theorem mem_registerWords {s : State} {a : Addr} {w : Word} :
    (a.toNat, w) ∈ registerWords s ↔ ∃ r, Reg.ofAddr s.build a = some r ∧ s.readReg r = w := by
  rw [registerWords_eq, List.mem_map]
  refine exists_congr fun r => ?_
  rw [mem_mappedRegs, Prod.mk.injEq, ofAddr_eq_some_iff, and_left_comm, and_assoc]

theorem mem_registerWords_addr {s : State} {a : Addr} :
    a.toNat ∈ (registerWords s).map (·.1) ↔ ∃ r, Reg.ofAddr s.build a = some r := by
  rw [registerWords_eq, List.map_map, List.mem_map]
  refine exists_congr fun r => ?_
  rw [mem_mappedRegs, ofAddr_eq_some_iff, and_comm]
  rfl

theorem mem_hostStores {s t : State} {a : Addr} {v : Word} : (a.toNat, t) ∈ hostStores s v ↔
    ∃ r, Reg.ofAddr s.build a = some r ∧ r.hostWritable = true ∧ s.writeReg v r = t := by
  rw [hostStores_eq, List.mem_map]
  refine exists_congr fun r => ?_
  rw [mem_writableRegs, Prod.mk.injEq, ofAddr_eq_some_iff]
  tauto

theorem mem_hostStores_addr {s : State} {a : Addr} {v : Word} : a.toNat ∈ (hostStores s v).map (·.1) ↔
    ∃ r, Reg.ofAddr s.build a = some r ∧ r.hostWritable = true := by
  rw [hostStores_eq, List.map_map, List.mem_map]
  refine exists_congr fun r => ?_
  rw [mem_writableRegs, ofAddr_eq_some_iff, and_comm, ← and_assoc]
  rfl

/-! ### Host reads -/

theorem step_of_read {s : State} {a : Addr} {rest : List HostAction} (h : s.inbox = .read a :: rest) :
    step s = .next ((s.withInbox rest).hostRead a) := by
  simp only [step, takeAction, h, transact]

@[simp] theorem State.readReg_withInbox (s : State) (l : List HostAction) (r : Reg) :
    (s.withInbox l).readReg r = s.readReg r := by
  cases r <;> rfl

theorem State.hostRead_of_mapped {s : State} {a : Addr} {r : Reg} (h : Reg.ofAddr s.build a = some r) :
    s.hostRead a = s.withReplies (s.readReg r :: s.replies) := by
  simp only [State.hostRead, h]

theorem State.hostRead_of_unmapped {s : State} {a : Addr} (h : Reg.ofAddr s.build a = none) :
    s.hostRead a = s.addrError.withReplies (0#64 :: s.replies) := by
  simp only [State.hostRead, h]

/-- Settles O6: the map's list holds exactly the registers that addresses select (`mem_registerWords`). -/
theorem hostReadFollowsTheMap : Obligations.HostReadFollowsTheMap := by
  intro s a rest h
  rw [step_of_read h]
  refine ⟨fun w hw => ?_, fun hno => ?_, ?_⟩
  · obtain ⟨r, hr, rfl⟩ := mem_registerWords.1 hw
    rw [State.hostRead_of_mapped (s := s.withInbox rest) hr, State.readReg_withInbox]
    rfl
  · have hnone : Reg.ofAddr s.build a = none :=
      Option.eq_none_iff_forall_ne_some.2 fun r hr => hno (mem_registerWords_addr.2 ⟨r, hr⟩)
    rw [State.hostRead_of_unmapped (s := s.withInbox rest) hnone]
    rfl
  · split
    · rename_i r hr
      exact mem_registerWords.2 ⟨r, hr, rfl⟩
    · rename_i hnone
      rw [mem_registerWords_addr, hnone]
      simp

/-! ### Host writes -/

theorem step_of_write {s : State} {a : Addr} {v : Word} {rest : List HostAction} (h : s.inbox = .write a v :: rest) :
    step s = if a = cmdAddr then command v (s.withInbox rest) else .next ((s.withInbox rest).hostStore a v) := by
  simp only [step, takeAction, h, transact]

/-- A host-writable register is not `CMD`. -/
theorem ne_cmdAddr_of_writable {b : Build} {a : Addr} {r : Reg} (h : Reg.ofAddr b a = some r)
    (hw : r.hostWritable = true) : a ≠ cmdAddr := by
  rintro rfl
  have hcmd : r = .cmd := Option.some.inj (h.symm.trans rfl)
  rw [hcmd] at hw
  cases hw

theorem State.hostStore_of_writable {s : State} {a : Addr} {r : Reg} (h : Reg.ofAddr s.build a = some r)
    (hw : r.hostWritable = true) (v : Word) : s.hostStore a v = s.writeReg v r := by
  simp only [State.hostStore, h, hw, if_true]

/-- The store to `XAVG[i]` changes that entry of that line. -/
theorem State.line_setXavg (s : State) (i : Nat) (v : Num64) (j : Nat) :
    (s.setXavg i v).line j = s.line j ∨ (i = j ∧ (s.setXavg i v).line j = { s.line j with xavg := v }) := by
  simp only [State.line, State.setXavg, State.withLines_lines, List.getD_eq_getElem?_getD, List.getElem?_modify]
  by_cases hij : i = j
  · cases s.lines[j]? <;> simp [hij]
  · simp [hij]

/-- What the store to an entry of `XAVG` keeps of every line. -/
theorem State.line_setXavg_frame (s : State) (i : Nat) (v : Num64) (j : Nat) :
    ((s.setXavg i v).line j).z = (s.line j).z ∧ ((s.setXavg i v).line j).g = (s.line j).g ∧
      ((s.setXavg i v).line j).plen = (s.line j).plen := by
  obtain hline | ⟨-, hline⟩ := s.line_setXavg i v j <;> rw [hline] <;> exact ⟨rfl, rfl, rfl⟩

theorem State.line_setXavg_of_ne (s : State) {i j : Nat} (h : i ≠ j) (v : Num64) :
    (s.setXavg i v).line j = s.line j :=
  (s.line_setXavg i v j).elim id fun hij => absurd hij.1 h

theorem State.xavg_setXavg_same {s : State} {i : Nat} (h : i < s.lines.length) (v : Num64) :
    ((s.setXavg i v).line i).xavg = v := by
  simp [State.line, State.setXavg, List.getElem?_eq_getElem h]

theorem readReg_writeReg_same {s : State} {r : Reg} (hl : s.lines.length = s.build.M) (hr : r.Mapped s.build)
    (hw : r.hostWritable = true) (v : Word) : (s.writeReg v r).readReg r = v := by
  cases r with
  | xavg i => exact State.xavg_setXavg_same (hl ▸ hr) v
  | arg0 | arg1 | arg2 | pFeedback | pPhase | pFloor | pCeil | pCurve | pLength => rfl
  | _ => cases hw

theorem readReg_setXavg_of_ne {s : State} {i : Nat} {r : Reg} (h : r ≠ .xavg i) (v : Num64) :
    (s.setXavg i v).readReg r = s.readReg r := by
  obtain hframe := s.line_setXavg_frame i v
  cases r with
  | xavg j => exact congrArg LineOf.xavg (s.line_setXavg_of_ne (fun hij => h (congrArg Reg.xavg hij.symm)) v)
  | z j => exact (hframe j).1
  | g j => exact (hframe j).2.1
  | plen j => exact congrArg wordn (hframe j).2.2
  | _ => rfl

theorem readReg_writeReg_of_ne {s : State} {r r' : Reg} (h : r' ≠ r) (v : Word) :
    (s.writeReg v r).readReg r' = s.readReg r' := by
  cases r with
  | xavg i => exact readReg_setXavg_of_ne h v
  | arg0 => cases r' with | arg0 => exact absurd rfl h | _ => rfl
  | arg1 => cases r' with | arg1 => exact absurd rfl h | _ => rfl
  | arg2 => cases r' with | arg2 => exact absurd rfl h | _ => rfl
  | pFeedback => cases r' with | pFeedback => exact absurd rfl h | _ => rfl
  | pPhase => cases r' with | pPhase => exact absurd rfl h | _ => rfl
  | pFloor => cases r' with | pFloor => exact absurd rfl h | _ => rfl
  | pCeil => cases r' with | pCeil => exact absurd rfl h | _ => rfl
  | pCurve => cases r' with | pCurve => exact absurd rfl h | _ => rfl
  | pLength => cases r' with | pLength => exact absurd rfl h | _ => rfl
  | _ => rfl

/-- A host store changes no internal memory and nothing of the host. -/
theorem writeReg_frame (s : State) (v : Word) (r : Reg) :
    (s.writeReg v r).lines.map (fun l => (l.dl, l.flo, l.fce)) = s.lines.map (fun l => (l.dl, l.flo, l.fce)) ∧
      (s.writeReg v r).ws = s.ws ∧ (s.writeReg v r).build = s.build ∧ (s.writeReg v r).inbox = s.inbox ∧
      (s.writeReg v r).replies = s.replies ∧ (s.writeReg v r).draws = s.draws := by
  cases r with
  | xavg i => exact ⟨map_modify_eq (by intros; rfl) _ _, rfl, rfl, rfl, rfl, rfl⟩
  | _ => exact ⟨rfl, rfl, rfl, rfl, rfl, rfl⟩

/-- Settles O7: the list of R63 holds exactly the host-writable registers that addresses select (`mem_hostStores`), and a
store to one of them writes that register alone. -/
theorem hostWriteFollowsTheMap : Obligations.HostWriteFollowsTheMap := by
  intro s a v rest h
  have hstep := step_of_write h
  have hwrite : ∀ r, Reg.ofAddr s.build a = some r → r.hostWritable = true →
      step s = .next ((s.withInbox rest).writeReg v r) := fun r hr hw => by
    rw [hstep, if_neg (ne_cmdAddr_of_writable hr hw), State.hostStore_of_writable (s := s.withInbox rest) hr hw]
  refine ⟨fun ha => ?_, fun t ht => ?_, fun ha hno => ?_, fun r hr => ?_, fun r hl hr hw => ?_⟩
  · rw [hstep, if_pos (show a = cmdAddr from ha)]
    rfl
  · obtain ⟨r, hr, hw, rfl⟩ := mem_hostStores.1 ht
    exact hwrite r hr hw
  · rw [hstep, if_neg (show a ≠ cmdAddr from ha)]
    obtain ⟨r, hr, hw, -⟩ | herr := hostStore_cases (s.withInbox rest) a v
    · exact absurd (mem_hostStores_addr (s := s).2 ⟨r, hr, hw⟩) hno
    · rw [herr]
      rfl
  · rw [mem_hostStores_addr, hr]
    simp
  · obtain ⟨hlines, hws, hbuild, hinbox, hreplies, hdraws⟩ := writeReg_frame (s.withInbox rest) v r
    refine ⟨_, hwrite r hr hw, ?_, fun a' r' _ hne => ?_, hlines, hws, hbuild, hinbox, hreplies, hdraws⟩
    · exact readReg_writeReg_same (s := s.withInbox rest) hl (ofAddr_eq_some_iff.1 hr).2 hw v
    · rw [readReg_writeReg_of_ne hne, State.readReg_withInbox]

end Sys2Proof.Machine
end

section
/-! PROOFS. The rules over all commands: what a completed command leaves alone, field by field, and who may write the rest
(10_state.md R27 to R35, R38, R41, R42; 60_exceptions.md R293). -/

namespace Sys2Proof.Machine

set_option Elab.async false

/-! ### Operands -/

/-- A field of a line that no command but `UPDATE` writes: neither damping with the write of `Z`, nor a push, nor
`SUSPEND` changes it. -/
def KeptByFrames {α : Type} (f : Line → α) (s : State) : Prop :=
  (∀ l z, f { (s.build.numeric.dampLine s.cached.floor s.cached.ceil s.arg0 l).line with z := z } = f l) ∧
    (∀ (l : Line) v, f (l.push v) = f l) ∧ ∀ l : Line, f l.silence = f l

theorem keptByFrames_xavg (s : State) : KeptByFrames (·.xavg) s := by
  refine ⟨fun l z => ?_, fun _ _ => rfl, fun _ => rfl⟩
  obtain ⟨-, -, -, hxavg, -, -⟩ := dampLine_frame s.build s.cached.floor s.cached.ceil s.arg0 l
  exact hxavg

theorem keptByFrames_g (s : State) : KeptByFrames (·.g) s := by
  refine ⟨fun l z => ?_, fun _ _ => rfl, fun _ => rfl⟩
  obtain ⟨-, -, hg, -, -, -⟩ := dampLine_frame s.build s.cached.floor s.cached.ceil s.arg0 l
  exact hg

theorem keptByFrames_plen (s : State) : KeptByFrames (·.plen) s := by
  refine ⟨fun l z => ?_, fun _ _ => rfl, fun _ => rfl⟩
  obtain ⟨-, hplen, -, -, -, -⟩ := dampLine_frame s.build s.cached.floor s.cached.ceil s.arg0 l
  exact hplen

theorem map_completed_lines {α : Type} {f : Line → α} {i : Instr} {s : State} (hl : s.lines.length = s.build.M)
    (hi : i ≠ .update) (hf : KeptByFrames f s) : (completed i s).lines.map f = s.lines.map f := by
  obtain ⟨hdamp, hpush, hsilence⟩ := hf
  cases i with
  | update => exact absurd rfl hi
  | readmix => exact map_readmixLines hl hdamp
  | injwr => exact map_injwrLines hpush s
  | suspend => simp [completed, hsilence]
  | _ => simp [completed]

theorem map_xavg_completed (i : Instr) {s : State} (hl : s.lines.length = s.build.M) :
    (completed i s).lines.map (·.xavg) = s.lines.map (·.xavg) := by
  by_cases hi : i = .update
  · rw [hi]
    exact map_updatedLines hl (fun _ _ => rfl) fun _ _ => rfl
  · exact map_completed_lines hl hi (keptByFrames_xavg s)

/-- Settles O48: a refusal and every completed command leave these registers alone. -/
theorem commandsNeverWriteOperands : Obligations.CommandsNeverWriteOperands := by
  intro i s t hs h
  obtain ⟨c, -, rfl⟩ | ⟨-, rfl⟩ := exec_next_cases h
  · exact ⟨rfl, rfl, rfl, rfl, rfl, rfl, rfl⟩
  · obtain ⟨h0, h1, h2, hstaged, hinbox, hreplies, -, -⟩ := completed_frame i s
    exact ⟨h0, h1, h2, hstaged, map_xavg_completed i hs.1, hinbox, hreplies⟩

/-! ### Results, configuration and contexts -/

theorem completed_res0_eq {i : Instr} (hi : i.mnemonic ∉ ["INJWR", "CPRIME", "WSHAPE", "SOFTCLIP", "X2EXP", "SIGMOID"])
    (s : State) : (completed i s).res0 = s.res0 := by
  cases i with
  | injwr | cprime | wshape _ | softclip | x2exp | sigmoid => simp [Instr.mnemonic] at hi
  | _ => simp [completed]

theorem completed_vres_eq {i : Instr} (hi : i.mnemonic ∉ ["PRIMES", "PHASES", "HROW", "PROW", "QROW"]) (s : State) :
    (completed i s).vres = s.vres := by
  cases i with
  | primes | phases _ | hrow _ | prow _ | qrow _ => simp [Instr.mnemonic] at hi
  | _ => simp [completed]

theorem completed_ws_eq {i : Instr} (hi : i.mnemonic ∉ ["WSHAPE", "WSRESET"]) (s : State) :
    (completed i s).ws = s.ws := by
  cases i with
  | wshape _ | wsreset _ => simp [Instr.mnemonic] at hi
  | _ => simp [completed]

theorem completed_cached_eq {i : Instr} (hi : i ≠ .update) (s : State) :
    (completed i s).cached = s.cached ∧ (completed i s).status.cfgv = s.status.cfgv := by
  cases i with
  | update => exact absurd rfl hi
  | _ => simp [completed]

/-- A field that the commands outside a list leave alone changes only when a command of the list completes. -/
theorem writer_of_changed {α : Type} {f : State → α} {i : Instr} {s t : State} {writers : List String}
    (hrefuse : ∀ c, f (s.refuse c) = f s) (hother : i.mnemonic ∉ writers → f (completed i s) = f s)
    (h : exec i s = .next t) (hne : f t ≠ f s) : t.resp = .ok ∧ i.mnemonic ∈ writers := by
  obtain ⟨c, -, rfl⟩ | ⟨-, rfl⟩ := exec_next_cases h
  · exact absurd (hrefuse c) hne
  · exact ⟨completed_resp i s, by_contra fun hi => hne (hother hi)⟩

/-- Settles O49. -/
theorem resultRegisterWriters : Obligations.ResultRegisterWriters := fun _ s _ h =>
  ⟨writer_of_changed (fun _ => rfl) (completed_res0_eq · s) h,
    writer_of_changed (fun _ => rfl) (completed_vres_eq · s) h⟩

/-- Settles O50. -/
theorem configurationAndContextWriters : Obligations.ConfigurationAndContextWriters := by
  intro i s t hs h
  refine ⟨fun hi => ?_, writer_of_changed (fun _ => rfl) (completed_ws_eq · s) h⟩
  obtain ⟨c, -, rfl⟩ | ⟨-, rfl⟩ := exec_next_cases h
  · exact ⟨rfl, rfl, rfl, rfl⟩
  · obtain ⟨hcached, hcfgv⟩ := completed_cached_eq hi s
    exact ⟨hcached, map_completed_lines hs.1 hi (keptByFrames_g s), map_completed_lines hs.1 hi (keptByFrames_plen s), hcfgv⟩

/-! ### The fields of `STATUS` -/

theorem completed_est (i : Instr) (s : State) : (completed i s).status.est =
    if i = .readmix then .running else if i = .suspend then .suspended else s.status.est := by
  cases i <;> simp [completed]

theorem completed_ph (i : Instr) (s : State) : (completed i s).status.ph =
    if i = .readmix then true else if i = .suspend ∨ i = .injwr then false else s.status.ph := by
  cases i <;> simp [completed]

theorem completed_cmderr (i : Instr) (s : State) : (completed i s).status.cmderr = s.status.cmderr := by
  obtain ⟨-, -, -, -, -, -, h, -⟩ := completed_frame i s
  exact h

theorem completed_addrerr (i : Instr) (s : State) : (completed i s).status.addrerr = s.status.addrerr := by
  obtain ⟨-, -, -, -, -, -, -, h⟩ := completed_frame i s
  exact h

theorem completed_nonfin_eq {i : Instr} (hi : i.mnemonic ∉ ["READMIX", "INJWR", "WSHAPE"]) (s : State) :
    (completed i s).status.nonfin = s.status.nonfin := by
  cases i with
  | readmix | injwr | wshape _ => simp [Instr.mnemonic] at hi
  | _ => simp [completed]

theorem completed_nonfin_sticky (i : Instr) {s : State} (h : s.status.nonfin = true) :
    (completed i s).status.nonfin = true := by
  cases i <;> simp [completed, h]

/-- `SUSPEND` has no check, so it is never refused. -/
theorem exec_suspend (s : State) : exec .suspend s = .next (completed .suspend s) := rfl

/-- Settles O51: a refusal leaves `EST` and `PH` alone, and `SUSPEND` is never refused. -/
theorem engineStateTransitions : Obligations.EngineStateTransitions := by
  intro i s t h
  obtain ⟨c, hc, rfl⟩ | ⟨-, rfl⟩ := exec_next_cases h
  · have hi : i ≠ .suspend := by
      rintro rfl
      have hresp := congrArg State.resp (Host.Outcome.next.inj ((exec_suspend s).symm.trans h))
      exact hc hresp.symm
    simp [hc, hi]
  · simp [completed_est, completed_ph]

/-- The sticky bits of one state are set in another. -/
def StickyKept (s t : State) : Prop :=
  (s.status.nonfin = true → t.status.nonfin = true) ∧ (s.status.cmderr = true → t.status.cmderr = true) ∧
    (s.status.addrerr = true → t.status.addrerr = true)

theorem stickyKept_hostRead (s : State) (a : Addr) : StickyKept s (s.hostRead a) := by
  obtain ⟨r, -, h⟩ | ⟨-, h⟩ := hostRead_cases s a <;> simp [StickyKept, h]

@[simp] theorem State.writeReg_status (s : State) (v : Word) (r : Reg) : (s.writeReg v r).status = s.status := by
  cases r <;> rfl

theorem stickyKept_hostStore (s : State) (a : Addr) (v : Word) : StickyKept s (s.hostStore a v) := by
  obtain ⟨r, -, -, h⟩ | h := hostStore_cases s a v <;> simp [StickyKept, h]

theorem stickyKept_completed (i : Instr) (s : State) : StickyKept s (completed i s) :=
  ⟨completed_nonfin_sticky i, (completed_cmderr i s).trans, (completed_addrerr i s).trans⟩

theorem StickyKept.trans {s t u : State} (h : StickyKept s t) (h' : StickyKept t u) : StickyKept s u := by
  obtain ⟨hn, hc, ha⟩ := h
  obtain ⟨hn', hc', ha'⟩ := h'
  exact ⟨hn' ∘ hn, hc' ∘ hc, ha' ∘ ha⟩

/-- Settles O52: every part of a step keeps the sticky bits, and a command writes them as the lemmas above say. -/
theorem stickyFlagsOnlySet : Obligations.StickyFlagsOnlySet := by
  refine ⟨fun s t h => ?_, fun i s t h => ⟨?_, ?_,
    writer_of_changed (f := (·.status.nonfin)) (fun _ => rfl) (completed_nonfin_eq · s) h⟩⟩
  · refine step_keeps (P := StickyKept s) (fun u l hu => hu.trans ⟨id, id, id⟩)
      (fun u a hu => hu.trans (stickyKept_hostRead u a)) (fun u a v hu => hu.trans (stickyKept_hostStore u a v))
      (fun u c hu => hu.trans ⟨id, fun _ => rfl, id⟩) (fun i u _ hu => hu.trans (stickyKept_completed i u))
      ⟨id, id, id⟩ h
  · obtain ⟨c, hc, rfl⟩ | ⟨-, rfl⟩ := exec_next_cases h
    · simp [hc]
    · simp [completed_cmderr]
  · obtain ⟨c, -, rfl⟩ | ⟨-, rfl⟩ := exec_next_cases h
    · rfl
    · exact completed_addrerr i s

/-! ### The reports are never read -/

theorem checks_withoutReports (i : Instr) (s : State) : checks i s.withoutReports = checks i s := by
  cases i <;> rfl

theorem setRes0Pure_withoutReports (s : State) (v : Num64) :
    (s.setRes0Pure v).withoutReports = (s.withoutReports.setRes0Pure v).withoutReports := by
  unfold State.setRes0Pure
  split <;> rfl

theorem completed_withoutReports (i : Instr) (s : State) :
    (completed i s).withoutReports = (completed i s.withoutReports).withoutReports := by
  cases i with
  | softclip | x2exp | sigmoid => exact congrArg State.complete (setRes0Pure_withoutReports s _)
  | _ => rfl

/-- A command on a state with its reports blanked ends as it does on the state, up to the reports. -/
theorem exec_withoutReports (i : Instr) (s : State) : ∃ t u, exec i s = .next t ∧
    exec i s.withoutReports = .next u ∧ t.withoutReports = u.withoutReports := by
  rw [exec_eq_guarded, exec_eq_guarded, checks_withoutReports]
  induction checks i s with
  | nil => exact ⟨_, _, rfl, rfl, completed_withoutReports i s⟩
  | cons check rest ih =>
    obtain ⟨failed, code⟩ := check
    cases failed with
    | true => exact ⟨_, _, rfl, rfl, rfl⟩
    | false => exact ih

/-- Settles O53: both states behave as the one state with the reports blanked. -/
theorem reportsAreNeverRead : Obligations.ReportsAreNeverRead := by
  intro i s s' h
  obtain ⟨t, u, ht, hu, e⟩ := exec_withoutReports i s
  obtain ⟨t', u', ht', hu', e'⟩ := exec_withoutReports i s'
  have huu : u = u' := Host.Outcome.next.inj (hu.symm.trans ((congrArg (exec i) h).trans hu'))
  exact ⟨t, t', ht, ht', e.trans (huu ▸ e'.symm)⟩

end Sys2Proof.Machine
end

section
/-! PROOFS. Reset (10_state.md R45 to R48), and the composed words `STATUS`, `RESP` and `ID` (R24 to R26). -/

namespace Sys2Proof.Machine

set_option Elab.async false

/-! ### Reset -/

@[simp] theorem State.line_resetOf (b : Build) (i : Nat) : (State.resetOf b).line i = Line.reset := by
  exact List.getElem?_getD_replicate_default_eq ..

/-- Settles O1: every scalar register of the reset state is its constant, and every line is the reset line. -/
theorem resetRegistersReadResetValues : Obligations.ResetRegistersReadResetValues := by
  intro b a r _
  have hline := State.line_resetOf b
  cases r with
  | xavg i => exact congrArg LineOf.xavg (hline i)
  | z i => exact congrArg LineOf.z (hline i)
  | g i => exact congrArg LineOf.g (hline i)
  | plen i => exact congrArg (wordn ·.plen) (hline i)
  | vres i => exact List.getElem?_getD_replicate_default_eq ..
  | resp => exact (by decide : RespCode.ok.word = 0#64)
  | status => exact (by decide : Status.reset.word = 0#64)
  | _ => rfl

theorem eq_reset_of_mem_resetOf {b : Build} {l : Line} (h : l ∈ (State.resetOf b).lines) : l = Line.reset :=
  List.eq_of_mem_replicate h

theorem eq_silence_of_mem_resetOf {b : Build} {c : List Num64} (h : c ∈ (State.resetOf b).ws) :
    c = List.replicate 9 posZero :=
  List.eq_of_mem_replicate h

theorem quiet_reset : LineOf.Quiet Line.reset := ⟨rfl, rfl, rfl, by simp [Line.reset]⟩

theorem sound_reset (b : Build) : LineOf.Sound b Line.reset :=
  ⟨⟨finite_posZero, finite_posZero, finite_posZero, by simp [Line.reset]⟩, legalLength_two b, rfl⟩

theorem sound_resetOf (b : Build) : ∀ l ∈ (State.resetOf b).lines, l.Sound (State.resetOf b).build :=
  fun _ hl => eq_reset_of_mem_resetOf hl ▸ sound_reset b

theorem fle_two_of_flt {x : Num64} (h : flt x two = true) : fle two x = false := by
  obtain ⟨-, -, hlt⟩ := flt_iff.1 h
  exact Bool.eq_false_iff.2 fun hle => absurd (fle_iff.1 hle).2.2 (by omega)

/-- Settles O2. -/
theorem resetMemoryIsSilent : Obligations.ResetMemoryIsSilent := by
  refine fun b => ⟨List.length_replicate, fun l hl => ?_, List.length_replicate, fun _ => eq_silence_of_mem_resetOf,
    fun x hx => cprime_of_lt_two b (fle_two_of_flt hx), legalLengths_of_sound (sound_resetOf b)⟩
  rw [eq_reset_of_mem_resetOf hl]
  exact ⟨rfl, rfl, rfl, rfl⟩

theorem resetOf_inv (b : Build) : (State.resetOf b).Inv where
  shaped := ⟨List.length_replicate, List.length_replicate, List.length_replicate,
    fun _ hc => eq_silence_of_mem_resetOf hc ▸ List.length_replicate⟩
  content := finiteContent_of_sound (sound_resetOf b) fun c hc x hx => by
    rw [eq_silence_of_mem_resetOf hc] at hx
    exact List.eq_of_mem_replicate hx ▸ finite_posZero
  lengths := legalLengths_of_sound (sound_resetOf b)
  frame hopen := by cases hopen
  configured hcfgv := by cases hcfgv
  unconfigured _ := ⟨fun _ hl => eq_reset_of_mem_resetOf hl ▸ ⟨rfl, rfl, rfl⟩, rfl, nofun⟩

/-- Settles O3. -/
theorem resetMeetsInvariants : Obligations.ResetMeetsInvariants := fun b =>
  ⟨resetOf_inv b, fun _ => ⟨fun _ hl => eq_reset_of_mem_resetOf hl ▸ quiet_reset, rfl⟩⟩

/-! ### Composed words -/

/-- Appended fields as a sum: the left one counts in units of the right one's range. -/
theorem toNat_append_eq_add {m n : Nat} (x : BitVec m) (y : BitVec n) :
    (x ++ y).toNat = x.toNat * 2 ^ n + y.toNat := by
  rw [BitVec.toNat_append, ← Nat.shiftLeft_add_eq_or_of_lt y.isLt, Nat.shiftLeft_eq]

theorem toNat_append_div {m n : Nat} (x : BitVec m) (y : BitVec n) : (x ++ y).toNat / 2 ^ n = x.toNat := by
  rw [toNat_append_eq_add, Nat.mul_comm, Nat.mul_add_div (Nat.two_pow_pos n), Nat.div_eq_of_lt y.isLt, Nat.add_zero]

theorem toNat_append_mod {m n : Nat} (x : BitVec m) (y : BitVec n) : (x ++ y).toNat % 2 ^ n = y.toNat := by
  rw [toNat_append_eq_add, Nat.mul_add_mod_self_right, Nat.mod_eq_of_lt y.isLt]

theorem ite_eq_toNat_ofBool_mul (c : Bool) (k : Nat) : (if c then k else 0) = (BitVec.ofBool c).toNat * k := by
  cases c <;> simp

theorem Status.word_toNat (t : Status) : t.word.toNat =
    t.est.code.toNat + (if t.ph then 4 else 0) + (if t.cfgv then 8 else 0) + (if t.nonfin then 256 else 0) +
      (if t.cmderr then 512 else 0) + (if t.addrerr then 1024 else 0) := by
  have h : t.word.toNat = (0#53 ++ BitVec.ofBool t.addrerr ++ BitVec.ofBool t.cmderr ++ BitVec.ofBool t.nonfin ++ 0#4 ++
      BitVec.ofBool t.cfgv ++ BitVec.ofBool t.ph ++ t.est.code).toNat := rfl
  rw [h]
  simp only [toNat_append_eq_add, ite_eq_toNat_ofBool_mul, BitVec.toNat_ofNat]
  ring

theorem RespCode.word_toNat (c : RespCode) : c.word.toNat = c.code.toNat := by
  have h : c.word.toNat = (0#56 ++ c.code).toNat := rfl
  rw [h, toNat_append_eq_add]
  simp

/-- Settles O9. -/
theorem statusAndRespLayout : Obligations.StatusAndRespLayout := by
  intro s
  refine ⟨(Status.word_toNat s.status).trans ?_, (RespCode.word_toNat s.resp).trans ?_⟩
  · cases s.status.est <;> rfl
  · cases s.resp <;> rfl

/-- Settles O10: `ID` is its four fields appended, and each fits its width by the ranges of R6. -/
theorem idFields : Obligations.IdFields := by
  intro s
  obtain ⟨⟨-, hL⟩, hD, hNW⟩ := Build.bounds s.build
  have h : (s.readReg .id).toNat = (0x0007#16 ++ BitVec.ofNat 32 s.build.D ++ BitVec.ofNat 8 s.build.NW ++
    BitVec.ofNat 8 s.build.L).toNat := rfl
  have h16 : (s.readReg .id).toNat / 2 ^ 16 = (0x0007#16 ++ BitVec.ofNat 32 s.build.D).toNat := by
    rw [h, show 2 ^ 16 = 2 ^ 8 * 2 ^ 8 from rfl, ← Nat.div_div_eq_div_mul, toNat_append_div, toNat_append_div]
  refine ⟨?_, rfl, ?_, ?_, ?_⟩
  · rw [h, toNat_append_mod, BitVec.toNat_ofNat, Nat.mod_eq_of_lt (by omega)]
  · rw [h, toNat_append_div, toNat_append_mod, BitVec.toNat_ofNat, Nat.mod_eq_of_lt (by omega)]
  · rw [h16, toNat_append_mod, BitVec.toNat_ofNat, Nat.mod_eq_of_lt hD]
  · rw [show 2 ^ 48 = 2 ^ 16 * 2 ^ 32 from rfl, ← Nat.div_div_eq_div_mul, h16, toNat_append_div]
    rfl

end Sys2Proof.Machine
end

section
/-! PROOFS. The ring buffer of 20_memory.md R70 realises the delay line: the elements `s[0], …, s[D−1]` stand in distinct
slots, so a write changes one element, and a push is a write to `s[D−1]` with the elements renumbered by one. -/

namespace Sys2Proof.Machine

/-! ### The ring as a family of elements -/

/-- The abstract element `s[j]`, active or not. -/
def RingBuffer.elem (r : RingBuffer) (j : Nat) : Num64 := r.buf.getD (r.slot j) posZero

section

variable {r : RingBuffer} {i j : Nat}

theorem RingBuffer.wf_iff : r.wf = true ↔ r.w < r.D ∧ 1 ≤ r.p ∧ r.p ≤ r.D := decide_eq_true_iff

theorem RingBuffer.samples_eq_map_elem (r : RingBuffer) : r.samples = (List.range r.p).map r.elem := rfl

@[simp] theorem RingBuffer.samples_length (r : RingBuffer) : r.samples.length = r.p := by
  rw [samples_eq_map_elem, List.length_map, List.length_range]

theorem RingBuffer.slot_lt (hw : r.w < r.D) (j : Nat) : r.slot j < r.D := Nat.mod_lt _ (by omega)

/-- The slots run down from the one below `w` to 0, then from `D − 1` down to `w`. -/
theorem RingBuffer.slot_eq_ite (hw : r.w < r.D) (hj : j < r.D) :
    r.slot j = if j < r.w then r.w - 1 - j else r.w + r.D - 1 - j := by
  unfold slot
  split
  · rw [show r.w + r.D - 1 - j = r.w - 1 - j + r.D by omega, Nat.add_mod_right, Nat.mod_eq_of_lt (by omega)]
  · exact Nat.mod_eq_of_lt (by omega)

theorem RingBuffer.slot_inj (hw : r.w < r.D) (hi : i < r.D) (hj : j < r.D) : r.slot i = r.slot j ↔ i = j := by
  rw [slot_eq_ite hw hi, slot_eq_ite hw hj]
  split <;> split <;> omega

/-- A write to the slot of `s[i]` changes that element only. -/
theorem RingBuffer.elem_set_slot (hw : r.w < r.D) (hi : i < r.D) (hj : j < r.D) (v : Num64) :
    (r.buf.set (r.slot i) v).getD (r.slot j) posZero = if j = i then v else r.elem j := by
  have hlt : r.slot i < r.buf.length := slot_lt hw i
  rw [List.getD_eq_getElem?_getD]
  split
  case isTrue h => rw [h, List.getElem?_set_self hlt, Option.getD_some]
  case isFalse h =>
    rw [List.getElem?_set_ne fun he => h ((slot_inj hw hi hj).mp he).symm, ← List.getD_eq_getElem?_getD, elem]

theorem RingBuffer.out_eq_elem (hr : r.wf = true) : r.out = r.elem (r.p - 1) := by
  obtain ⟨-, hp, -⟩ := wf_iff.mp hr
  rw [out, elem, slot, show r.w + r.D - 1 - (r.p - 1) = r.w + r.D - r.p by omega]

/-! ### A push -/

@[simp] theorem RingBuffer.push_w (r : RingBuffer) (v : Num64) : (r.push v).w = (r.w + 1) % r.D := rfl
@[simp] theorem RingBuffer.push_p (r : RingBuffer) (v : Num64) : (r.push v).p = r.p := rfl
@[simp] theorem RingBuffer.push_D (r : RingBuffer) (v : Num64) : (r.push v).D = r.D := List.length_set

/-- A push writes to the slot of `s[D−1]`. -/
theorem RingBuffer.slot_pred_D (hw : r.w < r.D) : r.slot (r.D - 1) = r.w := by
  rw [slot, show r.w + r.D - 1 - (r.D - 1) = r.w by omega, Nat.mod_eq_of_lt hw]

theorem RingBuffer.push_slot_zero (hw : r.w < r.D) (v : Num64) : (r.push v).slot 0 = r.slot (r.D - 1) := by
  have hD : 1 ≤ r.D := by omega
  rw [slot_pred_D hw, slot, push_w, push_D, Nat.sub_zero, Nat.add_sub_assoc hD, Nat.mod_add_mod,
    show r.w + 1 + (r.D - 1) = r.w + r.D by omega, Nat.add_mod_right, Nat.mod_eq_of_lt hw]

theorem RingBuffer.push_slot_succ (hj : j + 1 < r.D) (v : Num64) : (r.push v).slot (j + 1) = r.slot j := by
  rw [slot, push_w, push_D, Nat.sub_sub, Nat.add_sub_assoc (by omega), Nat.mod_add_mod, slot,
    show r.w + 1 + (r.D - (1 + (j + 1))) = r.w + r.D - 1 - j by omega]

theorem RingBuffer.push_elem_zero (hw : r.w < r.D) (v : Num64) : (r.push v).elem 0 = v := by
  rw [elem, push_slot_zero hw, push, ← slot_pred_D hw, elem_set_slot hw (by omega) (by omega), if_pos rfl]

theorem RingBuffer.push_elem_succ (hw : r.w < r.D) (hj : j + 1 < r.D) (v : Num64) :
    (r.push v).elem (j + 1) = r.elem j := by
  rw [elem, push_slot_succ hj, push, ← slot_pred_D hw, elem_set_slot hw (by omega) (by omega), if_neg (by omega)]

theorem RingBuffer.push_wf (hr : r.wf = true) (v : Num64) : (r.push v).wf = true := by
  obtain ⟨hw, hp⟩ := wf_iff.mp hr
  rw [wf_iff, push_w, push_p, push_D]
  exact ⟨Nat.mod_lt _ (by omega), hp⟩

theorem RingBuffer.push_samples (hr : r.wf = true) (v : Num64) :
    (r.push v).samples = v :: r.samples.take (r.p - 1) := by
  obtain ⟨hw, hp, hpD⟩ := wf_iff.mp hr
  obtain ⟨q, hq⟩ : ∃ q, r.p = q + 1 := ⟨r.p - 1, by omega⟩
  have hold : r.samples.take (r.p - 1) = (List.range q).map r.elem := by
    rw [samples_eq_map_elem, ← List.map_take, List.take_range, Nat.min_eq_left (Nat.sub_le ..), hq,
      Nat.add_sub_cancel]
  have hnew : ∀ j ∈ List.range q, (r.push v).elem (j + 1) = r.elem j := fun j hj => by
    have hj := List.mem_range.mp hj
    exact push_elem_succ hw (by omega) v
  rw [hold, samples_eq_map_elem, push_p, hq, List.range_succ_eq_map, List.map_cons, push_elem_zero hw, List.map_map]
  exact congrArg _ (List.map_congr_left hnew)

/-! ### Writes to a range of elements -/

@[simp] theorem RingBuffer.writeFrom_w (r : RingBuffer) (v : Num64) (first count : Nat) :
    (r.writeFrom v first count).w = r.w := by
  induction count with
  | zero => rfl
  | succ count ih => exact ih

@[simp] theorem RingBuffer.writeFrom_p (r : RingBuffer) (v : Num64) (first count : Nat) :
    (r.writeFrom v first count).p = r.p := by
  induction count with
  | zero => rfl
  | succ count ih => exact ih

@[simp] theorem RingBuffer.writeFrom_D (r : RingBuffer) (v : Num64) (first count : Nat) :
    (r.writeFrom v first count).D = r.D := by
  induction count with
  | zero => rfl
  | succ count ih => exact List.length_set.trans ih

@[simp] theorem RingBuffer.writeFrom_slot (r : RingBuffer) (v : Num64) (first count j : Nat) :
    (r.writeFrom v first count).slot j = r.slot j := by simp [slot]

/-- `writeFrom` writes the elements of its range and no other. -/
theorem RingBuffer.writeFrom_elem (hw : r.w < r.D) (v : Num64) {first count : Nat} (hc : first + count ≤ r.D)
    (hj : j < r.D) :
    (r.writeFrom v first count).elem j = if first ≤ j ∧ j < first + count then v else r.elem j := by
  induction count with
  | zero => rw [if_neg (by omega), writeFrom]
  | succ count ih =>
    have hset : (r.writeFrom v first (count + 1)).elem j =
        if j = first + count then v else (r.writeFrom v first count).elem j := by
      rw [elem, writeFrom_slot, writeFrom, ← writeFrom_slot r v first count (first + count),
        ← writeFrom_slot r v first count j]
      exact elem_set_slot (by simpa using hw) (by rw [writeFrom_D]; omega) (by simpa using hj) v
    rw [hset, ih (by omega)]
    split
    case isTrue h => rw [if_pos (by omega)]
    case isFalse h => exact if_congr (by omega) rfl rfl

/-! ### A stretch and a fill -/

/-- What a stretch leaves, without the case split: the newest samples, then silence up to the new length. -/
theorem LineOf.stretch_dl_of_wf {l : Line} (h : l.wf) (n : Nat) :
    (l.stretch n).dl = l.dl.take n ++ List.replicate (n - l.plen) posZero := by
  simp only [LineOf.wf] at h
  simp only [LineOf.stretch, NumFormat.stretch]
  split
  case isTrue hlt => rw [Nat.sub_eq_zero_of_le hlt.le, List.replicate_zero, List.append_nil]
  case isFalse hge =>
    rw [List.take_of_length_le (by omega)]
    split
    case isTrue => rfl
    case isFalse hle => rw [Nat.sub_eq_zero_of_le (by omega), List.replicate_zero, List.append_nil]

variable {n : Nat}

@[simp] theorem RingBuffer.stretch_w (r : RingBuffer) (n : Nat) : (r.stretch n).w = r.w := by
  unfold stretch
  split
  · exact writeFrom_w ..
  · rfl

@[simp] theorem RingBuffer.stretch_D (r : RingBuffer) (n : Nat) : (r.stretch n).D = r.D := by
  unfold stretch
  split
  · exact writeFrom_D ..
  · rfl

@[simp] theorem RingBuffer.stretch_p (r : RingBuffer) (n : Nat) : (r.stretch n).p = n := by
  unfold stretch
  split <;> rfl

theorem RingBuffer.stretch_elem (hr : r.wf = true) (hn : n ≤ r.D) (hj : j < n) :
    (r.stretch n).elem j = if j < r.p then r.elem j else posZero := by
  obtain ⟨hw, -, -⟩ := wf_iff.mp hr
  unfold stretch
  split
  case isTrue h =>
    refine (writeFrom_elem hw posZero (by omega) (by omega)).trans ?_
    rw [← ite_not]
    exact if_congr (by omega) rfl rfl
  case isFalse h =>
    rw [if_pos (by omega)]
    rfl

theorem RingBuffer.stretch_wf (hr : r.wf = true) (h1 : 1 ≤ n) (hn : n ≤ r.D) : (r.stretch n).wf = true := by
  obtain ⟨hw, -, -⟩ := wf_iff.mp hr
  simp [wf_iff, hw, h1, hn]

theorem RingBuffer.stretch_samples (hr : r.wf = true) (hn : n ≤ r.D) :
    (r.stretch n).samples = r.samples.take n ++ List.replicate (n - r.p) posZero := by
  refine List.ext_getElem ?_ fun j hj _ => ?_
  · rw [samples_length, stretch_p, List.length_append, List.length_take, samples_length, List.length_replicate]
    omega
  · have hjn : j < n := by simpa using hj
    simp only [samples_eq_map_elem, List.getElem_map, List.getElem_range, stretch_elem hr hn hjn,
      List.getElem_append, List.length_take, List.length_map, List.length_range, List.getElem_take,
      List.getElem_replicate, dite_eq_ite]
    exact if_congr (by omega) rfl rfl

theorem RingBuffer.fill_wf (hr : r.wf = true) (v : Num64) : (r.fill v).wf = true := by
  simpa only [wf_iff, fill, writeFrom_w, writeFrom_p, writeFrom_D] using hr

theorem RingBuffer.fill_samples (hr : r.wf = true) (v : Num64) : (r.fill v).samples = List.replicate r.p v := by
  obtain ⟨hw, -, hpD⟩ := wf_iff.mp hr
  have hp : (r.fill v).p = r.p := writeFrom_p ..
  have helem : ∀ j ∈ List.range r.p, (r.fill v).elem j = v := fun j hj => by
    have hj := List.mem_range.mp hj
    rw [fill, writeFrom_elem hw v (by omega) (by omega), if_pos (by omega)]
  rw [samples_eq_map_elem, hp, List.map_congr_left helem, List.map_const', List.length_range]

end

/-! ### The refinement -/

/-- A line with the samples and the length of a ring is in canonical form. -/
theorem LineOf.wf_of_eq_samples {r : RingBuffer} {l : Line} (hdl : l.dl = r.samples) (hp : l.plen = r.p) : l.wf := by
  rw [LineOf.wf, hdl, hp, RingBuffer.samples_length]

theorem LineOf.out_eq_of_eq_samples {r : RingBuffer} {l : Line} (hr : r.wf = true) (hdl : l.dl = r.samples)
    (hp : l.plen = r.p) : l.out = r.out := by
  obtain ⟨-, hp1, -⟩ := RingBuffer.wf_iff.mp hr
  rw [LineOf.out_eq, hdl, hp, RingBuffer.out_eq_elem hr, RingBuffer.samples_eq_map_elem, List.getD_eq_getElem?_getD,
    List.getElem?_map, List.getElem?_range (by omega), Option.map_some, Option.getD_some]

/-- Settles O39: the samples of the ring after each operation are the closed forms above, which are the line's. -/
theorem ringBufferRealisesTheLine : Obligations.RingBufferRealisesTheLine := by
  intro r l hr hdl hp
  refine ⟨LineOf.out_eq_of_eq_samples hr hdl hp, fun v => ⟨?_, hp.symm, RingBuffer.push_wf hr v⟩,
    fun n h1 hn => ⟨?_, RingBuffer.stretch_p r n, RingBuffer.stretch_wf hr h1 hn⟩,
    fun v => ⟨?_, (RingBuffer.writeFrom_p ..).trans hp.symm, RingBuffer.fill_wf hr v⟩⟩
  · rw [LineOf.push_dl, RingBuffer.push_samples hr, hdl, hp]
  · rw [LineOf.stretch_dl_of_wf (LineOf.wf_of_eq_samples hdl hp), RingBuffer.stretch_samples hr hn, hdl, hp]
  · rw [RingBuffer.fill_samples hr, ← hp, LineOf.fill]

end Sys2Proof.Machine
end

section
/-! PROOFS. The order of numbers and what the parts of a bit pattern say of NaN, infinities and zeros (40_numerics.md R121,
R122). -/

namespace Sys2Proof.Machine

/-! ### Classes of numbers -/

section

variable {x y : Num64}

theorem isNaN_iff : isNaN x = true ↔ infMag < magBits x := decide_eq_true_iff

theorem isInf_iff : isInf x = true ↔ magBits x = infMag := decide_eq_true_iff

theorem isZero_iff : isZero x = true ↔ magBits x = 0 := decide_eq_true_iff

theorem isNaN_eq_false_iff : isNaN x = false ↔ magBits x ≤ infMag := by
  rw [← Bool.not_eq_true, isNaN_iff, not_lt]

theorem not_nan_of_isInf (h : isInf x = true) : isNaN x = false := isNaN_eq_false_iff.2 (isInf_iff.1 h).le

theorem not_zero_of_isInf (h : isInf x = true) : isZero x = false :=
  decide_eq_false fun h0 => absurd ((isInf_iff.1 h).symm.trans h0) (by decide)

theorem finite_iff_not_nan_not_inf : finite x = true ↔ isNaN x = false ∧ isInf x = false := by
  rw [finite_iff, isNaN_eq_false_iff, ← Bool.not_eq_true, isInf_iff, lt_iff_le_and_ne]

theorem eq_posInf_iff : x = posInf ↔ signBit x = false ∧ magBits x = infMag :=
  ⟨fun h => h ▸ by decide, fun ⟨hs, hm⟩ => num_ext hs hm⟩

theorem eq_negInf_iff : x = negInf ↔ signBit x = true ∧ magBits x = infMag :=
  ⟨fun h => h ▸ by decide, fun ⟨hs, hm⟩ => num_ext hs hm⟩

theorem isInf_iff_eq : isInf x = true ↔ x = posInf ∨ x = negInf := by
  rw [isInf_iff, eq_posInf_iff, eq_negInf_iff, ← or_and_right]
  cases signBit x <;> simp

/-! ### The order -/

theorem orderKey_of_pos (h : signBit x = false) : orderKey x = magBits x := by simp [orderKey, h]

theorem orderKey_of_neg (h : signBit x = true) : orderKey x = -magBits x := by simp [orderKey, h]

theorem natAbs_orderKey (x : Num64) : (orderKey x).natAbs = magBits x := by
  cases h : signBit x
  · rw [orderKey_of_pos h, Int.natAbs_natCast]
  · rw [orderKey_of_neg h, Int.natAbs_neg, Int.natAbs_natCast]

theorem abs_orderKey_le (h : isNaN x = false) : |orderKey x| ≤ infMag := by
  rw [Int.abs_eq_natAbs, natAbs_orderKey]
  exact_mod_cast isNaN_eq_false_iff.1 h

theorem orderKey_posInf : orderKey posInf = infMag := by decide

theorem orderKey_negInf : orderKey negInf = -infMag := by decide

theorem orderKey_eq_infMag_iff : orderKey x = infMag ↔ x = posInf := by
  refine ⟨fun h => ?_, fun h => h ▸ orderKey_posInf⟩
  have hm : magBits x = infMag := by rw [← natAbs_orderKey, h, Int.natAbs_natCast]
  cases hs : signBit x
  · exact eq_posInf_iff.2 ⟨hs, hm⟩
  · rw [orderKey_of_neg hs, hm] at h
    exact absurd h (by decide)

theorem orderKey_eq_neg_infMag_iff : orderKey x = -infMag ↔ x = negInf := by
  refine ⟨fun h => ?_, fun h => h ▸ orderKey_negInf⟩
  have hm : magBits x = infMag := by rw [← natAbs_orderKey, h, Int.natAbs_neg, Int.natAbs_natCast]
  cases hs : signBit x
  · rw [orderKey_of_pos hs, hm] at h
    exact absurd h (by decide)
  · exact eq_negInf_iff.2 ⟨hs, hm⟩

theorem magUnits_inj {m n : Nat} (hm : m < infMag) (hn : n < infMag) (h : magUnits m = magUnits n) : m = n := by
  rw [← roundMag_exact hm Nat.one_pos, h, roundMag_exact hn Nat.one_pos]

/-- On finite numbers the exact value has one place in the order. -/
theorem orderKey_eq_of_exactValue_eq (hx : finite x = true) (hy : finite y = true) (h : exactValue x = exactValue y) :
    orderKey x = orderKey y := by
  have hu : magUnits (magBits x) = magUnits (magBits y) := by
    simpa [exactValue, apply_ite Int.natAbs] using congrArg Int.natAbs h
  have hm := magUnits_inj (finite_iff.1 hx) (finite_iff.1 hy) hu
  simp only [exactValue, hu] at h
  cases hsx : signBit x <;> cases hsy : signBit y <;>
    simp only [hsx, hsy, orderKey, hm, if_true, Bool.false_eq_true, if_false] at h ⊢
  all_goals
    have h0 : magBits y = 0 := magUnits_eq_zero.1 (by omega)
    rw [h0]
    rfl

theorem exactValue_le_iff (hx : finite x = true) (hy : finite y = true) :
    exactValue x ≤ exactValue y ↔ orderKey x ≤ orderKey y := by
  refine ⟨fun h => le_of_not_gt fun hlt => ?_, exactValue_mono⟩
  exact hlt.ne (orderKey_eq_of_exactValue_eq hy hx (le_antisymm (exactValue_mono hlt.le) h))

theorem exactValue_eq_iff (hx : finite x = true) (hy : finite y = true) :
    exactValue x = exactValue y ↔ orderKey x = orderKey y := by
  rw [le_antisymm_iff, exactValue_le_iff hx hy, exactValue_le_iff hy hx, ← le_antisymm_iff]

theorem comparisons_of_nan (h : isNaN x = true ∨ isNaN y = true) : flt x y = false ∧ fle x y = false ∧ feq x y = false := by
  obtain h | h := h <;> simp [flt, fle, feq, h]

theorem fle_posInf (h : isNaN x = false) : fle x posInf = true :=
  fle_iff.2 ⟨h, rfl, orderKey_posInf ▸ (abs_le.1 (abs_orderKey_le h)).2⟩

theorem negInf_fle (h : isNaN x = false) : fle negInf x = true :=
  fle_iff.2 ⟨rfl, h, orderKey_negInf ▸ (abs_le.1 (abs_orderKey_le h)).1⟩

theorem flt_eq_false_of_fle (h : fle y x = true) : flt x y = false :=
  eq_false_of_ne_true fun hlt => (fle_iff.1 h).2.2.not_gt (flt_iff.1 hlt).2.2

theorem feq_comm (x y : Num64) : feq x y = feq y x := by
  rw [Bool.eq_iff_iff, feq_iff, feq_iff, and_left_comm, eq_comm (a := orderKey x)]

theorem feq_posInf_iff : feq x posInf = true ↔ x = posInf := by
  rw [feq_iff, orderKey_posInf, orderKey_eq_infMag_iff]
  exact ⟨fun h => h.2.2, by rintro rfl; decide⟩

theorem feq_negInf_iff : feq x negInf = true ↔ x = negInf := by
  rw [feq_iff, orderKey_negInf, orderKey_eq_neg_infMag_iff]
  exact ⟨fun h => h.2.2, by rintro rfl; decide⟩

theorem posInf_fle_iff : fle posInf x = true ↔ x = posInf := by
  refine ⟨fun h => ?_, by rintro rfl; decide⟩
  obtain ⟨-, hn, hk⟩ := fle_iff.1 h
  exact orderKey_eq_infMag_iff.1 (le_antisymm (abs_le.1 (abs_orderKey_le hn)).2 (orderKey_posInf ▸ hk))

theorem fle_negInf_iff : fle x negInf = true ↔ x = negInf := by
  refine ⟨fun h => ?_, by rintro rfl; decide⟩
  obtain ⟨hn, -, hk⟩ := fle_iff.1 h
  exact orderKey_eq_neg_infMag_iff.1 (le_antisymm (orderKey_negInf ▸ hk) (abs_le.1 (abs_orderKey_le hn)).1)

/-- Without a NaN `<` is the negation of the converse `≤`. -/
theorem flt_iff_not_fle (hx : isNaN x = false) (hy : isNaN y = false) : flt x y = true ↔ ¬ fle y x = true := by
  rw [flt_iff, fle_iff, not_and, not_and, not_le]
  exact ⟨fun h _ _ => h.2.2, fun h => ⟨hx, hy, h hy hx⟩⟩

theorem flt_posInf_eq_false (x : Num64) : flt posInf x = false := by
  cases hn : isNaN x
  · exact flt_eq_false_of_fle (fle_posInf hn)
  · exact (comparisons_of_nan (.inr hn)).1

theorem flt_negInf_eq_false (x : Num64) : flt x negInf = false := by
  cases hn : isNaN x
  · exact flt_eq_false_of_fle (negInf_fle hn)
  · exact (comparisons_of_nan (.inl hn)).1

end

/-- Settles O59: on finite numbers the order of the patterns is that of the exact values, and the infinities are its ends. -/
theorem comparisonsFollowExactValues : Obligations.ComparisonsFollowExactValues := by
  intro a b
  refine ⟨fun ha hb => ?_, comparisons_of_nan, rfl, finite_iff_not_nan_not_inf, isInf_iff_eq, fun hn => ?_,
    flt_posInf_eq_false a, flt_negInf_eq_false a, posInf_fle_iff, fle_negInf_iff, feq_posInf_iff,
    feq_comm posInf a ▸ feq_posInf_iff, feq_negInf_iff, feq_comm negInf a ▸ feq_negInf_iff⟩
  · have hna := not_nan_of_finite ha
    have hnb := not_nan_of_finite hb
    have hle : ∀ {x y}, finite x = true → finite y = true → (fle x y = true ↔ exactValue x ≤ exactValue y) :=
      fun hx hy => by
        rw [exactValue_le_iff hx hy, fle_iff]
        simp [not_nan_of_finite hx, not_nan_of_finite hy]
    refine ⟨?_, hle ha hb, ?_⟩
    · rw [flt_iff_not_fle hna hnb, hle hb ha, not_le]
    · rw [exactValue_eq_iff ha hb, feq_iff]
      simp [hna, hnb]
  · exact ⟨by rw [flt_iff_not_fle hn rfl, posInf_fle_iff], by rw [flt_iff_not_fle rfl hn, fle_negInf_iff],
      fle_posInf hn, negInf_fle hn⟩

end Sys2Proof.Machine
end

section
/-! PROOFS. The special values of the operations (40_numerics.md R121): each operation on NaN, infinities and zeros, said once,
with the sign bit of every result that has one. -/

namespace Sys2Proof.Machine

/-! ### Unary minus -/

@[simp] theorem magBits_fneg (x : Num64) : magBits (fneg x) = magBits x := by
  have h : (fneg x).toNat = x.toNat ^^^ 2 ^ 63 := rfl
  rw [magBits, h, Nat.xor_mod_two_pow, Nat.mod_self, Nat.xor_zero]
  rfl

@[simp] theorem signBit_fneg (x : Num64) : signBit (fneg x) = !signBit x :=
  BitVec.msb_xor.trans (Bool.xor_true _)

@[simp] theorem isNaN_fneg (x : Num64) : isNaN (fneg x) = isNaN x := by simp [isNaN]

@[simp] theorem isInf_fneg (x : Num64) : isInf (fneg x) = isInf x := by simp [isInf]

@[simp] theorem isZero_fneg (x : Num64) : isZero (fneg x) = isZero x := by simp [isZero]

@[simp] theorem finite_fneg (x : Num64) : finite (fneg x) = finite x := by simp [finite]

@[simp] theorem exactValue_fneg (x : Num64) : exactValue (fneg x) = -exactValue x := by
  cases h : signBit x <;> simp [exactValue, h]

section

variable {x y : Num64}

theorem fneg_fneg (x : Num64) : fneg (fneg x) = x := num_ext (by simp) (by simp)

/-! ### Results with a sign and magnitude bits -/

theorem not_nan_of_isZero (h : isZero x = true) : isNaN x = false := not_nan_of_finite (finite_of_isZero h)

theorem not_inf_of_isZero (h : isZero x = true) : isInf x = false := not_inf_of_finite (finite_of_isZero h)

theorem isInf_packNum_infMag (s : Bool) : isInf (packNum s infMag) = true := by cases s <;> decide

theorem isZero_packNum_zero (s : Bool) : isZero (packNum s 0) = true := by cases s <;> decide

theorem isNaN_quietNaN : isNaN quietNaN = true := by decide

@[simp] theorem isNaN_roundNum (s : Bool) (n d : Nat) : isNaN (roundNum s n d) = false :=
  isNaN_packNum_of_le s (roundMag_le n d)

theorem isZero_roundNum_zero (s : Bool) {d : Nat} (hd : 0 < d) : isZero (roundNum s 0 d) = true := by
  have h := roundMag_exact (m := 0) (by decide) hd
  rw [magUnits_zero, Nat.zero_mul] at h
  rw [isZero_iff, magBits_roundNum, h]

/-! ### NaN operands -/

theorem fadd_of_nan (h : isNaN x = true ∨ isNaN y = true) : fadd x y = quietNaN := if_pos (by simpa using h)

theorem fsub_of_nan (h : isNaN x = true ∨ isNaN y = true) : fsub x y = quietNaN := fadd_of_nan (by rwa [isNaN_fneg])

theorem fmul_of_nan (h : isNaN x = true ∨ isNaN y = true) : fmul x y = quietNaN := if_pos (by simpa using h)

theorem fdiv_of_nan (h : isNaN x = true ∨ isNaN y = true) : fdiv x y = quietNaN := if_pos (by simpa using h)

/-! ### Sums -/

theorem fadd_of_finite (hx : finite x = true) (hy : finite y = true) : fadd x y =
    if exactValue x + exactValue y = 0 then (if signBit x && signBit y then negZero else posZero)
    else roundNum (decide (exactValue x + exactValue y < 0)) (exactValue x + exactValue y).natAbs 1 := by
  simp [fadd, not_nan_of_finite, not_inf_of_finite, hx, hy]

theorem exactValue_of_isZero (h : isZero x = true) : exactValue x = 0 := by simp [exactValue, isZero_iff.1 h]

theorem fadd_of_isZero (hx : isZero x = true) (hy : isZero y = true) :
    fadd x y = if signBit x && signBit y then negZero else posZero := by
  rw [fadd_of_finite (finite_of_isZero hx) (finite_of_isZero hy), exactValue_of_isZero hx, exactValue_of_isZero hy]
  rfl

theorem fadd_fneg_self (hx : finite x = true) : fadd x (fneg x) = posZero := by
  rw [fadd_of_finite hx (by simpa using hx)]
  simp

theorem fadd_inf_left (hx : isInf x = true) (hy : isNaN y = false) (hs : isInf y = true → signBit x = signBit y) :
    fadd x y = x := by
  cases hi : isInf y <;> simp_all [fadd, not_nan_of_isInf]

theorem fadd_inf_right (hx : finite x = true) (hy : isInf y = true) : fadd x y = y := by
  simp [fadd, not_nan_of_finite hx, not_nan_of_isInf hy, not_inf_of_finite hx, hy]

theorem fadd_inf_fneg (hx : isInf x = true) : fadd x (fneg x) = quietNaN := by
  simp [fadd, not_nan_of_isInf hx, hx]

/-! ### Products -/

theorem fmul_of_finite (hx : finite x = true) (hy : finite y = true) : fmul x y =
    roundNum (signBit x != signBit y) (magUnits (magBits x) * magUnits (magBits y)) unitsPerOne := by
  simp [fmul, not_nan_of_finite, not_inf_of_finite, hx, hy]

theorem fmul_comm (x y : Num64) : fmul x y = fmul y x := by
  simp only [fmul, Bool.or_comm (isNaN x), Bool.or_comm (isInf x), Bool.or_comm (isZero x), bne_comm (a := signBit x),
    Nat.mul_comm (magUnits (magBits x))]

theorem fmul_inf_left (hx : isInf x = true) (hn : isNaN y = false) (hy : isZero y = false) :
    fmul x y = packNum (signBit x != signBit y) infMag := by
  simp [fmul, not_nan_of_isInf hx, hx, hn, not_zero_of_isInf hx, hy]

theorem fmul_zero_inf (hx : isZero x = true) (hy : isInf y = true) : fmul x y = quietNaN := by
  simp [fmul, not_nan_of_isInf hy, not_nan_of_isZero hx, hx, hy]

theorem isZero_fmul_of_isZero (hx : isZero x = true) (hy : finite y = true) : isZero (fmul x y) = true := by
  rw [fmul_of_finite (finite_of_isZero hx) hy, isZero_iff.1 hx, magUnits_zero, Nat.zero_mul]
  exact isZero_roundNum_zero _ (Int.natCast_pos.1 unitsPerOne_pos)

theorem signBit_fmul (h : isNaN (fmul x y) = false) : signBit (fmul x y) = (signBit x != signBit y) := by
  unfold fmul at h ⊢
  split_ifs at h ⊢
  · exact absurd isNaN_quietNaN (by simp [h])
  · exact absurd isNaN_quietNaN (by simp [h])
  · exact signBit_packNum _ infMag_lt
  · exact signBit_roundNum ..

/-! ### Quotients -/

theorem fdiv_of_finite (hx : finite x = true) (hy : finite y = true) (h0 : isZero y = false) : fdiv x y =
    roundNum (signBit x != signBit y) (magUnits (magBits x) * unitsPerOne) (magUnits (magBits y)) := by
  simp [fdiv, not_nan_of_finite, not_inf_of_finite, hx, hy, h0]

theorem fdiv_zero_zero (hx : isZero x = true) (hy : isZero y = true) : fdiv x y = quietNaN := by
  simp [fdiv, not_nan_of_isZero, not_inf_of_isZero, hx, hy]

theorem fdiv_inf_inf (hx : isInf x = true) (hy : isInf y = true) : fdiv x y = quietNaN := by
  simp [fdiv, not_nan_of_isInf, hx, hy]

theorem fdiv_inf_left (hx : isInf x = true) (hy : finite y = true) :
    fdiv x y = packNum (signBit x != signBit y) infMag := by
  simp [fdiv, not_nan_of_isInf hx, not_nan_of_finite hy, not_inf_of_finite hy, hx]

theorem fdiv_inf_right (hx : finite x = true) (hy : isInf y = true) :
    fdiv x y = packNum (signBit x != signBit y) 0 := by
  simp [fdiv, not_nan_of_finite hx, not_inf_of_finite hx, not_nan_of_isInf hy, hy]

theorem fdiv_by_zero (hx : finite x = true) (h0 : isZero x = false) (hy : isZero y = true) :
    fdiv x y = packNum (signBit x != signBit y) infMag := by
  simp [fdiv, not_nan_of_finite hx, not_inf_of_finite hx, not_nan_of_isZero hy, not_inf_of_isZero hy, h0, hy]

theorem magUnits_pos (h : isZero x = false) : 0 < magUnits (magBits x) :=
  Nat.pos_of_ne_zero fun h0 => of_decide_eq_false h (magUnits_eq_zero.1 h0)

theorem isZero_fdiv_of_isZero (hx : isZero x = true) (hy : finite y = true) (h0 : isZero y = false) :
    isZero (fdiv x y) = true := by
  rw [fdiv_of_finite (finite_of_isZero hx) hy h0, isZero_iff.1 hx, magUnits_zero, Nat.zero_mul]
  exact isZero_roundNum_zero _ (magUnits_pos h0)

theorem signBit_fdiv (h : isNaN (fdiv x y) = false) : signBit (fdiv x y) = (signBit x != signBit y) := by
  unfold fdiv at h ⊢
  split_ifs at h ⊢
  · exact absurd isNaN_quietNaN (by simp [h])
  · exact absurd isNaN_quietNaN (by simp [h])
  · exact signBit_packNum _ infMag_lt
  · exact signBit_packNum _ (by decide)
  · exact absurd isNaN_quietNaN (by simp [h])
  · exact signBit_packNum _ infMag_lt
  · exact signBit_roundNum ..

end

/-- Settles O60: one lemma above for each kind of operands. -/
theorem specialValuesOfArithmetic : Obligations.SpecialValuesOfArithmetic := by
  intro x y
  refine ⟨fun h => ?nan, fun hx hy => fdiv_zero_zero hx hy ▸ isNaN_quietNaN, fun hx => ?infSubSelf,
    fun hx hy => ?zeroTimesInf, fun hx hy => fdiv_inf_inf hx hy ▸ isNaN_quietNaN, fun hx hy => ?infPlusFinite,
    fun hx => ?infPlusInf, fun hx hn hy => ?infTimes, fun hx hy => ?infOver,
    fun hx h0 hy => fdiv_by_zero hx h0 hy ▸ isInf_packNum_infMag _, fun hx hy => ?zeroTimes, signBit_fmul, signBit_fdiv,
    fadd_of_isZero, fadd_fneg_self, magBits_fneg x, signBit_fneg x⟩
  case nan =>
    rw [fadd_of_nan h, fsub_of_nan h, fmul_of_nan h, fdiv_of_nan h]
    exact ⟨isNaN_quietNaN, isNaN_quietNaN, isNaN_quietNaN, isNaN_quietNaN⟩
  case infSubSelf =>
    rw [fsub, fadd_inf_fneg hx]
    exact ⟨isNaN_quietNaN, isNaN_quietNaN⟩
  case zeroTimesInf =>
    rw [fmul_comm y x, fmul_zero_inf hx hy]
    exact ⟨isNaN_quietNaN, isNaN_quietNaN⟩
  case infPlusFinite =>
    have hleft : ∀ {z}, finite z = true → fadd x z = x := fun hz =>
      fadd_inf_left hx (not_nan_of_finite hz) fun hi => absurd hi (by simp [not_inf_of_finite hz])
    exact ⟨hleft hy, fadd_inf_right hy hx, hleft (by simpa using hy), fadd_inf_right hy (by simpa using hx)⟩
  case infPlusInf =>
    have hself := fadd_inf_left hx (not_nan_of_isInf hx) fun _ => rfl
    exact ⟨hself, by rw [fsub, fneg_fneg, hself]⟩
  case infTimes =>
    rw [fmul_comm y x, fmul_inf_left hx hn hy]
    exact ⟨isInf_packNum_infMag _, isInf_packNum_infMag _⟩
  case infOver =>
    rw [fdiv_inf_left hx hy, fdiv_inf_right hy hx]
    exact ⟨isInf_packNum_infMag _, isZero_packNum_zero _⟩
  case zeroTimes =>
    rw [fmul_comm y x]
    exact ⟨isZero_fmul_of_isZero hx hy, isZero_fmul_of_isZero hx hy, isZero_fdiv_of_isZero hx hy⟩

end Sys2Proof.Machine
end

section
/-! PROOFS. The delay line (40_numerics.md R142, R143): a sample moves one place to the old end with every push, so pushes
shift the place the output is read from. -/

namespace Sys2Proof.Machine

/-- After `vs.length` pushes the output is the sample that stood so many places before the oldest, at `k`. -/
theorem LineOf.out_foldl_push {k : Nat} (l : Line) (vs : List Word) (h : k + vs.length + 1 = l.plen) :
    (vs.foldl LineOf.push l).out = l.dl.getD k posZero := by
  induction vs generalizing l k with
  | nil => rw [List.foldl_nil, LineOf.out_eq, ← h]; rfl
  | cons v vs ih =>
    have hk : k < l.plen - 1 := h ▸ Nat.lt_add_of_pos_right (Nat.succ_pos vs.length)
    have hplace : k + 1 + vs.length + 1 = (l.push v).plen := (congrArg Nat.succ (Nat.add_right_comm k 1 _)).trans h
    rw [List.foldl_cons, ih (l.push v) hplace, LineOf.push_dl, List.getD_cons_succ, List.getD_eq_getElem?_getD,
      List.getElem?_take_of_lt hk, List.getD_eq_getElem?_getD]

/-- Settles O37: the pushed sample stands first, and `p - 1` pushes later the output is read from the first place. -/
theorem pushedSampleComesOutAfterLength : Obligations.PushedSampleComesOutAfterLength := by
  intro l v hwf hp
  have holdest : l.plen - 1 < l.dl.length := (Nat.sub_lt hp Nat.one_pos).trans_eq hwf.symm
  refine ⟨?_, ?_, rfl, fun vs hvs => ?_⟩
  · rw [List.getLast?_eq_getElem?, hwf, LineOf.out_eq, List.getD_eq_getElem _ _ holdest, List.getElem?_eq_getElem holdest]
  · rw [LineOf.push_dl, List.dropLast_eq_take, hwf]
  · have hplace : 0 + vs.length + 1 = (l.push v).plen := by
      rw [hvs, Nat.zero_add, Nat.sub_add_cancel hp, LineOf.push_plen]
    rw [LineOf.out_foldl_push (l.push v) vs hplace, LineOf.push_dl, List.getD_cons_zero]

theorem LineOf.stretch_self (l : Line) : l.stretch l.plen = l := by
  simp only [LineOf.stretch, NumFormat.stretch, lt_irrefl, if_false]

/-- A grown line is the old one with silence at the old end. -/
theorem LineOf.stretch_grown {l : Line} (h : l.wf) (g : Nat) :
    (l.stretch (l.plen + g)).dl = l.dl ++ List.replicate g posZero := by
  rw [LineOf.stretch_dl_of_wf h, Nat.add_sub_cancel_left, List.take_of_length_le (h.trans_le (Nat.le_add_right _ _))]

/-- Settles O38: the stretched line is the newest samples and then silence, and the outputs are read from it. -/
theorem stretchKeepsTheNewest : Obligations.StretchKeepsTheNewest := by
  intro l n hwf hp hn
  refine ⟨rfl, LineOf.stretch_wf hwf n, fun h => if_pos h, fun h => ?grown, fun h => h ▸ LineOf.stretch_self l,
    fun vs hvs => ?silence, fun us vs h hvs hus => ?delay⟩
  case grown =>
    obtain ⟨g, rfl⟩ := Nat.exists_eq_add_of_le h.le
    rw [LineOf.stretch_grown hwf, Nat.add_sub_cancel_left]
  case silence =>
    obtain ⟨g, rfl⟩ := Nat.exists_eq_add_of_le (Nat.lt_of_sub_pos (Nat.zero_lt_of_lt hvs)).le
    rw [Nat.add_sub_cancel_left] at hvs
    obtain ⟨d, rfl⟩ := Nat.exists_eq_add_of_lt hvs
    have hplace : l.plen + d + vs.length + 1 = l.plen + (vs.length + d + 1) := by
      rw [Nat.add_assoc l.plen, Nat.add_comm d, Nat.add_assoc]
    rw [LineOf.out_foldl_push _ vs hplace, LineOf.stretch_grown hwf,
      List.getD_append_right _ _ _ _ (hwf.trans_le (Nat.le_add_right _ _)), List.getD_eq_getElem?_getD,
      List.getElem?_getD_replicate_default_eq]
  case delay =>
    obtain ⟨g, rfl⟩ := Nat.exists_eq_add_of_le h.le
    obtain ⟨k, hk⟩ := Nat.exists_eq_add_of_lt hvs
    rw [Nat.add_comm vs.length k] at hk
    rw [Nat.add_sub_cancel_left] at hus
    have hplace : k + us.length + 1 = l.plen + g := by rw [hus, ← Nat.add_assoc, Nat.add_right_comm, hk]
    have hin : k < l.dl.length := hwf ▸ hk ▸ Nat.lt_succ_of_le (Nat.le_add_right _ _)
    rw [LineOf.out_foldl_push _ us hplace, LineOf.out_foldl_push l vs hk.symm, LineOf.stretch_grown hwf,
      List.getD_append _ _ _ _ hin]

end Sys2Proof.Machine
end

section
/-! PROOFS. The commands that write `RES0` without a scrub (44_waveshaper.md R243 to R245): the write of R126, said once, then
the values `EXP2` takes on the arguments that R244 and R245 name. -/

namespace Sys2Proof.Machine

/-! ### The write of `RES0` -/

theorem isNaN_nanOf (draw : BitVec 53) : isNaN (nanOf draw) = true := by
  have hpayload {k : Nat} (h : k < 2 ^ 52) : 0 < (if k = 0 then 1 else k) ∧ (if k = 0 then 1 else k) < 2 ^ 52 := by
    split
    case isTrue => exact ⟨Nat.one_pos, by decide⟩
    case isFalse h0 => exact ⟨Nat.pos_of_ne_zero h0, h⟩
  obtain ⟨hpos, hlt⟩ := hpayload (Nat.mod_lt draw.toNat (Nat.two_pow_pos 52))
  rw [isNaN_iff, nanOf, magBits_packNum _ (Nat.add_lt_add_left hlt infMag)]
  exact Nat.lt_add_of_pos_right hpos

/-- `v` is what R126 lets a command write for the result `r`: some NaN for a NaN, else `r`. -/
def PureWrite (r v : Num64) : Prop := (isNaN r = true → isNaN v = true) ∧ (isNaN r = false → v = r)

theorem setRes0Pure_of_nan (s : State) {r : Num64} (h : isNaN r = true) :
    s.setRes0Pure r = (s.withRes0 (nanOf (freeNan s.draws))).withDraws (s.draws + 1) := if_pos h

theorem setRes0Pure_of_not_nan (s : State) {r : Num64} (h : isNaN r = false) : s.setRes0Pure r = s.withRes0 r :=
  if_neg (Bool.eq_false_iff.1 h)

/-- A command that ends in the write of R126 has every property that all the values have which R126 allows. -/
theorem exec_pure {c : Instr} {s : State} {r : Num64} (h : exec c s = .next (s.setRes0Pure r).complete)
    {P : Num64 → Prop} (hP : ∀ v, PureWrite r v → P v) :
    ∃ v d, exec c s = .next { s with resp := .ok, res0 := v, draws := d } ∧
      (isNaN r = true → isNaN v = true) ∧ (isNaN r = false → v = r ∧ d = s.draws) ∧ P v := by
  cases hr : isNaN r
  · rw [setRes0Pure_of_not_nan s hr] at h
    exact ⟨r, s.draws, h, fun hn => absurd hn Bool.false_ne_true, fun _ => ⟨rfl, rfl⟩, hP r ⟨id, fun _ => rfl⟩⟩
  · rw [setRes0Pure_of_nan s hr] at h
    have hnan := isNaN_nanOf (freeNan s.draws)
    exact ⟨_, _, h, fun _ => hnan, fun hn => absurd hn.symm Bool.false_ne_true,
      hP _ ⟨fun _ => hnan, fun hn => absurd (hn.symm.trans hr) Bool.false_ne_true⟩⟩

theorem exec_x2exp (s : State) : exec .x2exp s = .next (s.setRes0Pure (x2exp s.build s.arg0)).complete := rfl

theorem exec_sigmoid (s : State) : exec .sigmoid s = .next (s.setRes0Pure (sigmoid s.build s.arg0)).complete := rfl

/-! ### `SOFTCLIP` -/

theorem flt_eq_not_fle {x y : Num64} (hx : isNaN x = false) (hy : isNaN y = false) : flt x y = !fle y x := by
  rw [Bool.eq_iff_iff, flt_iff_not_fle hx hy, Bool.not_eq_true, Bool.not_eq_true']

theorem boundsLegal_iff {mn mx : Num64} :
    boundsLegal mn mx = true ↔ finite mn = true ∧ finite mx = true ∧ flt mn mx = true := by
  rw [boundsLegal, Bool.and_eq_true_iff, Bool.and_eq_true_iff, and_assoc]

/-- The bounds of R285, written as the table of refusals has them. -/
theorem boundsLegal_eq (mn mx : Num64) : boundsLegal mn mx = !badBounds mn mx := by
  rw [boundsLegal, badBounds, Bool.not_or, Bool.not_or, Bool.not_not, Bool.not_not]
  cases h : finite mn && finite mx
  · rfl
  · obtain ⟨hmn, hmx⟩ := Bool.and_eq_true_iff.1 h
    rw [flt_eq_not_fle (not_nan_of_finite hmn) (not_nan_of_finite hmx)]

theorem exec_softclip (s : State) : exec .softclip s = refuseIf (!boundsLegal s.arg1 s.arg2) .badArg s
    (.next (s.setRes0Pure (s.build.functions.softclip s.arg0 s.arg1 s.arg2)).complete) := rfl

theorem exec_softclip_of_bad {s : State} (h : badBounds s.arg1 s.arg2 = true) :
    exec .softclip s = .next (s.refuse .badArg) := by
  rw [exec_softclip, boundsLegal_eq, h]
  rfl

theorem exec_softclip_of_good {s : State} (h : badBounds s.arg1 s.arg2 = false) :
    exec .softclip s = .next (s.setRes0Pure (s.build.functions.softclip s.arg0 s.arg1 s.arg2)).complete := by
  rw [exec_softclip, boundsLegal_eq, h]
  rfl

/-- What R241 says of the clip holds of every value that R126 lets `SOFTCLIP` write for it. -/
theorem PureWrite.softclip {f : Num64 → Num64 → Num64 → Num64} (laws : SoftclipLaws f) {x mn mx v : Num64}
    (h : boundsLegal mn mx = true) (hv : PureWrite (f x mn mx) v) :
    (isNaN x = true → isNaN v = true) ∧ (isNaN x = false → fle mn v = true ∧ fle v mx = true) ∧
      (x = posInf → feq v mx = true) ∧ (x = negInf → feq v mn = true) := by
  obtain ⟨hmn, hmx, hlt⟩ := boundsLegal_iff.1 h
  obtain ⟨hnan, hnum⟩ := hv
  refine ⟨fun hx => hnan (laws.nan _ _ _ hmn hmx hlt hx), fun hx => ?_, fun hx => ?_, fun hx => ?_⟩
  · have hrange := laws.range _ _ _ hmn hmx hlt hx
    rwa [hnum (fle_iff.1 hrange.1).2.1]
  · subst hx
    have hclip := laws.atPosInf _ _ hmn hmx hlt
    rwa [hnum (feq_iff.1 hclip).1]
  · subst hx
    have hclip := laws.atNegInf _ _ hmn hmx hlt
    rwa [hnum (feq_iff.1 hclip).1]

/-- Settles O40: the refusal, or the write of R126, whose value is the result unless that is a NaN. -/
theorem softclipWritesTheClip : Obligations.SoftclipWritesTheClip :=
  fun s => ⟨rfl, exec_softclip_of_bad, fun hgood => exec_pure (exec_softclip_of_good hgood) fun _ hv laws =>
    hv.softclip laws ((boundsLegal_eq s.arg1 s.arg2).trans (congrArg (!·) hgood))⟩

/-! ### `EXP2` at the multiples of `K2LN2` -/

theorem magUnits_lt_two_pow {m : Nat} (h : m < infMag) : magUnits m < 2 ^ 2098 :=
  (magUnits_mono (Nat.le_sub_one_of_lt h)).trans_lt (by decide +kernel)

theorem two_pow_le_format {k : Nat} (h : k ≤ 8192) : 2 ^ k ≤ 2 ^ 2 ^ 13 := Nat.pow_le_pow_right Nat.two_pos h

/-- The magnitude bits of `x * K2LN2` for those of an `x` that is no NaN. -/
def scaledMag (m : Nat) : Nat :=
  if m = infMag then infMag else roundMag (magUnits m * magUnits (magBits k2ln2)) unitsPerOne

theorem scaledMag_le (m : Nat) : scaledMag m ≤ infMag := by
  unfold scaledMag
  split
  · exact le_rfl
  · exact roundMag_le ..

theorem scaledMag_zero : scaledMag 0 = 0 := by decide +kernel

theorem scaledMag_mono {m n : Nat} (h : m ≤ n) (hn : n ≤ infMag) : scaledMag m ≤ scaledMag n := by
  obtain rfl | hlt := hn.eq_or_lt
  · exact (scaledMag_le m).trans_eq (if_pos rfl).symm
  · rw [scaledMag, scaledMag, if_neg (h.trans_lt hlt).ne, if_neg hlt.ne]
    refine roundMag_mono (Nat.mul_le_mul_right _ (magUnits_mono h)) ((Nat.div_le_self _ _).trans_lt ?_)
    refine (Nat.mul_lt_mul'' (magUnits_lt_two_pow hlt) (magUnits_lt_two_pow (by decide))).trans_le ?_
    rw [← pow_add]
    exact two_pow_le_format (by decide)

theorem fmul_k2ln2_eq {x : Num64} (hn : isNaN x = false) : fmul x k2ln2 = packNum (signBit x) (scaledMag (magBits x)) := by
  have hk : finite k2ln2 = true ∧ isZero k2ln2 = false := by decide
  have hs (b : Bool) : (b != signBit k2ln2) = b := Bool.bne_false b
  cases hi : isInf x
  · have hf := finite_iff_not_nan_not_inf.2 ⟨hn, hi⟩
    rw [fmul_of_finite hf hk.1, hs, scaledMag, if_neg (finite_iff.1 hf).ne]
    rfl
  · rw [fmul_inf_left hi (not_nan_of_finite hk.1) hk.2, hs, scaledMag, if_pos (isInf_iff.1 hi)]

/-- Between patterns of one sign the order is that of the magnitudes; between two signs only zeros are in the other order. -/
theorem signed_scaledMag_mono {s t : Bool} {m n : Nat} (hm : m ≤ infMag) (hn : n ≤ infMag)
    (h : (if s then -(m : Int) else m) ≤ if t then -(n : Int) else n) :
    (if s then -(scaledMag m : Int) else scaledMag m) ≤ if t then -(scaledMag n : Int) else scaledMag n := by
  have hneg (k : Nat) : -(k : Int) ≤ 0 := Int.neg_nonpos_of_nonneg (Int.natCast_nonneg k)
  cases s <;> cases t
  · exact Int.ofNat_le.2 (scaledMag_mono (Int.ofNat_le.1 h) hn)
  · have hm0 : m = 0 := Nat.le_zero.1 (Int.ofNat_le.1 (h.trans (hneg n)))
    have hn0 : n = 0 := Nat.le_zero.1 (Int.ofNat_le.1 (Int.neg_nonneg.1 ((Int.natCast_nonneg m).trans h)))
    rw [hm0, hn0, scaledMag_zero]
    exact le_rfl
  · exact (hneg _).trans (Int.natCast_nonneg _)
  · exact Int.neg_le_neg (Int.ofNat_le.2 (scaledMag_mono (Int.ofNat_le.1 (Int.le_of_neg_le_neg h)) hm))

theorem orderKey_fmul_k2ln2 {x : Num64} (hn : isNaN x = false) : orderKey (fmul x k2ln2) =
    if signBit x then -(scaledMag (magBits x) : Int) else scaledMag (magBits x) := by
  have h63 := (scaledMag_le (magBits x)).trans_lt infMag_lt
  rw [fmul_k2ln2_eq hn, orderKey, signBit_packNum _ h63, magBits_packNum _ h63]

theorem not_nan_fmul_k2ln2 {x : Num64} (hn : isNaN x = false) : isNaN (fmul x k2ln2) = false := by
  rw [fmul_k2ln2_eq hn, isNaN_packNum_of_le _ (scaledMag_le _)]

/-- The product with `K2LN2` is monotone. -/
theorem fmul_k2ln2_mono {x y : Num64} (h : fle x y = true) : fle (fmul x k2ln2) (fmul y k2ln2) = true := by
  obtain ⟨hx, hy, hk⟩ := fle_iff.1 h
  refine fle_iff.2 ⟨not_nan_fmul_k2ln2 hx, not_nan_fmul_k2ln2 hy, ?_⟩
  rw [orderKey_fmul_k2ln2 hx, orderKey_fmul_k2ln2 hy]
  exact signed_scaledMag_mono (isNaN_eq_false_iff.1 hx) (isNaN_eq_false_iff.1 hy) hk

section

variable {f : Num64 → Num64} {x : Num64}

theorem exp2_of_isZero (laws : Exp2Laws f) (h : isZero x = true) : f (fmul x k2ln2) = one :=
  laws.zero _ (isZero_fmul_of_isZero h (by decide))

theorem exp2_of_nan (laws : Exp2Laws f) (h : isNaN x = true) : isNaN (f (fmul x k2ln2)) = true :=
  laws.nan _ (by rw [fmul_of_nan (.inl h)]; exact isNaN_quietNaN)

/-- 355 times `K2LN2` is above 1024, where `EXP2` has overflowed. -/
theorem exp2_of_large (laws : Exp2Laws f) (h : fle 0x4076300000000000#64 x = true) : f (fmul x k2ln2) = posInf := by
  have hwhole : 1024 ≤ wholePart (fmul 0x4076300000000000#64 k2ln2) := by decide +kernel
  have hreal : (2 : ℝ) ^ 1024 ≤ exactExp2 (realValue (fmul 0x4076300000000000#64 k2ln2)) := by
    rw [exactExp2, ← Real.rpow_natCast]
    exact Real.rpow_le_rpow_of_exponent_le one_le_two (by exact_mod_cast le_wholePart_iff.1 hwhole)
  have hmono := laws.mono _ _ (fmul_k2ln2_mono h)
  rw [laws.overflow _ (by decide +kernel) hreal] at hmono
  exact posInf_fle_iff.1 hmono

/-- -400 times `K2LN2` is below -1154, where `EXP2` has vanished. -/
theorem exp2_of_large_neg (laws : Exp2Laws f) (h : fle x 0xC079000000000000#64 = true) : f (fmul x k2ln2) = posZero := by
  have hprod := fmul_k2ln2_mono h
  have hmono := laws.mono _ _ hprod
  rw [laws.vanishes (fmul 0xC079000000000000#64 k2ln2) (by decide +kernel) (by decide +kernel)] at hmono
  have hs := laws.positive _ (fle_iff.1 hprod).1
  have hk := (fle_iff.1 hmono).2.2
  rw [orderKey_of_pos hs] at hk
  exact num_ext hs (Nat.le_zero.1 (Int.ofNat_le.1 hk))

end

theorem PureWrite.eq_of_eq {r v w : Num64} (h : PureWrite r v) (hr : r = w) (hw : isNaN w = false) : v = w :=
  (h.2 (hr ▸ hw)).trans hr

/-- Settles O41: the write of R126 of a value of `EXP2`, which the lemmas above give. -/
theorem x2expWritesTheExponential : Obligations.X2expWritesTheExponential :=
  fun s => ⟨rfl, exec_pure (exec_x2exp s) fun _ hv laws =>
    ⟨fun h => hv.eq_of_eq (exp2_of_isZero laws h) rfl, fun h => hv.1 (exp2_of_nan laws h),
      fun h => hv.eq_of_eq (exp2_of_large laws h) rfl, fun h => hv.eq_of_eq (exp2_of_large_neg laws h) rfl⟩⟩

/-! ### `SIGMOID` -/

theorem Build.blend_facts (b : Build) :
    finite b.ws.p = true ∧ fle posZero b.ws.p = true ∧ fle b.ws.p one = true := by
  have hws : b.ws.legal = true := Bool.and_elim_right b.legal
  have h := Bool.and_elim_left (Bool.and_elim_left (Bool.and_elim_left (Bool.and_elim_left (Bool.and_elim_left hws))))
  obtain ⟨hlow, hhi⟩ := Bool.and_eq_true_iff.1 h
  obtain ⟨hfin, hlo⟩ := Bool.and_eq_true_iff.1 hlow
  exact ⟨Bool.and_elim_right hfin, hlo, hhi⟩

/-- A sum of finite numbers is a zero or the rounding of the exact sum. -/
theorem fadd_of_finite_cases {P : Num64 → Prop} {x y : Num64} (hx : finite x = true) (hy : finite y = true)
    (hzero : ∀ z, isZero z = true → P z) (hround : ∀ s, P (roundNum s (exactValue x + exactValue y).natAbs 1)) :
    P (fadd x y) := by
  rw [fadd_of_finite hx hy]
  split
  · exact hzero _ (by split <;> rfl)
  · exact hround _

/-- A value of at most a finite number's rounds to a finite number. -/
theorem finite_roundNum_of_le {m n : Nat} (s : Bool) (hm : m < infMag) (h : n ≤ magUnits m) :
    finite (roundNum s n 1) = true := by
  have hbound : magUnits m / 1 < 2 ^ 2 ^ 13 :=
    (Nat.div_one _).trans_lt ((magUnits_lt_two_pow hm).trans_le (two_pow_le_format (by decide)))
  have hexact := roundMag_exact hm Nat.one_pos
  rw [Nat.mul_one] at hexact
  rw [finite_iff, magBits_roundNum]
  exact ((roundMag_mono h hbound).trans_eq hexact).trans_lt hm

/-- `1 - WS_P` does not overflow, since it is at most 1. -/
theorem finite_one_sub_blend (b : Build) : finite (fsub one b.ws.p) = true := by
  obtain ⟨hp, hlo, hhi⟩ := Build.blend_facts b
  have h0 : 0 ≤ exactValue b.ws.p := exactValue_mono (fle_iff.1 hlo).2.2
  have h1 : exactValue b.ws.p ≤ exactValue one := exactValue_mono (fle_iff.1 hhi).2.2
  have hone : exactValue one = magUnits (magBits one) := by decide +kernel
  obtain ⟨n, hn⟩ := Int.eq_ofNat_of_zero_le (Int.sub_nonneg_of_le h1)
  have hle : n ≤ magUnits (magBits one) :=
    Int.ofNat_le.1 ((hn.symm.trans_le (Int.sub_le_self _ h0)).trans_eq hone)
  refine fadd_of_finite_cases (by decide) ((finite_fneg _).trans hp) (fun _ => finite_of_isZero) fun s => ?_
  rw [exactValue_fneg, ← Int.sub_eq_add_neg, hn]
  exact finite_roundNum_of_le s (by decide) hle

theorem fmul_fneg_one {x : Num64} (h : finite x = true) : fmul x (fneg one) = fneg x := by
  have hone : magUnits (magBits (fneg one)) = unitsPerOne := by decide +kernel
  have hs : (signBit x != signBit (fneg one)) = !signBit x := Bool.bne_true _
  rw [fmul_of_finite h (by decide), hone, hs]
  apply num_ext
  · rw [signBit_roundNum, signBit_fneg]
  · rw [magBits_roundNum, magBits_fneg, roundMag_exact (finite_iff.1 h) (Int.natCast_pos.1 unitsPerOne_pos)]

theorem not_nan_fadd_of_finite {x y : Num64} (hx : finite x = true) (hy : finite y = true) : isNaN (fadd x y) = false :=
  fadd_of_finite_cases (P := (isNaN · = false)) hx hy (fun _ => not_nan_of_isZero) fun _ => isNaN_roundNum ..

theorem not_nan_fadd_of_finite_left {x y : Num64} (hx : finite x = true) (hy : isNaN y = false) :
    isNaN (fadd x y) = false := by
  cases hi : isInf y
  · exact not_nan_fadd_of_finite hx (finite_iff_not_nan_not_inf.2 ⟨hy, hi⟩)
  · rwa [fadd_inf_right hx hi]

theorem sigmoid_eq (b : Build) {x e q : Num64} (he : b.functions.exp2 (fmul x k2ln2) = e)
    (hq : fdiv (fsub e one) (fadd e one) = q) :
    sigmoid b x = fadd (fmul b.ws.p q) (fmul (fsub one b.ws.p) x) := by
  subst hq he
  rfl

section

variable {b : Build} {x : Num64}

theorem isZero_sigmoid (laws : Exp2Laws b.functions.exp2) (h : isZero x = true) : isZero (sigmoid b x) = true := by
  have hprod := isZero_fmul_of_isZero (x := posZero) rfl (Build.blend_facts b).1
  rw [fmul_comm] at hprod
  have hlin := isZero_fmul_of_isZero h (finite_one_sub_blend b)
  rw [fmul_comm] at hlin
  rw [sigmoid_eq b (q := posZero) (exp2_of_isZero laws h) (by decide +kernel), fadd_of_isZero hprod hlin]
  split <;> rfl

theorem isNaN_sigmoid (laws : Exp2Laws b.functions.exp2) (h : fle 0x4076300000000000#64 x = true) :
    isNaN (sigmoid b x) = true := by
  rw [sigmoid_eq b (q := quietNaN) (exp2_of_large laws h) (by decide +kernel), fmul_of_nan (.inr isNaN_quietNaN),
    fadd_of_nan (.inl isNaN_quietNaN)]
  exact isNaN_quietNaN

theorem sigmoid_of_large_neg (laws : Exp2Laws b.functions.exp2) (h : fle x 0xC079000000000000#64 = true) :
    sigmoid b x = fadd (fneg b.ws.p) (fmul (fsub one b.ws.p) x) := by
  rw [sigmoid_eq b (q := fneg one) (exp2_of_large_neg laws h) (by decide +kernel), fmul_fneg_one (Build.blend_facts b).1]

theorem not_nan_large_neg_blend (hf : finite x = true) :
    isNaN (fadd (fneg b.ws.p) (fmul (fsub one b.ws.p) x)) = false :=
  not_nan_fadd_of_finite_left ((finite_fneg _).trans (Build.blend_facts b).1)
    (by rw [fmul_of_finite (finite_one_sub_blend b) hf, isNaN_roundNum])

end

/-- Settles O42: the write of R126 of the blend, with `EXP2` 1, an infinity or a zero. -/
theorem sigmoidWritesTheBlend : Obligations.SigmoidWritesTheBlend :=
  fun s => ⟨rfl, exec_pure (exec_sigmoid s) fun _ hv laws =>
    ⟨fun h => have hz := isZero_sigmoid laws h; hv.2 (not_nan_of_isZero hz) ▸ hz,
      fun h => hv.1 (isNaN_sigmoid laws h),
      fun hf h => hv.eq_of_eq (sigmoid_of_large_neg laws h) (not_nan_large_neg_blend hf)⟩⟩

end Sys2Proof.Machine
end

section
/-! PROOFS. The formulas over the real numbers: the sigmoid (44_waveshaper.md R244, R245) and the damping filters
(40_numerics.md R137, R148, 43_fdn_engine.md R213). -/

namespace Sys2Proof.Machine

/-! ### The sigmoid -/

theorem tanh_eq_exp_two_mul (x : ℝ) : Real.tanh x = (Real.exp (2 * x) - 1) / (Real.exp (2 * x) + 1) := by
  have hsq : Real.exp (2 * x) = Real.exp x * Real.exp x := by rw [two_mul, Real.exp_add]
  have hone : Real.exp x * Real.exp (-x) = 1 := by rw [← Real.exp_add, add_neg_cancel, Real.exp_zero]
  rw [Real.tanh_eq, hsq, ← hone, ← mul_sub, ← mul_add, mul_div_mul_left _ _ (Real.exp_ne_zero x)]

theorem real_x2exp {f : FunctionsOf ℝ} (hf : f.exp2 = exactExp2) (x : ℝ) : f.overReals.x2exp x = Real.exp (2 * x) := by
  have h : f.overReals.x2exp x = f.exp2 (x * (2 / Real.log 2)) := rfl
  rw [h, hf, exactExp2, Real.rpow_def_of_pos two_pos, mul_left_comm, mul_div_cancel₀ _ (Real.log_pos one_lt_two).ne',
    mul_comm]

/-- The blend of `tanh` and the identity. -/
noncomputable def realBlend (p x : ℝ) : ℝ := p * Real.tanh x + (1 - p) * x

theorem real_sigmoid {f : FunctionsOf ℝ} (hf : f.exp2 = exactExp2) (p : ℝ) : f.overReals.sigmoid p = realBlend p := by
  funext x
  have h : f.overReals.sigmoid p x =
      p * ((f.overReals.x2exp x - 1) / (f.overReals.x2exp x + 1)) + (1 - p) * x := rfl
  rw [h, real_x2exp hf, ← tanh_eq_exp_two_mul, realBlend]

theorem realBlend_zero (p : ℝ) : realBlend p 0 = 0 := by rw [realBlend, Real.tanh_zero, mul_zero, mul_zero, add_zero]

theorem realBlend_neg (p x : ℝ) : realBlend p (-x) = -realBlend p x := by
  rw [realBlend, realBlend, Real.tanh_neg, mul_neg, mul_neg, neg_add]

theorem hasDerivAt_tanh (x : ℝ) : HasDerivAt Real.tanh (1 / Real.cosh x ^ 2) x := by
  have h := (Real.hasDerivAt_sinh x).fun_div (Real.hasDerivAt_cosh x) (Real.cosh_pos x).ne'
  rw [← sq, ← sq, Real.cosh_sq_sub_sinh_sq] at h
  rwa [show Real.tanh = _ from funext Real.tanh_eq_sinh_div_cosh]

theorem hasDerivAt_realBlend (p x : ℝ) : HasDerivAt (realBlend p) (p * (1 / Real.cosh x ^ 2) + (1 - p) * 1) x :=
  ((hasDerivAt_tanh x).const_mul p).fun_add ((hasDerivAt_id' x).const_mul (1 - p))

theorem strictMono_realBlend {p : ℝ} (h0 : 0 ≤ p) (h1 : p ≤ 1) : StrictMono (realBlend p) := by
  refine strictMono_of_hasDerivAt_pos (hasDerivAt_realBlend p) fun x => ?_
  have hslope : 0 < 1 / Real.cosh x ^ 2 := one_div_pos.2 (pow_pos (Real.cosh_pos x) 2)
  rw [mul_one]
  obtain rfl | hlt := h1.eq_or_lt
  · rwa [one_mul, sub_self, add_zero]
  · exact add_pos_of_nonneg_of_pos (mul_nonneg h0 hslope.le) (sub_pos.2 hlt)

/-- The `tanh` term is bounded, so the identity decides. -/
theorem realBlend_unbounded {p : ℝ} (h : p < 1) (C : ℝ) : ∃ x, C < realBlend p x := by
  have hbound (x : ℝ) : -|p| ≤ p * Real.tanh x := by
    refine (neg_le_neg ?_).trans (neg_abs_le _)
    rw [abs_mul]
    exact mul_le_of_le_one_right (abs_nonneg p) (Real.abs_tanh_lt_one x).le
  refine ⟨(|p| + (C + 1)) / (1 - p), (lt_add_one C).trans_le ?_⟩
  have hsum := add_le_add_left (hbound ((|p| + (C + 1)) / (1 - p))) (|p| + (C + 1))
  rw [neg_add_cancel_left] at hsum
  rwa [realBlend, mul_div_cancel₀ _ (sub_pos.2 h).ne']

/-- Settles O43: with `tanh` written by `e^(2x)` the formula is the blend, whose slope is positive. -/
theorem sigmoidOverTheReals : Obligations.SigmoidOverTheReals := by
  intro f hf p
  rw [real_sigmoid hf p]
  refine ⟨fun x => ⟨real_x2exp hf x, rfl, realBlend_neg p x⟩, realBlend_zero p, ?slope, strictMono_realBlend,
    realBlend_unbounded⟩
  case slope =>
    have h := hasDerivAt_realBlend p 0
    rwa [Real.cosh_zero, one_pow, div_one, mul_one, mul_one, add_sub_cancel] at h

/-! ### The damping filters -/

/-- The low component of a one-pole filter over the reals: coefficient, state, input. -/
noncomputable def realLow (a st x : ℝ) : ℝ := st + a * (x - st)

theorem realLow_zero (st x : ℝ) : realLow 0 st x = st := by rw [realLow, zero_mul, add_zero]

theorem realLow_one (st x : ℝ) : realLow 1 st x = x := by rw [realLow, one_mul, add_sub_cancel]

theorem realLow_silent (a : ℝ) : realLow a 0 0 = 0 := by rw [realLow, sub_self, mul_zero, add_zero]

/-- With a coefficient in the unit interval the low component lies between state and input. -/
theorem abs_realLow_le_max {a : ℝ} (h0 : 0 ≤ a) (h1 : a ≤ 1) (st x : ℝ) : |realLow a st x| ≤ max |st| |x| := by
  have h1' := sub_nonneg.2 h1
  have hblend : realLow a st x = (1 - a) * st + a * x := by
    rw [realLow, mul_sub, sub_mul, one_mul, add_sub_assoc', sub_add_eq_add_sub]
  have hterms := abs_add_le ((1 - a) * st) (a * x)
  rw [abs_mul, abs_mul, abs_of_nonneg h0, abs_of_nonneg h1'] at hterms
  rw [hblend]
  exact hterms.trans (Convex.combo_le_max _ _ h1' h0 (sub_add_cancel _ _))

section

variable (f : FunctionsOf ℝ)

theorem real_onepole (st fc fs x : ℝ) : f.overReals.onepole st fc fs x =
    ⟨realLow (f.alpha fc fs) st x, realLow (f.alpha fc fs) st x, x - realLow (f.alpha fc fs) st x, false⟩ := rfl

/-- In the first branch of R212 the ceiling filter gets the high component of the floor filter. -/
theorem real_dampLine_first {fl ce : ℝ} (h : fl ≤ ce) (fs : ℝ) (l : LineOf ℝ) :
    (f.overReals.dampLine fl ce fs l).y = realLow (f.alpha ce fs) l.fce
      (l.dl.getD (l.plen - 1) 0 - realLow (f.alpha fl fs) l.flo (l.dl.getD (l.plen - 1) 0)) := by
  rw [NumConfig.dampLine, if_pos (show f.overReals.le fl ce = true from (real_le _ _).2 h)]
  rfl

/-- In the second branch it gets the low component, and the high one is added. -/
theorem real_dampLine_second {fl ce : ℝ} (h : ce < fl) (fs : ℝ) (l : LineOf ℝ) :
    (f.overReals.dampLine fl ce fs l).y =
      realLow (f.alpha ce fs) l.fce (realLow (f.alpha fl fs) l.flo (l.dl.getD (l.plen - 1) 0)) +
        (l.dl.getD (l.plen - 1) 0 - realLow (f.alpha fl fs) l.flo (l.dl.getD (l.plen - 1) 0)) := by
  rw [NumConfig.dampLine, if_neg (show ¬ f.overReals.le fl ce = true from mt (real_le _ _).1 h.not_ge)]
  rfl

theorem real_dampLine_frame (fl ce fs : ℝ) (l : LineOf ℝ) :
    (f.overReals.dampLine fl ce fs l).nonfin = false ∧ (f.overReals.dampLine fl ce fs l).line.dl = l.dl := by
  unfold NumConfig.dampLine
  split <;> exact ⟨rfl, rfl⟩

/-- In the second branch a line whose ceiling filter passes its input is not damped. -/
theorem real_dampLine_open {fl ce : ℝ} (h : ce < fl) (fs : ℝ) (l : LineOf ℝ) (hce : f.alpha ce fs = 1) :
    (f.overReals.dampLine fl ce fs l).y = l.dl.getD (l.plen - 1) 0 := by
  rw [real_dampLine_second f h, hce, realLow_one, add_sub_cancel]

end

/-- Settles O58: the filter and the two branches of the damping as equations, at the coefficients that R213 names. -/
theorem dampingOverTheReals : Obligations.DampingOverTheReals := by
  refine fun f => ⟨fun v => ⟨rfl, rfl, rfl⟩, fun st fc fs x => ?filter, fun fl ce fs l =>
    ⟨(real_dampLine_frame f fl ce fs l).1, (real_dampLine_frame f fl ce fs l).2, fun hfl hce hflo => ?undamped,
      fun h hfl hce hflo hfce => ?silent, fun h hfl hce hflo hfce => ?complement,
      fun h hce => real_dampLine_open f h fs l hce⟩⟩
  case filter =>
    refine ⟨rfl, rfl, add_sub_cancel _ _, fun ha => ?keep, fun ha => ?pass, fun hst hx => ?silence,
      fun h0 h1 => abs_realLow_le_max h0 h1 st x⟩
    case keep => rw [real_onepole, ha, realLow_zero]
    case pass => rw [real_onepole, ha, realLow_one, sub_self]; exact ⟨rfl, rfl⟩
    case silence => rw [real_onepole, hst, hx, realLow_silent, sub_self]; exact ⟨rfl, rfl⟩
  case undamped =>
    obtain h | h := le_or_gt fl ce
    · rw [real_dampLine_first f h, hce, realLow_one, hfl, realLow_zero, hflo, sub_zero]
    · exact real_dampLine_open f h fs l hce
  case silent => rw [real_dampLine_first f h, hce, realLow_zero, hfce]
  case complement => rw [real_dampLine_second f h, hce, realLow_zero, hfl, realLow_zero, hfce, hflo, zero_add, sub_zero]

end Sys2Proof.Machine
end
